-- ==== Sys2Proof/Word.lean ====
section
/-! DEFINITION. The word types of GMC-CORE (spec/00_scope.md R12, R14): every register value is an
unsigned number of the register's width, and arithmetic named with a width wraps. -/

namespace Sys2Proof

/-- A DMEM byte. -/
abbrev Byte := BitVec 8
/-- An index register's value (R22). -/
abbrev Half := BitVec 16
/-- An instruction word, a host-window word, a hash or cipher word. -/
abbrev Word := BitVec 32
/-- A cipher block or key: the low half of a big register (R141). -/
abbrev Block := BitVec 128
/-- A big register's value (R20). -/
abbrev Big := BitVec 256
/-- A program counter value: an IMEM word index, 0..256 reachable (R24). -/
abbrev Pc := BitVec 9
/-- A host-window byte offset, offset[12:0] (R49, R51). -/
abbrev Offset := BitVec 13

end Sys2Proof
end

