-- ==== Sys2Proof/Syntax.lean ====
section
/-! DEFINITION. The instructions of GMC-ISA version 1: one constructor for each row of the opcode map
(spec/30_encoding.md R65), with the operands the row's format gives it (R61, R63). -/

namespace Sys2Proof

/-- The number of a big register B0..B15 (R20). -/
abbrev BReg := Fin 16
/-- The number of an index register I0..I3 (R22). -/
abbrev IReg := Fin 4
/-- The number of a point slot S0..S3 (R21). -/
abbrev Slot := Fin 4
/-- A constant number of CONST: the whole 4-bit field; 12..15 are reserved (R85, R66). -/
abbrev ConstId := Fin 16

/-- The modulus the `m` bit selects (R62): the curve prime or the group order. -/
inductive Modulus
  | p
  | n
  deriving DecidableEq, Repr

/-- One instruction. Operands stand in the order of the assembler (R68). -/
inductive Instr
  -- control (40_control.md)
  | nop
  | halt
  | jmp (tgt : BitVec 8)
  | bz (tgt : BitVec 8)
  | bnz (tgt : BitVec 8)
  | bt (tgt : BitVec 8)
  | bnt (tgt : BitVec 8)
  | dbra (ix : IReg) (tgt : BitVec 8)
  | li (ix : IReg) (imm : BitVec 16)
  | addi (ix : IReg) (imm : BitVec 16)
  | btst (rs1 : BReg) (ix : IReg)
  -- data movement (41_data_movement.md); for the stores `rd` is the source
  | mov (rd rs1 : BReg)
  | const (rd : BReg) (cid : ConstId)
  | ldw (rd : BReg) (imm : BitVec 12) (ix : IReg)
  | stw (rd : BReg) (imm : BitVec 12) (ix : IReg)
  | ldq (rd : BReg) (imm : BitVec 12) (ix : IReg)
  | stq (rd : BReg) (imm : BitVec 12) (ix : IReg)
  -- modular unit (42_modular.md)
  | madd (rd rs1 rs2 : BReg) (m : Modulus)
  | msub (rd rs1 rs2 : BReg) (m : Modulus)
  | mmul (rd rs1 rs2 : BReg) (m : Modulus)
  | minv (rd rs1 : BReg) (m : Modulus)
  | mred (rd rs1 : BReg) (m : Modulus)
  | tom (rd rs1 : BReg) (m : Modulus)
  | fromm (rd rs1 : BReg) (m : Modulus)
  | rchk (rs1 : BReg) (m : Modulus)
  -- point unit (43_point.md)
  | pgen (sd : Slot)
  | pdbl (sd ss1 : Slot)
  | padd (sd ss1 ss2 : Slot)
  | pchk (ss1 : Slot)
  -- hash unit (44_hash.md)
  | hinit
  | hset (rs1 : BReg)
  | hget (rd : BReg)
  | hcomp (rs1 rs2 : BReg)
  | hp0 (rd rs1 : BReg)
  | hp1 (rd rs1 : BReg)
  -- cipher unit (45_cipher.md)
  | kexp (rs1 : BReg)
  | enc (rd rs1 : BReg)
  | dec (rd rs1 : BReg)
  | sbox (rd rs1 : BReg)
  | ldif (rd rs1 : BReg)
  | lkey (rd rs1 : BReg)
  deriving DecidableEq, Repr

end Sys2Proof
end

