-- ==== Sys2Proof/WellFormed.lean ====
section
/-! DEFINITION. Which instruction terms have an encoding. The types of the operands already bound
register, slot and immediate fields; the one further check of the spec is that CONST's number is one
of the twelve of the table (spec/30_encoding.md R66, R67, spec/41_data_movement.md R85). -/

namespace Sys2Proof

/-- The operands are ones the encoding admits: CONST's number is 0..11 (R66). -/
def Instr.wellFormed : Instr → Bool
  | .const _ cid => cid.val ≤ 11
  | .nop | .halt | .jmp _ | .bz _ | .bnz _ | .bt _ | .bnt _ | .dbra _ _ | .li _ _ | .addi _ _
  | .btst _ _ | .mov _ _ | .ldw _ _ _ | .stw _ _ _ | .ldq _ _ _ | .stq _ _ _
  | .madd _ _ _ _ | .msub _ _ _ _ | .mmul _ _ _ _ | .minv _ _ _ | .mred _ _ _ | .tom _ _ _
  | .fromm _ _ _ | .rchk _ _ | .pgen _ | .pdbl _ _ | .padd _ _ _ | .pchk _
  | .hinit | .hset _ | .hget _ | .hcomp _ _ | .hp0 _ _ | .hp1 _ _
  | .kexp _ | .enc _ _ | .dec _ _ | .sbox _ _ | .ldif _ _ | .lkey _ _ => true

end Sys2Proof
end

