-- ==== Sys2Proof/Decode.lean ====
section
/-! DEFINITION. Decoding a fetched word and encoding an instruction (spec/30_encoding.md R60 to R67).
`decode` is total: every word is one instruction or illegal for a named reason (R66). -/

namespace Sys2Proof

/-- Why a word is ILLEGAL, in the order R66 checks. -/
inductive IllegalReason
  /-- the opcode is not in the opcode map -/
  | reservedOpcode
  /-- a reserved bit is 1 -/
  | reservedBit
  /-- CONST with a number above 11 -/
  | reservedConstant
  deriving DecidableEq, Repr

/-- What a 32-bit word decodes to. -/
inductive Decoded
  | instr (i : Instr)
  | illegal (why : IllegalReason)
  deriving DecidableEq, Repr

/-! ## Field extraction (R61) -/

/-- `op`, bits 31:26. -/
def Field.op (w : Word) : BitVec 6 := w.extractLsb' 26 6
/-- `rd`, bits 25:22. -/
def Field.rd (w : Word) : BReg := (w.extractLsb' 22 4).toFin
/-- `rs1`, bits 21:18. -/
def Field.rs1 (w : Word) : BReg := (w.extractLsb' 18 4).toFin
/-- `rs2`, bits 17:14. -/
def Field.rs2 (w : Word) : BReg := (w.extractLsb' 14 4).toFin
/-- `m`, bit 13: 0 selects P and 1 selects N (R62). -/
def Field.m (w : Word) : Modulus := if w.extractLsb' 13 1 = 0#1 then .p else .n
/-- `cid`, bits 21:18. -/
def Field.cid (w : Word) : ConstId := (w.extractLsb' 18 4).toFin
/-- `ix`, bits 17:16. -/
def Field.ix (w : Word) : IReg := (w.extractLsb' 16 2).toFin
/-- `imm12`, bits 11:0. -/
def Field.imm12 (w : Word) : BitVec 12 := w.extractLsb' 0 12
/-- `imm16`, bits 15:0. -/
def Field.imm16 (w : Word) : BitVec 16 := w.extractLsb' 0 16
/-- `tgt`, bits 7:0. -/
def Field.tgt (w : Word) : BitVec 8 := w.extractLsb' 0 8
/-- `sd`, bits 25:24. -/
def Field.sd (w : Word) : Slot := (w.extractLsb' 24 2).toFin
/-- `ss1`, bits 21:20. -/
def Field.ss1 (w : Word) : Slot := (w.extractLsb' 20 2).toFin
/-- `ss2`, bits 17:16. -/
def Field.ss2 (w : Word) : Slot := (w.extractLsb' 16 2).toFin

/-! ## The opcode map (R65) -/

/-- One row of the opcode map: the word's fixed bits, and the instruction its fields make. -/
structure OpcodeRow where
  opcode : BitVec 6
  mnemonic : String
  matchBits : Word
  mask : Word
  build : Word → Instr

/-- Rows 0x01..0x0B: control. -/
def controlRows : List OpcodeRow := [
  ⟨0x01, "NOP",  0x04000000, 0xFFFFFFFF, fun _ => .nop⟩,
  ⟨0x02, "HALT", 0x08000000, 0xFFFFFFFF, fun _ => .halt⟩,
  ⟨0x03, "JMP",  0x0C000000, 0xFFFFFF00, fun w => .jmp (Field.tgt w)⟩,
  ⟨0x04, "BZ",   0x10000000, 0xFFFFFF00, fun w => .bz (Field.tgt w)⟩,
  ⟨0x05, "BNZ",  0x14000000, 0xFFFFFF00, fun w => .bnz (Field.tgt w)⟩,
  ⟨0x06, "BT",   0x18000000, 0xFFFFFF00, fun w => .bt (Field.tgt w)⟩,
  ⟨0x07, "BNT",  0x1C000000, 0xFFFFFF00, fun w => .bnt (Field.tgt w)⟩,
  ⟨0x08, "DBRA", 0x20000000, 0xFFFCFF00, fun w => .dbra (Field.ix w) (Field.tgt w)⟩,
  ⟨0x09, "LI",   0x24000000, 0xFFFC0000, fun w => .li (Field.ix w) (Field.imm16 w)⟩,
  ⟨0x0A, "ADDI", 0x28000000, 0xFFFC0000, fun w => .addi (Field.ix w) (Field.imm16 w)⟩,
  ⟨0x0B, "BTST", 0x2C000000, 0xFFC0FFFF, fun w => .btst (Field.rs1 w) (Field.ix w)⟩]

/-- Rows 0x10..0x15: data movement. -/
def moveRows : List OpcodeRow := [
  ⟨0x10, "MOV",   0x40000000, 0xFC03FFFF, fun w => .mov (Field.rd w) (Field.rs1 w)⟩,
  ⟨0x11, "CONST", 0x44000000, 0xFC03FFFF, fun w => .const (Field.rd w) (Field.cid w)⟩,
  ⟨0x12, "LDW",   0x48000000, 0xFC3CF000, fun w => .ldw (Field.rd w) (Field.imm12 w) (Field.ix w)⟩,
  ⟨0x13, "STW",   0x4C000000, 0xFC3CF000, fun w => .stw (Field.rd w) (Field.imm12 w) (Field.ix w)⟩,
  ⟨0x14, "LDQ",   0x50000000, 0xFC3CF000, fun w => .ldq (Field.rd w) (Field.imm12 w) (Field.ix w)⟩,
  ⟨0x15, "STQ",   0x54000000, 0xFC3CF000, fun w => .stq (Field.rd w) (Field.imm12 w) (Field.ix w)⟩]

/-- Rows 0x18..0x1F: the modular unit. -/
def modularRows : List OpcodeRow := [
  ⟨0x18, "MADD",  0x60000000, 0xFC001FFF, fun w => .madd (Field.rd w) (Field.rs1 w) (Field.rs2 w) (Field.m w)⟩,
  ⟨0x19, "MSUB",  0x64000000, 0xFC001FFF, fun w => .msub (Field.rd w) (Field.rs1 w) (Field.rs2 w) (Field.m w)⟩,
  ⟨0x1A, "MMUL",  0x68000000, 0xFC001FFF, fun w => .mmul (Field.rd w) (Field.rs1 w) (Field.rs2 w) (Field.m w)⟩,
  ⟨0x1B, "MINV",  0x6C000000, 0xFC03DFFF, fun w => .minv (Field.rd w) (Field.rs1 w) (Field.m w)⟩,
  ⟨0x1C, "MRED",  0x70000000, 0xFC03DFFF, fun w => .mred (Field.rd w) (Field.rs1 w) (Field.m w)⟩,
  ⟨0x1D, "TOM",   0x74000000, 0xFC03DFFF, fun w => .tom (Field.rd w) (Field.rs1 w) (Field.m w)⟩,
  ⟨0x1E, "FROMM", 0x78000000, 0xFC03DFFF, fun w => .fromm (Field.rd w) (Field.rs1 w) (Field.m w)⟩,
  ⟨0x1F, "RCHK",  0x7C000000, 0xFFC3DFFF, fun w => .rchk (Field.rs1 w) (Field.m w)⟩]

/-- Rows 0x20..0x23: the point unit. -/
def pointRows : List OpcodeRow := [
  ⟨0x20, "PGEN", 0x80000000, 0xFCFFFFFF, fun w => .pgen (Field.sd w)⟩,
  ⟨0x21, "PDBL", 0x84000000, 0xFCCFFFFF, fun w => .pdbl (Field.sd w) (Field.ss1 w)⟩,
  ⟨0x22, "PADD", 0x88000000, 0xFCCCFFFF, fun w => .padd (Field.sd w) (Field.ss1 w) (Field.ss2 w)⟩,
  ⟨0x23, "PCHK", 0x8C000000, 0xFFCFFFFF, fun w => .pchk (Field.ss1 w)⟩]

/-- Rows 0x28..0x2D: the hash unit. -/
def hashRows : List OpcodeRow := [
  ⟨0x28, "HINIT", 0xA0000000, 0xFFFFFFFF, fun _ => .hinit⟩,
  ⟨0x29, "HSET",  0xA4000000, 0xFFC3FFFF, fun w => .hset (Field.rs1 w)⟩,
  ⟨0x2A, "HGET",  0xA8000000, 0xFC3FFFFF, fun w => .hget (Field.rd w)⟩,
  ⟨0x2B, "HCOMP", 0xAC000000, 0xFFC03FFF, fun w => .hcomp (Field.rs1 w) (Field.rs2 w)⟩,
  ⟨0x2C, "HP0",   0xB0000000, 0xFC03FFFF, fun w => .hp0 (Field.rd w) (Field.rs1 w)⟩,
  ⟨0x2D, "HP1",   0xB4000000, 0xFC03FFFF, fun w => .hp1 (Field.rd w) (Field.rs1 w)⟩]

/-- Rows 0x30..0x35: the cipher unit. -/
def cipherRows : List OpcodeRow := [
  ⟨0x30, "KEXP", 0xC0000000, 0xFFC3FFFF, fun w => .kexp (Field.rs1 w)⟩,
  ⟨0x31, "ENC",  0xC4000000, 0xFC03FFFF, fun w => .enc (Field.rd w) (Field.rs1 w)⟩,
  ⟨0x32, "DEC",  0xC8000000, 0xFC03FFFF, fun w => .dec (Field.rd w) (Field.rs1 w)⟩,
  ⟨0x33, "SBOX", 0xCC000000, 0xFC03FFFF, fun w => .sbox (Field.rd w) (Field.rs1 w)⟩,
  ⟨0x34, "LDIF", 0xD0000000, 0xFC03FFFF, fun w => .ldif (Field.rd w) (Field.rs1 w)⟩,
  ⟨0x35, "LKEY", 0xD4000000, 0xFC03FFFF, fun w => .lkey (Field.rd w) (Field.rs1 w)⟩]

/-- The 41 rows of R65. -/
def opcodeMap : List OpcodeRow :=
  controlRows ++ moveRows ++ modularRows ++ pointRows ++ hashRows ++ cipherRows

/-- Decoding, check by check as R66 lists them. -/
def decode (w : Word) : Decoded :=
  match opcodeMap.find? (fun row => row.opcode == Field.op w) with
  | none => .illegal .reservedOpcode
  | some row =>
    if w &&& row.mask = row.matchBits then
      if (row.build w).wellFormed then .instr (row.build w) else .illegal .reservedConstant
    else .illegal .reservedBit

/-! ## Encoding (R63): the eight formats, bit 31 first -/

/-- A big-register field. -/
def BReg.bits (r : BReg) : BitVec 4 := BitVec.ofNat 4 r.val
/-- An index-register field. -/
def IReg.bits (r : IReg) : BitVec 2 := BitVec.ofNat 2 r.val
/-- A slot field. -/
def Slot.bits (s : Slot) : BitVec 2 := BitVec.ofNat 2 s.val
/-- The `m` bit (R62). -/
def Modulus.bit : Modulus → BitVec 1
  | .p => 0#1
  | .n => 1#1

/-- Format N: `oooooo 0000 0000 0000 0 0000000000000`. -/
def formatN (op : BitVec 6) : Word := op ++ 0#26
/-- Format J: `oooooo 0000 0000 xx 00000000 tttttttt`. -/
def formatJ (op : BitVec 6) (ix : BitVec 2) (tgt : BitVec 8) : Word := op ++ 0#8 ++ ix ++ 0#8 ++ tgt
/-- Format X: `oooooo 0000 0000 xx iiiiiiiiiiiiiiii`. -/
def formatX (op : BitVec 6) (ix : BitVec 2) (imm : BitVec 16) : Word := op ++ 0#8 ++ ix ++ imm
/-- Format T: `oooooo 0000 aaaa xx 0000000000000000`. -/
def formatT (op : BitVec 6) (rs1 : BitVec 4) (ix : BitVec 2) : Word := op ++ 0#4 ++ rs1 ++ ix ++ 0#16
/-- Format R: `oooooo dddd aaaa bbbb m 0000000000000`. -/
def formatR (op : BitVec 6) (rd rs1 rs2 : BitVec 4) (m : BitVec 1) : Word :=
  op ++ rd ++ rs1 ++ rs2 ++ m ++ 0#13
/-- Format C: `oooooo dddd cccc 000000000000000000`. -/
def formatC (op : BitVec 6) (rd cid : BitVec 4) : Word := op ++ rd ++ cid ++ 0#18
/-- Format M: `oooooo dddd 0000 xx 0000 iiiiiiiiiiii`. -/
def formatM (op : BitVec 6) (rd : BitVec 4) (ix : BitVec 2) (imm : BitVec 12) : Word :=
  op ++ rd ++ 0#4 ++ ix ++ 0#4 ++ imm
/-- Format S: `oooooo DD00 AA00 EE 0000000000000000`. -/
def formatS (op : BitVec 6) (sd ss1 ss2 : BitVec 2) : Word :=
  op ++ sd ++ 0#2 ++ ss1 ++ 0#2 ++ ss2 ++ 0#16

/-- The word of an instruction: its row's opcode (R65) in its format (R63); an unused field is 0.
For an ill-formed CONST it is the word R66 refuses. -/
def encode : Instr → Word
  | .nop => formatN 0x01
  | .halt => formatN 0x02
  | .jmp tgt => formatJ 0x03 0 tgt
  | .bz tgt => formatJ 0x04 0 tgt
  | .bnz tgt => formatJ 0x05 0 tgt
  | .bt tgt => formatJ 0x06 0 tgt
  | .bnt tgt => formatJ 0x07 0 tgt
  | .dbra ix tgt => formatJ 0x08 (IReg.bits ix) tgt
  | .li ix imm => formatX 0x09 (IReg.bits ix) imm
  | .addi ix imm => formatX 0x0A (IReg.bits ix) imm
  | .btst rs1 ix => formatT 0x0B (BReg.bits rs1) (IReg.bits ix)
  | .mov rd rs1 => formatR 0x10 (BReg.bits rd) (BReg.bits rs1) 0 0
  | .const rd cid => formatC 0x11 (BReg.bits rd) (BReg.bits cid)
  | .ldw rd imm ix => formatM 0x12 (BReg.bits rd) (IReg.bits ix) imm
  | .stw rd imm ix => formatM 0x13 (BReg.bits rd) (IReg.bits ix) imm
  | .ldq rd imm ix => formatM 0x14 (BReg.bits rd) (IReg.bits ix) imm
  | .stq rd imm ix => formatM 0x15 (BReg.bits rd) (IReg.bits ix) imm
  | .madd rd rs1 rs2 m => formatR 0x18 (BReg.bits rd) (BReg.bits rs1) (BReg.bits rs2) m.bit
  | .msub rd rs1 rs2 m => formatR 0x19 (BReg.bits rd) (BReg.bits rs1) (BReg.bits rs2) m.bit
  | .mmul rd rs1 rs2 m => formatR 0x1A (BReg.bits rd) (BReg.bits rs1) (BReg.bits rs2) m.bit
  | .minv rd rs1 m => formatR 0x1B (BReg.bits rd) (BReg.bits rs1) 0 m.bit
  | .mred rd rs1 m => formatR 0x1C (BReg.bits rd) (BReg.bits rs1) 0 m.bit
  | .tom rd rs1 m => formatR 0x1D (BReg.bits rd) (BReg.bits rs1) 0 m.bit
  | .fromm rd rs1 m => formatR 0x1E (BReg.bits rd) (BReg.bits rs1) 0 m.bit
  | .rchk rs1 m => formatR 0x1F 0 (BReg.bits rs1) 0 m.bit
  | .pgen sd => formatS 0x20 (Slot.bits sd) 0 0
  | .pdbl sd ss1 => formatS 0x21 (Slot.bits sd) (Slot.bits ss1) 0
  | .padd sd ss1 ss2 => formatS 0x22 (Slot.bits sd) (Slot.bits ss1) (Slot.bits ss2)
  | .pchk ss1 => formatS 0x23 0 (Slot.bits ss1) 0
  | .hinit => formatN 0x28
  | .hset rs1 => formatR 0x29 0 (BReg.bits rs1) 0 0
  | .hget rd => formatR 0x2A (BReg.bits rd) 0 0 0
  | .hcomp rs1 rs2 => formatR 0x2B 0 (BReg.bits rs1) (BReg.bits rs2) 0
  | .hp0 rd rs1 => formatR 0x2C (BReg.bits rd) (BReg.bits rs1) 0 0
  | .hp1 rd rs1 => formatR 0x2D (BReg.bits rd) (BReg.bits rs1) 0 0
  | .kexp rs1 => formatR 0x30 0 (BReg.bits rs1) 0 0
  | .enc rd rs1 => formatR 0x31 (BReg.bits rd) (BReg.bits rs1) 0 0
  | .dec rd rs1 => formatR 0x32 (BReg.bits rd) (BReg.bits rs1) 0 0
  | .sbox rd rs1 => formatR 0x33 (BReg.bits rd) (BReg.bits rs1) 0 0
  | .ldif rd rs1 => formatR 0x34 (BReg.bits rd) (BReg.bits rs1) 0 0
  | .lkey rd rs1 => formatR 0x35 (BReg.bits rd) (BReg.bits rs1) 0 0

/-- The instruction the decoder reads from the `nbits` bits `w` numbered as the opcode table numbers
them: an instruction is exactly one 32-bit word (R60), and bits above `nbits` are 0. -/
def decodeTableWord (nbits w : Nat) : Option Instr :=
  match decode (BitVec.ofNat 32 (w % 2 ^ nbits)) with
  | .instr i => some i
  | .illegal _ => none

end Sys2Proof
end

