-- ==== Sys2Proof/Machine/Lanes.lean ====
section
/-! DEFINITION. Bit numbering and byte order (spec/00_scope.md R13, R14): word 0 and byte 0 of a value
are the most significant; concatenation has its left operand more significant. -/

namespace Sys2Proof.Machine

/-- `rotl_32(x, s)`: left rotation by `s mod 32` (R14). -/
def rotl (x : Word) (s : Nat) : Word := x.rotateLeft (s % 32)

/-- Word `j` (0..7) of a 256-bit value: bits `[255-32j : 224-32j]` (R13). -/
def wordOf (v : Big) (j : Nat) : Word := v.extractLsb' (224 - 32 * j) 32

/-- The 256-bit value with the given words, word 0 first (`join` of 44_hash.md §2). -/
def joinWords (w0 w1 w2 w3 w4 w5 w6 w7 : Word) : Big :=
  w0 ++ w1 ++ w2 ++ w3 ++ w4 ++ w5 ++ w6 ++ w7

/-- Apply `f` to each of the eight words, lane-wise. -/
def lanes (f : Word → Word) (v : Big) : Big :=
  joinWords (f (wordOf v 0)) (f (wordOf v 1)) (f (wordOf v 2)) (f (wordOf v 3))
    (f (wordOf v 4)) (f (wordOf v 5)) (f (wordOf v 6)) (f (wordOf v 7))

/-- The value `v` with its word `j` replaced by `x`. -/
def setWord (v : Big) (j : Nat) (x : Word) : Big :=
  let pick := fun i => if i = j then x else wordOf v i
  joinWords (pick 0) (pick 1) (pick 2) (pick 3) (pick 4) (pick 5) (pick 6) (pick 7)

/-- Word `j` (0..3) of a 128-bit value: word 0 is bits `[127:96]` (R13). -/
def blockWord (v : Block) (j : Nat) : Word := v.extractLsb' (96 - 32 * j) 32

/-- The 128-bit value with the given words, word 0 first. -/
def joinBlock (w0 w1 w2 w3 : Word) : Block := w0 ++ w1 ++ w2 ++ w3

/-- Bits `[127:0]` of a big value. -/
def lowBlock (v : Big) : Block := v.extractLsb' 0 128

/-- `zext_256` of a 128-bit value (R14). -/
def zextBlock (v : Block) : Big := v.setWidth 256

/-- Byte `j` (0..3) of a word, byte 0 most significant (R13). -/
def byteOf (w : Word) (j : Nat) : Byte := w.extractLsb' (24 - 8 * j) 8

/-- The word with the given bytes, byte 0 first. -/
def joinBytes (a0 a1 a2 a3 : Byte) : Word := a0 ++ a1 ++ a2 ++ a3

/-- The `n` low bytes of a number, most significant first: the order MemWrite stores them (R44). -/
def bytesBE : Nat → Nat → List Byte
  | 0, _ => []
  | n + 1, v => BitVec.ofNat 8 (v / 256 ^ n) :: bytesBE n v

/-- The unsigned value of a byte string, first byte most significant (R43). -/
def natOfBytes (bs : List Byte) : Nat := bs.foldl (fun acc b => acc * 256 + b.toNat) 0

end Sys2Proof.Machine
end

