-- ==== Sys2Proof/Config.lean ====
section
/-! DEFINITION. What an implementation fixes, and the free values (spec/00_scope.md R12,
spec/20_memory.md R48). A constant without a body is a value nothing can be proved about. -/

namespace Sys2Proof.Config

/-- `IMEM_WORDS`, the number of instruction words (R12, R40). -/
def imemWords : Nat := 256

/-- `DMEM_BYTES`, the number of data bytes (R12, R41). -/
def dmemBytes : Nat := 4096

/-- The constant the host reads at offset 0: ASCII "GMC1" (R4, R28). -/
def idWord : Word := 0x474D4331#32

/-- FREE VALUE. What the n-th draw gives when the core or the host reads a DMEM byte that nothing has
written since the last reset (R48: "A model gives each such read a free draw"). Log 1. -/
opaque freeByte : Nat → Byte

/-- FREE VALUE. What the n-th draw gives when the core fetches, or the host reads, an IMEM word that
nothing has written since the last reset (R48: "A model draws the word"). Log 1. -/
opaque freeWord : Nat → Word

/-- OPEN PARAMETER `HOST_WINDOW_BASE` (R49). No rule, and no definition of the model, reads it. Log 7. -/
opaque hostWindowBase : Nat

/-- OPEN PARAMETER `IRQ_LINE` (R156). No rule, and no definition of the model, reads it. Log 7. -/
opaque irqLine : Nat

/-- OPEN PARAMETER `RESET_POLARITY` (R165). The model's `rst` is the asserted level whatever the
polarity of the wire. Log 7. -/
opaque resetPolarity : Bool

/-- OPEN PARAMETER `RESET_MIN_CYCLES` (R165). No rule, and no definition of the model, reads it. Log 7. -/
opaque resetMinCycles : Nat

end Sys2Proof.Config
end

