-- ==== Sys2Proof/Machine/State.lean ====
section
/-! DEFINITION. The state of GMC-CORE (spec/10_state.md, spec/20_memory.md) as plain data, the reasons a
step could stop, and the state after reset (R38, R165). -/

namespace Sys2Proof.Machine

/-- The fault causes of STATUS.CAUSE (R150). Codes 5..15 are never produced. -/
inductive Cause
  /-- code 0: no fault -/
  | none
  /-- code 1: the fetched word fails decode -/
  | illegal
  /-- code 2: a source operand is not below its modulus -/
  | range
  /-- code 3: a data access is out of bounds -/
  | daddr
  /-- code 4: pc = 256 at a fetch -/
  | fetch
  deriving DecidableEq, Repr

/-- The stored fields of CTRL (R29). START always reads 0 and is not stored. -/
structure Ctrl where
  ie : Bool
  entry : BitVec 8
  deriving DecidableEq, Repr

/-- The fields of STATUS (R31); BUSY is the run state (R27). -/
structure Status where
  busy : Bool
  done : Bool
  fault : Bool
  herr : Bool
  cause : Cause
  deriving DecidableEq, Repr

/-- One event of the host (R11, R51, R165), or one turn it leaves to the core. The order in which host
accesses and core steps come is the order of the list `State.pending`. Log 2. -/
inductive HostEvent
  /-- the core takes a turn -/
  | coreTurn
  /-- a 32-bit read of the window -/
  | read (offset : Offset)
  /-- a 32-bit write of the window -/
  | write (offset : Offset) (data : Word)
  /-- the reset input is asserted -/
  | assertReset
  /-- the reset input is released -/
  | releaseReset
  deriving DecidableEq, Repr

/-- The whole state. -/
structure State where
  /-- B[0]..B[15] (R20) -/
  big : Vector Big 16
  /-- I[0]..I[3] (R22) -/
  idx : Vector Half 4
  /-- Z: the last modular result was zero (R23) -/
  zFlag : Bool
  /-- T: the last test was true (R23) -/
  tFlag : Bool
  /-- the program counter (R24) -/
  pc : Pc
  /-- H, the hash chaining register, word 0 most significant (R25) -/
  hash : Big
  /-- RK[0]..RK[31] (R26) -/
  rk : Vector Word 32
  /-- IMEM: the words written since the last reset, by rising index (R40, R48) -/
  imem : List (Nat × Word)
  /-- DMEM: the bytes written since the last reset, by rising address (R41, R48) -/
  dmem : List Host.Cell
  /-- CTRL (R29) -/
  ctrl : Ctrl
  /-- STATUS (R31) -/
  status : Status
  /-- FPC: where the core last stopped (R32) -/
  fpc : Pc
  /-- FINSN: the word at which the core last stopped (R33) -/
  finsn : Word
  /-- the reset input is asserted (R165) -/
  rst : Bool
  /-- MODEL's own: the host events still to come, the next one first. Log 2. -/
  pending : List HostEvent
  /-- MODEL's own: what the block answered to the host's last read, if it answered. Log 2. -/
  answer : Option Word
  /-- MODEL's own: how many free values have been drawn (R48). Log 1. -/
  draws : Nat
  deriving DecidableEq, Repr

/-- The reasons a step could end without a next state. There is none: every fault of the spec stops the
core in a next state (R151), every data address out of bounds raises DADDR (R46), and every window
offset is mapped or reserved (R36). Safe: nothing is cut off. Log 4. -/
inductive Fault
  deriving DecidableEq, Repr

/-- Why an instruction would have no meaning. -/
inductive Refusal
  /-- Raised by an arm of `exec` for an instruction not modelled yet; no arm does. Safe. -/
  | notModelled (mnemonic : String)
  deriving DecidableEq, Repr

/-- The block right after reset (R38, R165): every register, flag and control field 0, Idle, IMEM and
DMEM unspecified (nothing listed), reset released. -/
def State.reset : State where
  big := Vector.replicate 16 0
  idx := Vector.replicate 4 0
  zFlag := false
  tFlag := false
  pc := 0
  hash := 0
  rk := Vector.replicate 32 0
  imem := []
  dmem := []
  ctrl := { ie := false, entry := 0 }
  status := { busy := false, done := false, fault := false, herr := false, cause := .none }
  fpc := 0
  finsn := 0
  rst := false
  pending := []
  answer := none
  draws := 0

end Sys2Proof.Machine
end

