-- ==== Sys2Proof/Machine/Memory.lean ====
section
/-! DEFINITION. IMEM and DMEM as lists of (address, content) with strictly rising addresses
(spec/20_memory.md R39 to R48). An address that is not listed has not been written since the last
reset; a read of it gives a free draw (R48), so no content could count as the unlisted one and no entry
is ever dropped by a write. Log 1. -/

namespace Sys2Proof.Machine

/-- The content listed at address `a`; none if nothing has been written there since reset. -/
def Mem.get? {α : Type} : List (Nat × α) → Nat → Option α
  | [], _ => none
  | (k, v) :: rest, a => if k = a then some v else Mem.get? rest a

/-- Write `x` at address `a`, keeping the addresses rising. -/
def Mem.set {α : Type} : List (Nat × α) → Nat → α → List (Nat × α)
  | [], a, x => [(a, x)]
  | (k, v) :: rest, a, x =>
    if a < k then (a, x) :: (k, v) :: rest
    else if a = k then (a, x) :: rest
    else (k, v) :: Mem.set rest a x

/-- Every address listed is at least `lo` and below `size`, and the addresses rise strictly. -/
def Mem.wfFrom {α : Type} (size : Nat) : Nat → List (Nat × α) → Bool
  | _, [] => true
  | lo, (k, _) :: rest => decide (lo ≤ k) && decide (k < size) && Mem.wfFrom size (k + 1) rest

/-- The canonical form of a memory of `size` addresses. -/
def Mem.wf {α : Type} (size : Nat) (m : List (Nat × α)) : Bool := Mem.wfFrom size 0 m

/-- Write a byte string at rising addresses. -/
def Mem.setAll (m : List Host.Cell) (a : Nat) : List Byte → List Host.Cell
  | [] => m
  | b :: bs => Mem.setAll (Mem.set m a b) (a + 1) bs

/-- Read one byte with `d` draws made before: the listed byte, or the next free draw (R48). The second
component is the number of draws made after. -/
def Mem.readByte (m : List Host.Cell) (d a : Nat) : Byte × Nat :=
  match Mem.get? m a with
  | some b => (b, d)
  | none => (Config.freeByte d, d + 1)

/-- Read `n` bytes at ascending addresses (R43). -/
def Mem.readBytes (m : List Host.Cell) : Nat → Nat → Nat → List Byte × Nat
  | _, d, 0 => ([], d)
  | a, d, n + 1 =>
    let first := Mem.readByte m d a
    let rest := Mem.readBytes m (a + 1) first.2 n
    (first.1 :: rest.1, rest.2)

/-- MEMORY's canonical form: both memories hold only addresses of their space, rising strictly. -/
def State.memoryWf (s : State) : Bool :=
  Mem.wf Config.imemWords s.imem && Mem.wf Config.dmemBytes s.dmem

end Sys2Proof.Machine
end

