-- ==== Sys2Proof/Machine/Operands.lean ====
section
/-! DEFINITION. The operand forms: registers, point slots and effective addresses
(spec/10_state.md R20 to R22, spec/30_encoding.md R64, spec/41_data_movement.md R83). -/

namespace Sys2Proof.Machine

/-- B[r] (R20). -/
def State.getB (s : State) (r : BReg) : Big := s.big.get r

/-- B[r] as an unsigned integer (R14). -/
def State.getBNat (s : State) (r : BReg) : Nat := (s.getB r).toNat

/-- B[r] <- v. -/
def State.setB (s : State) (r : BReg) (v : Big) : State :=
  { s with big := s.big.set r.val v r.isLt }

/-- I[k] (R22). -/
def State.getI (s : State) (k : IReg) : Half := s.idx.get k

/-- I[k] <- v. -/
def State.setI (s : State) (k : IReg) (v : Half) : State :=
  { s with idx := s.idx.set k.val v k.isLt }

/-- RK[i] (R26). -/
def State.getRk (s : State) (i : Fin 32) : Word := s.rk.get i

/-- RK[i] <- v. -/
def State.setRk (s : State) (i : Fin 32) (v : Word) : State :=
  { s with rk := s.rk.set i.val v i.isLt }

/-- All of RK <- v. -/
def State.setRks (s : State) (v : Vector Word 32) : State := { s with rk := v }

/-- H <- v (R25). -/
def State.setH (s : State) (v : Big) : State := { s with hash := v }

/-- The register of slot `k`'s X coordinate, B[4k] (R21). -/
def slotX (k : Slot) : BReg := ⟨4 * k.val, by omega⟩
/-- The register of slot `k`'s Y coordinate, B[4k+1] (R21). -/
def slotY (k : Slot) : BReg := ⟨4 * k.val + 1, by omega⟩
/-- The register of slot `k`'s Z coordinate, B[4k+2] (R21). -/
def slotZ (k : Slot) : BReg := ⟨4 * k.val + 2, by omega⟩

/-- Write the three registers of slot `k` (R21); B[4k+3] is not part of the slot. -/
def State.setSlot (s : State) (k : Slot) (x y z : Big) : State :=
  ((s.setB (slotX k) x).setB (slotY k) y).setB (slotZ k) z

/-- The effective address `zext_17(I[ix]) + zext_17(imm12)`: an exact sum, no wrap (R83). -/
def State.ea (s : State) (imm : BitVec 12) (ix : IReg) : Nat := (s.getI ix).toNat + imm.toNat

end Sys2Proof.Machine
end

