-- ==== Sys2Proof/Machine/Flags.lean ====
section
/-! DEFINITION. The two flags (spec/10_state.md R23, spec/42_modular.md R93). -/

namespace Sys2Proof.Machine

/-- `result == 0`, what Z records (R23). -/
def zeroFlag (result : Nat) : Bool := result == 0

/-- Z <- v. -/
def State.setZ (s : State) (v : Bool) : State := { s with zFlag := v }

/-- T <- v. -/
def State.setT (s : State) (v : Bool) : State := { s with tFlag := v }

end Sys2Proof.Machine
end

