-- ==== Sys2Proof/Machine/Ops.lean ====
section
/-! DEFINITION. The operations the instructions share: moving the pc, fetching, reading and writing
DMEM, the stop Done, taking a fault and starting a run (spec/40_control.md R70, R73,
spec/20_memory.md R43, R44, R46, spec/60_exceptions.md R150 to R154, spec/10_state.md R30). -/

namespace Sys2Proof.Machine

/-- What one step, or one instruction, answers. -/
abbrev Result := Host.Outcome State Fault Refusal

/-! ## The program counter (R24) -/

/-- pc <- v. -/
def State.setPc (s : State) (v : Pc) : State := { s with pc := v }

/-- pc <- pc + 1. -/
def State.advance (s : State) : State := s.setPc (s.pc + 1)

/-- pc <- zext_9(tgt) (R64). -/
def State.jump (s : State) (tgt : BitVec 8) : State := s.setPc (tgt.setWidth 9)

/-- The branch is taken, or the pc advances. -/
def State.branch (s : State) (taken : Bool) (tgt : BitVec 8) : State :=
  if taken then s.jump tgt else s.advance

/-! ## Fetch (R70, R48) -/

/-- IMEM[pc], or a free draw where nothing has been written since reset; the state counts the draw. -/
def State.fetch (s : State) : Word × State :=
  match Mem.get? s.imem s.pc.toNat with
  | some w => (w, s)
  | none => (Config.freeWord s.draws, { s with draws := s.draws + 1 })

/-! ## DMEM (R43 to R46) -/

/-- An access of `n` bytes at `ea` is in bounds iff `ea + n ≤ DMEM_BYTES` (R46). -/
def inBounds (ea n : Nat) : Bool := ea + n ≤ Config.dmemBytes

/-- `MemRead(addr, n)`: the big-endian value of `n` bytes, and the state that counts the draws made for
bytes never written (R43, R48). -/
def State.memRead (s : State) (addr n : Nat) : Nat × State :=
  let r := Mem.readBytes s.dmem addr s.draws n
  (natOfBytes r.1, { s with draws := r.2 })

/-- `MemWrite(addr, n, v)`: byte 0 of `v`, the most significant, at `addr` (R44). -/
def State.memWrite (s : State) (addr n v : Nat) : State :=
  { s with dmem := Mem.setAll s.dmem addr (bytesBE n v) }

/-! ## The ends of a run and the start of one -/

/-- Stop Done (R73): BUSY 0, DONE 1, FPC the pc, FINSN the HALT word; the pc stays. -/
def State.stopDone (s : State) (w : Word) : State :=
  { s with
    status := { s.status with busy := false, done := true }
    fpc := s.pc
    finsn := w }

/-- Taking a fault (R151): nothing of the program's state changes; BUSY 0, FAULT 1, CAUSE the cause,
FPC the pc, FINSN the word (0 for FETCH). The core stops; control goes nowhere (R153). -/
def State.raise (s : State) (c : Cause) (w : Word) : State :=
  { s with
    status := { s.status with busy := false, fault := true, cause := c }
    fpc := s.pc
    finsn := w }

/-- START (R30): DONE, FAULT and CAUSE cleared, pc the ENTRY, BUSY 1. There is no return from a fault;
a new START is how the host resumes (R154). -/
def State.start (s : State) (ie : Bool) (entry : BitVec 8) : State :=
  { s with
    ctrl := { ie := ie, entry := entry }
    status := { s.status with busy := true, done := false, fault := false, cause := .none }
    pc := entry.setWidth 9 }

/-- The interrupt output: `irq = CTRL.IE ∧ (STATUS.DONE ∨ STATUS.FAULT)` (R156). -/
def State.irq (s : State) : Bool := s.ctrl.ie && (s.status.done || s.status.fault)

end Sys2Proof.Machine
end

