-- ==== Sys2Proof/Machine/Cipher.lean ====
section
/-! DEFINITION. The block-cipher unit: KEXP, ENC, DEC, SBOX, LDIF and LKEY (spec/45_cipher.md R128 to
R141). Cipher values stand in the low 128 bits of a big register. -/

namespace Sys2Proof.Machine

/-- The S-box table (R128): entry = high nibble of the input byte; in a row, column 0 is the most
significant byte. -/
def sboxRows : List Block := [
  0xD690E9FECCE13DB716B614C228FB2C05, 0x2B679A762ABE04C3AA44132649860699,
  0x9C4250F491EF987A33540B43EDCFAC62, 0xE4B31CA9C908E89580DF94FA758F3FA6,
  0x4707A7FCF37317BA83593C19E6854FA8, 0x686B81B27164DA8BF8EB0F4B70569D35,
  0x1E240E5E6358D1A225227C3B01217887, 0xD40046579FD327524C3602E7A0C4C89E,
  0xEABF8AD240C738B5A3F7F2CEF96115A1, 0xE0AE5DA49B341A55AD933230F58CB1E3,
  0x1DF6E22E8266CA60C02923AB0D534E6F, 0xD5DB3745DEFD8E2F03FF6A726D6C5B51,
  0x8D1BAF92BBDDBC7F11D95C411F105AD8, 0x0AC13188A5CD7BBD2D74D012B8E5B4B0,
  0x8969974A0C96777E65B9F109C56EC684, 0x18F07DEC3ADC4D2079EE5F3ED7CB3948]

/-- The S-box (R128): row = high nibble, column = low nibble. -/
def sbox (x : Byte) : Byte :=
  (sboxRows.getD (x.toNat / 16) 0).extractLsb' (120 - 8 * (x.toNat % 16)) 8

/-- The substitution layer τ (R131). -/
def tau (w : Word) : Word :=
  joinBytes (sbox (byteOf w 0)) (sbox (byteOf w 1)) (sbox (byteOf w 2)) (sbox (byteOf w 3))

/-- The round diffusion L (R132). -/
def diffuse (x : Word) : Word := x ^^^ rotl x 2 ^^^ rotl x 10 ^^^ rotl x 18 ^^^ rotl x 24

/-- The key-schedule diffusion L' (R133). -/
def diffuseKey (x : Word) : Word := x ^^^ rotl x 13 ^^^ rotl x 23

/-- The round function T = L ∘ τ (R132). -/
def roundT (x : Word) : Word := diffuse (tau x)

/-- The key-schedule function T' = L' ∘ τ (R133). -/
def keyT (x : Word) : Word := diffuseKey (tau x)

/-- The system constants FK[0..3] (R129). -/
def cipherFK : Block := 0xA3B1BAC656AA3350677D9197B27022DC#128

/-- The round constant CK[i]: byte j is `(4i + j)·7 mod 256` (R130). -/
def cipherCK (i : Nat) : Word :=
  joinBytes (BitVec.ofNat 8 ((4 * i) * 7)) (BitVec.ofNat 8 ((4 * i + 1) * 7))
    (BitVec.ofNat 8 ((4 * i + 2) * 7)) (BitVec.ofNat 8 ((4 * i + 3) * 7))

/-- Four consecutive words of a recurrence, the oldest first. -/
structure Quad where
  x0 : Word
  x1 : Word
  x2 : Word
  x3 : Word
  deriving DecidableEq, Repr

/-- The four words of a 128-bit value (R13). -/
def Quad.load (v : Block) : Quad := ⟨blockWord v 0, blockWord v 1, blockWord v 2, blockWord v 3⟩

/-- One step of a recurrence `x[i+4] = x[i] ⊕ f(x[i+1] ⊕ x[i+2] ⊕ x[i+3] ⊕ k)`. -/
def Quad.next (f : Word → Word) (k : Word) (q : Quad) : Quad :=
  ⟨q.x1, q.x2, q.x3, q.x0 ^^^ f (q.x1 ^^^ q.x2 ^^^ q.x3 ^^^ k)⟩

/-- `k[n] .. k[n+3]` of the key recurrence (R135). -/
def keyQuad (key : Block) : Nat → Quad
  | 0 => Quad.load (key ^^^ cipherFK)
  | i + 1 => (keyQuad key i).next keyT (cipherCK i)

/-- The 32 round keys: RK[i] = k[i+4] (R135). -/
def expandKey (key : Block) : Vector Word 32 := Vector.ofFn fun i => (keyQuad key (i.val + 1)).x3

/-- The words of the cipher recurrence under the round keys in the order given (R136). -/
def cipherRounds (keys : List Word) (q : Quad) : Quad := keys.foldl (fun q k => q.next roundT k) q

/-- One block under the round keys in the order given, written in reverse word order (R136). -/
def cipherBlock (keys : List Word) (x : Block) : Block :=
  let q := cipherRounds keys (Quad.load x)
  joinBlock q.x3 q.x2 q.x1 q.x0

/-- KEXP Bs (R135): bits 255:128 are ignored. -/
def execKexp (rs1 : BReg) (s : State) : Result :=
  .next (s.setRks (expandKey (lowBlock (s.getB rs1)))).advance

/-- ENC Bd, Bs (R136): RK as it stands. -/
def execEnc (rd rs1 : BReg) (s : State) : Result :=
  .next (s.setB rd (zextBlock (cipherBlock s.rk.toList (lowBlock (s.getB rs1))))).advance

/-- DEC Bd, Bs (R137): the round keys in reverse order. -/
def execDec (rd rs1 : BReg) (s : State) : Result :=
  .next (s.setB rd (zextBlock (cipherBlock s.rk.toList.reverse (lowBlock (s.getB rs1))))).advance

/-- SBOX Bd, Bs (R138): τ on all eight words. -/
def execSbox (rd rs1 : BReg) (s : State) : Result :=
  .next (s.setB rd (lanes tau (s.getB rs1))).advance

/-- LDIF Bd, Bs (R139). -/
def execLdif (rd rs1 : BReg) (s : State) : Result :=
  .next (s.setB rd (lanes diffuse (s.getB rs1))).advance

/-- LKEY Bd, Bs (R140). -/
def execLkey (rd rs1 : BReg) (s : State) : Result :=
  .next (s.setB rd (lanes diffuseKey (s.getB rs1))).advance

end Sys2Proof.Machine
end

