-- ==== Sys2Proof/Machine/Control.lean ====
section
/-! DEFINITION. The sequencer's instructions: NOP, HALT, JMP, BZ, BNZ, BT, BNT, DBRA, LI, ADDI and BTST
(spec/40_control.md R72 to R82). -/

namespace Sys2Proof.Machine

/-- NOP (R72). -/
def execNop (s : State) : Result := .next s.advance

/-- HALT (R73). -/
def execHalt (s : State) : Result := .next (s.stopDone (encode .halt))

/-- JMP tgt (R74). -/
def execJmp (tgt : BitVec 8) (s : State) : Result := .next (s.jump tgt)

/-- BZ tgt (R75). -/
def execBz (tgt : BitVec 8) (s : State) : Result := .next (s.branch s.zFlag tgt)

/-- BNZ tgt (R76). -/
def execBnz (tgt : BitVec 8) (s : State) : Result := .next (s.branch (!s.zFlag) tgt)

/-- BT tgt (R77). -/
def execBt (tgt : BitVec 8) (s : State) : Result := .next (s.branch s.tFlag tgt)

/-- BNT tgt (R78). -/
def execBnt (tgt : BitVec 8) (s : State) : Result := .next (s.branch (!s.tFlag) tgt)

/-- DBRA Ik, tgt (R79): decrement, then branch unless the result is 0xFFFF. -/
def execDbra (ix : IReg) (tgt : BitVec 8) (s : State) : Result :=
  let v := s.getI ix - 1
  .next ((s.setI ix v).branch (v != 0xFFFF#16) tgt)

/-- LI Ik, imm16 (R80). -/
def execLi (ix : IReg) (imm : BitVec 16) (s : State) : Result := .next (s.setI ix imm).advance

/-- ADDI Ik, imm16 (R81): modulo 2^16, no flag. -/
def execAddi (ix : IReg) (imm : BitVec 16) (s : State) : Result :=
  .next (s.setI ix (s.getI ix + imm)).advance

/-- The bit BTST tests: index `I[ix][7:0]` (R82). -/
def bitIndex (k : Half) : Nat := (k.extractLsb' 0 8).toNat

/-- BTST Bs, Ik (R82). -/
def execBtst (rs1 : BReg) (ix : IReg) (s : State) : Result :=
  .next (s.setT ((s.getB rs1).getLsbD (bitIndex (s.getI ix)))).advance

end Sys2Proof.Machine
end

