-- ==== Sys2Proof/Machine/Curve.lean ====
section
/-! DEFINITION. The curve domain, the Montgomery constants and the arithmetic modulo P and N
(spec/43_point.md R103, spec/42_modular.md R91 to R94, spec/00_scope.md R16). Values are unsigned
integers; a field element is a natural number below P. -/

namespace Sys2Proof.Machine

/-! ## Constants (R103, R91) -/

/-- The curve prime P. -/
def curveP : Nat := 0xFFFFFFFEFFFFFFFFFFFFFFFFFFFFFFFFFFFFFFFF00000000FFFFFFFFFFFFFFFF
/-- The group order N. -/
def curveN : Nat := 0xFFFFFFFEFFFFFFFFFFFFFFFFFFFFFFFF7203DF6B21C6052B53BBF40939D54123
/-- The coefficient a = P − 3. -/
def curveA : Nat := 0xFFFFFFFEFFFFFFFFFFFFFFFFFFFFFFFFFFFFFFFF00000000FFFFFFFFFFFFFFFC
/-- The coefficient b. -/
def curveB : Nat := 0x28E9FA9E9D9F5E344D5A9E4BCF6509A7F39789F515AB8F92DDBCBD414D940E93
/-- The generator's x-coordinate. -/
def curveGx : Nat := 0x32C4AE2C1F1981195F9904466A39C9948FE30BBFF2660BE1715A4589334C74C7
/-- The generator's y-coordinate. -/
def curveGy : Nat := 0xBC3736A2F4F6779C59BDCEE36B692153D0A9877CC62A474002DF32E52139F0A0
/-- The Montgomery radix R = 2^256. -/
def montR : Nat := 2 ^ 256
/-- RP = R mod P. -/
def rModP : Nat := 0x0000000100000000000000000000000000000000FFFFFFFF0000000000000001
/-- RN = R mod N. -/
def rModN : Nat := 0x000000010000000000000000000000008DFC2094DE39FAD4AC440BF6C62ABEDD
/-- R2P = R² mod P. -/
def r2ModP : Nat := 0x0000000400000002000000010000000100000002FFFFFFFF0000000200000003
/-- R2N = R² mod N. -/
def r2ModN : Nat := 0x1EB5E412A22B3D3B620FC84C3AFFE0D43464504ADE6FA2FA901192AF7C114F20
/-- R⁻¹ mod P. -/
def rInvP : Nat := 0xFFFFFFFB00000005FFFFFFFC00000002FFFFFFFD00000006FFFFFFF900000004
/-- R⁻¹ mod N. -/
def rInvN : Nat := 0x6F39132F13ABB48CA81BA1178588D900F0E551783F95FA1213E93C0567B935EA

/-- The modulus the `m` bit selects (R62). -/
def modulusValue : Modulus → Nat
  | .p => curveP
  | .n => curveN

/-- R⁻¹ modulo the selected modulus (R16). -/
def radixInverse : Modulus → Nat
  | .p => rInvP
  | .n => rInvN

/-! ## Arithmetic modulo M (R14, R93): exact, then reduced to [0, M−1] -/

/-- `(a + b) mod M`. -/
def modAdd (M a b : Nat) : Nat := (a + b) % M
/-- `(a − b) mod M`, the mathematical remainder, for b ≤ M. -/
def modSub (M a b : Nat) : Nat := (a + (M - b)) % M
/-- `(a · b) mod M`. -/
def modMul (M a b : Nat) : Nat := a * b % M
/-- `mont(x) = x · R mod M` (R16). -/
def mont (m : Modulus) (x : Nat) : Nat := x * montR % modulusValue m
/-- `unmont(a) = a · R⁻¹ mod M` (R16). -/
def unmont (m : Modulus) (a : Nat) : Nat := a * radixInverse m % modulusValue m
/-- `(a · b · R⁻¹) mod M` (R97). -/
def montMul (m : Modulus) (a b : Nat) : Nat := a * b * radixInverse m % modulusValue m

/-- Euclid's algorithm with one cofactor: each remainder is its cofactor times `a` modulo `M`. -/
def euclid (M : Nat) : Nat → Nat → Nat → Nat → Nat → Nat
  | 0, _, s0, _, _ => s0
  | fuel + 1, r0, s0, r1, s1 =>
    if r1 = 0 then s0
    else euclid M fuel r1 s1 (r0 % r1) ((s0 + r0 / r1 * (M - s1)) % M)

/-- The inverse of `a` modulo the prime `M`, in [0, M−1]; 0 for 0. Only its value is architectural
(R94). Two steps of Euclid halve the remainder, so 520 are enough for 256 bits. -/
def modInv (M a : Nat) : Nat := euclid M 520 M 0 a 1

/-- `(R² · a⁻¹) mod M`, and 0 for a = 0 (R98). -/
def montInv (m : Modulus) (a : Nat) : Nat :=
  if a = 0 then 0 else montR * montR * modInv (modulusValue m) a % modulusValue m

/-! ## F_P (R16, 43_point.md §3) -/

/-- Field addition. -/
def fadd (x y : Nat) : Nat := modAdd curveP x y
/-- Field subtraction. -/
def fsub (x y : Nat) : Nat := modSub curveP x y
/-- Field multiplication. -/
def fmul (x y : Nat) : Nat := modMul curveP x y
/-- Field squaring. -/
def fsq (x : Nat) : Nat := fmul x x

/-- The value of constant number `cid` (R85); 12..15 are reserved and have none. -/
def constValue : ConstId → Option Nat
  | 0 => some 0
  | 1 => some 1
  | 2 => some curveP
  | 3 => some curveN
  | 4 => some curveA
  | 5 => some curveB
  | 6 => some curveGx
  | 7 => some curveGy
  | 8 => some rModP
  | 9 => some rModN
  | 10 => some r2ModP
  | 11 => some r2ModN
  | _ => none

end Sys2Proof.Machine
end

