-- ==== Sys2Proof/Machine/DataMove.lean ====
section
/-! DEFINITION. Data movement: MOV, CONST, LDW, STW, LDQ and STQ (spec/41_data_movement.md R83 to R90). -/

namespace Sys2Proof.Machine

/-- The loads: bounds check, then `B[rd] <- zext_256(MemRead(EA, n))` (R87, R89). -/
def loadBytes (n : Nat) (i : Instr) (rd : BReg) (ea : Nat) (s : State) : Result :=
  if inBounds ea n then
    let r := s.memRead ea n
    .next (r.2.setB rd (BitVec.ofNat 256 r.1)).advance
  else .next (s.raise .daddr (encode i))

/-- The stores: bounds check, then `MemWrite(EA, n, v)` of the low `n` bytes of `v` (R88, R90). -/
def storeBytes (n : Nat) (i : Instr) (v ea : Nat) (s : State) : Result :=
  if inBounds ea n then .next (s.memWrite ea n v).advance
  else .next (s.raise .daddr (encode i))

/-- MOV Bd, Bs (R84). -/
def execMov (rd rs1 : BReg) (s : State) : Result := .next (s.setB rd (s.getB rs1)).advance

/-- CONST Bd, cid (R86). A reserved number is ILLEGAL; the decoder refuses it before this (R66). -/
def execConst (rd : BReg) (cid : ConstId) (s : State) : Result :=
  match constValue cid with
  | some v => .next (s.setB rd (BitVec.ofNat 256 v)).advance
  | none => .next (s.raise .illegal (encode (.const rd cid)))

/-- LDW Bd, imm12(Ik) (R87). -/
def execLdw (rd : BReg) (imm : BitVec 12) (ix : IReg) (s : State) : Result :=
  loadBytes 32 (.ldw rd imm ix) rd (s.ea imm ix) s

/-- STW Bs, imm12(Ik) (R88). -/
def execStw (rd : BReg) (imm : BitVec 12) (ix : IReg) (s : State) : Result :=
  storeBytes 32 (.stw rd imm ix) (s.getBNat rd) (s.ea imm ix) s

/-- LDQ Bd, imm12(Ik) (R89): bits 255:128 become 0. -/
def execLdq (rd : BReg) (imm : BitVec 12) (ix : IReg) (s : State) : Result :=
  loadBytes 16 (.ldq rd imm ix) rd (s.ea imm ix) s

/-- STQ Bs, imm12(Ik) (R90): bits 127:0 only. -/
def execStq (rd : BReg) (imm : BitVec 12) (ix : IReg) (s : State) : Result :=
  storeBytes 16 (.stq rd imm ix) (lowBlock (s.getB rd)).toNat (s.ea imm ix) s

end Sys2Proof.Machine
end

