-- ==== Sys2Proof/Machine/Hash.lean ====
section
/-! DEFINITION. The hash-compression round engine: HINIT, HSET, HGET, HCOMP, HP0 and HP1
(spec/44_hash.md R114 to R125). -/

namespace Sys2Proof.Machine

/-- The initial value, IV[0] most significant (R114). -/
def hashIV : Big := 0x7380166F4914B2B9172442D7DA8A0600A96F30BC163138AAE38DEE4DB0FB0E4E#256

/-- The round constant of round `j` before its rotation (R115). -/
def hashT (j : Nat) : Word := if j < 16 then 0x79CC4519#32 else 0x7A879D8A#32

/-- FF_j (R116). -/
def hashFF (j : Nat) (x y z : Word) : Word :=
  if j < 16 then x ^^^ y ^^^ z else (x &&& y) ||| (x &&& z) ||| (y &&& z)

/-- GG_j (R116). -/
def hashGG (j : Nat) (x y z : Word) : Word :=
  if j < 16 then x ^^^ y ^^^ z else (x &&& y) ||| (~~~x &&& z)

/-- P0 (R117). -/
def hashP0 (x : Word) : Word := x ^^^ rotl x 9 ^^^ rotl x 17

/-- P1 (R117). -/
def hashP1 (x : Word) : Word := x ^^^ rotl x 15 ^^^ rotl x 23

/-- The 16 words of the block `first ‖ second`, the newest (W[15]) first. -/
def blockWordsRev (first second : Big) : List Word :=
  [wordOf second 7, wordOf second 6, wordOf second 5, wordOf second 4,
   wordOf second 3, wordOf second 2, wordOf second 1, wordOf second 0,
   wordOf first 7, wordOf first 6, wordOf first 5, wordOf first 4,
   wordOf first 3, wordOf first 2, wordOf first 1, wordOf first 0]

/-- The next expanded word from the words so far, newest first: `W[i-k]` is entry `k-1` (R118). -/
def nextWord (ws : List Word) : Word :=
  hashP1 (ws.getD 15 0 ^^^ ws.getD 8 0 ^^^ rotl (ws.getD 2 0) 15) ^^^ rotl (ws.getD 12 0) 7 ^^^ ws.getD 5 0

/-- The first `16 + n` expanded words, newest first (R118). -/
def expandRev (first second : Big) : Nat → List Word
  | 0 => blockWordsRev first second
  | n + 1 => let ws := expandRev first second n; nextWord ws :: ws

/-- The 68 expanded words W[0..67] (R118). -/
def expandedWords (first second : Big) : List Word := (expandRev first second 52).reverse

/-- The eight working registers A..H (R119). -/
structure HashRegs where
  a : Word
  b : Word
  c : Word
  d : Word
  e : Word
  f : Word
  g : Word
  h : Word
  deriving DecidableEq, Repr

/-- The registers loaded from V[0..7] (R119). -/
def HashRegs.load (v : Big) : HashRegs :=
  ⟨wordOf v 0, wordOf v 1, wordOf v 2, wordOf v 3, wordOf v 4, wordOf v 5, wordOf v 6, wordOf v 7⟩

/-- The registers as one value. -/
def HashRegs.join (r : HashRegs) : Big := joinWords r.a r.b r.c r.d r.e r.f r.g r.h

/-- Round `j` with `w = W[j]` and `w' = W'[j]` (R119). -/
def hashRound (j : Nat) (w w' : Word) (r : HashRegs) : HashRegs :=
  let ss1 := rotl (rotl r.a 12 + r.e + rotl (hashT j) j) 7
  let ss2 := ss1 ^^^ rotl r.a 12
  let tt1 := hashFF j r.a r.b r.c + r.d + ss2 + w'
  let tt2 := hashGG j r.e r.f r.g + r.h + ss1 + w
  ⟨tt1, r.a, rotl r.b 9, r.c, hashP0 tt2, r.e, rotl r.f 19, r.g⟩

/-- The registers after the first `n` rounds; `W'[j] = W[j] ⊕ W[j+4]` (R118). -/
def hashRounds (ws : List Word) (r : HashRegs) : Nat → HashRegs
  | 0 => r
  | j + 1 =>
    hashRound j (ws.getD j 0) (ws.getD j 0 ^^^ ws.getD (j + 4) 0) (hashRounds ws r j)

/-- The compression function CF(V, first ‖ second) (R119). -/
def compress (v first second : Big) : Big :=
  (hashRounds (expandedWords first second) (HashRegs.load v) 64).join ^^^ v

/-- HINIT (R120). -/
def execHinit (s : State) : Result := .next (s.setH hashIV).advance

/-- HSET Bs (R121). -/
def execHset (rs1 : BReg) (s : State) : Result := .next (s.setH (s.getB rs1)).advance

/-- HGET Bd (R122). -/
def execHget (rd : BReg) (s : State) : Result := .next (s.setB rd s.hash).advance

/-- HCOMP Ba, Bb (R123): the block is `B[rs1] ‖ B[rs2]`. -/
def execHcomp (rs1 rs2 : BReg) (s : State) : Result :=
  .next (s.setH (compress s.hash (s.getB rs1) (s.getB rs2))).advance

/-- HP0 Bd, Bs (R124). -/
def execHp0 (rd rs1 : BReg) (s : State) : Result :=
  .next (s.setB rd (lanes hashP0 (s.getB rs1))).advance

/-- HP1 Bd, Bs (R125). -/
def execHp1 (rd rs1 : BReg) (s : State) : Result :=
  .next (s.setB rd (lanes hashP1 (s.getB rs1))).advance

end Sys2Proof.Machine
end

