-- ==== Sys2Proof/Machine/Modular.lean ====
section
/-! DEFINITION. The modular unit: MADD, MSUB, MMUL, MINV, MRED, TOM, FROMM and RCHK
(spec/42_modular.md R92 to R102). -/

namespace Sys2Proof.Machine

/-- An operand is in range for the modulus iff it is below it (R92). -/
def inRange (m : Modulus) (v : Nat) : Bool := v < modulusValue m

/-- A modular result: `B[rd] <- r; Z <- (r == 0); pc <- pc + 1` (R93). -/
def State.putModular (s : State) (rd : BReg) (r : Nat) : State :=
  ((s.setB rd (BitVec.ofNat 256 r)).setZ (zeroFlag r)).advance

/-- Write the result if the operands are in range, raise RANGE with no effect if not (R92). -/
def modularResult (ok : Bool) (i : Instr) (rd : BReg) (r : Nat) (s : State) : Result :=
  if ok then .next (s.putModular rd r) else .next (s.raise .range (encode i))

/-- MADD Bd, Ba, Bb, M (R95). -/
def execMadd (rd rs1 rs2 : BReg) (m : Modulus) (s : State) : Result :=
  let a := s.getBNat rs1
  let b := s.getBNat rs2
  modularResult (inRange m a && inRange m b) (.madd rd rs1 rs2 m) rd (modAdd (modulusValue m) a b) s

/-- MSUB Bd, Ba, Bb, M (R96). -/
def execMsub (rd rs1 rs2 : BReg) (m : Modulus) (s : State) : Result :=
  let a := s.getBNat rs1
  let b := s.getBNat rs2
  modularResult (inRange m a && inRange m b) (.msub rd rs1 rs2 m) rd (modSub (modulusValue m) a b) s

/-- MMUL Bd, Ba, Bb, M (R97): the Montgomery product. -/
def execMmul (rd rs1 rs2 : BReg) (m : Modulus) (s : State) : Result :=
  let a := s.getBNat rs1
  let b := s.getBNat rs2
  modularResult (inRange m a && inRange m b) (.mmul rd rs1 rs2 m) rd (montMul m a b) s

/-- MINV Bd, Ba, M (R98): the inverse in the Montgomery domain; the inverse of 0 is 0. -/
def execMinv (rd rs1 : BReg) (m : Modulus) (s : State) : Result :=
  let a := s.getBNat rs1
  modularResult (inRange m a) (.minv rd rs1 m) rd (montInv m a) s

/-- MRED Bd, Ba, M (R99): any input. -/
def execMred (rd rs1 : BReg) (m : Modulus) (s : State) : Result :=
  .next (s.putModular rd (s.getBNat rs1 % modulusValue m))

/-- TOM Bd, Ba, M (R100). -/
def execTom (rd rs1 : BReg) (m : Modulus) (s : State) : Result :=
  let a := s.getBNat rs1
  modularResult (inRange m a) (.tom rd rs1 m) rd (mont m a) s

/-- FROMM Bd, Ba, M (R101). -/
def execFromm (rd rs1 : BReg) (m : Modulus) (s : State) : Result :=
  let a := s.getBNat rs1
  modularResult (inRange m a) (.fromm rd rs1 m) rd (unmont m a) s

/-- RCHK Ba, M (R102): `T <- (0 < B[rs1] and B[rs1] < M)`, for any input. -/
def execRchk (rs1 : BReg) (m : Modulus) (s : State) : Result :=
  let a := s.getBNat rs1
  .next (s.setT (decide (0 < a) && inRange m a)).advance

end Sys2Proof.Machine
end

