-- ==== Sys2Proof/Machine/Point.lean ====
section
/-! DEFINITION. The point unit: PGEN, PDBL, PADD and PCHK (spec/43_point.md R104 to R111). A slot holds
Jacobian coordinates in Montgomery form modulo P (R104). -/

namespace Sys2Proof.Machine

/-- Jacobian coordinates over F_P (R104). -/
structure Jacobian where
  x : Nat
  y : Nat
  z : Nat
  deriving DecidableEq, Repr

/-- The result of a point instruction: the point at infinity O, or one exact finite triple. -/
inductive PointResult
  | infinity
  | triple (q : Jacobian)
  deriving DecidableEq, Repr

/-- Every coordinate register of slot `k` is below P (R106). -/
def State.slotInRange (s : State) (k : Slot) : Bool :=
  inRange .p (s.getBNat (slotX k)) && inRange .p (s.getBNat (slotY k)) && inRange .p (s.getBNat (slotZ k))

/-- `dec` of each coordinate of slot `k`. -/
def State.slotPoint (s : State) (k : Slot) : Jacobian where
  x := unmont .p (s.getBNat (slotX k))
  y := unmont .p (s.getBNat (slotY k))
  z := unmont .p (s.getBNat (slotZ k))

/-- `enc` of a field element, as a register value. -/
def encCoord (x : Nat) : Big := BitVec.ofNat 256 (mont .p x)

/-- Write a result to slot `k`: O as (RP, RP, 0) (R105), a finite triple as `enc` of each coordinate. -/
def State.putPoint (s : State) (k : Slot) : PointResult → State
  | .infinity => s.setSlot k (BitVec.ofNat 256 rModP) (BitVec.ofNat 256 rModP) 0
  | .triple q => s.setSlot k (encCoord q.x) (encCoord q.y) (encCoord q.z)

/-- Doubling, for a = −3 (R109). -/
def pointDouble (q : Jacobian) : PointResult :=
  if q.z = 0 then .infinity
  else
    let delta := fsq q.z
    let gamma := fsq q.y
    let beta := fmul q.x gamma
    let alpha := fmul 3 (fmul (fsub q.x delta) (fadd q.x delta))
    let x3 := fsub (fsq alpha) (fmul 8 beta)
    let z3 := fsub (fsub (fsq (fadd q.y q.z)) gamma) delta
    let y3 := fsub (fmul alpha (fsub (fmul 4 beta) x3)) (fmul 8 (fsq gamma))
    if z3 = 0 then .infinity else .triple ⟨x3, y3, z3⟩

/-- Addition (R110), with the pass-through, doubling and opposite cases. -/
def pointAdd (p q : Jacobian) : PointResult :=
  if p.z = 0 then
    if q.z = 0 then .infinity else .triple q
  else if q.z = 0 then .triple p
  else
    let z1z1 := fsq p.z
    let z2z2 := fsq q.z
    let u1 := fmul p.x z2z2
    let u2 := fmul q.x z1z1
    let s1 := fmul (fmul p.y q.z) z2z2
    let s2 := fmul (fmul q.y p.z) z1z1
    let h := fsub u2 u1
    let r := fmul 2 (fsub s2 s1)
    if h = 0 then
      if r = 0 then pointDouble p else .infinity
    else
      let i := fsq (fmul 2 h)
      let j := fmul h i
      let v := fmul u1 i
      let x3 := fsub (fsub (fsq r) j) (fmul 2 v)
      let y3 := fsub (fmul r (fsub v x3)) (fmul 2 (fmul s1 j))
      let z3 := fmul (fsub (fsub (fsq (fadd p.z q.z)) z1z1) z2z2) h
      .triple ⟨x3, y3, z3⟩

/-- `(Z ≠ 0) and (Y² = X³ + a·X·Z⁴ + b·Z⁶)` in F_P (R111). -/
def onCurve (q : Jacobian) : Bool :=
  let zz := fsq q.z
  let z4 := fsq zz
  let z6 := fmul z4 zz
  let rhs := fadd (fadd (fmul (fsq q.x) q.x) (fmul (fmul curveA q.x) z4)) (fmul curveB z6)
  q.z != 0 && fsq q.y == rhs

/-- PGEN Sd (R108). -/
def execPgen (sd : Slot) (s : State) : Result :=
  .next (s.putPoint sd (.triple ⟨curveGx, curveGy, 1⟩)).advance

/-- PDBL Sd, Sa (R109). -/
def execPdbl (sd ss1 : Slot) (s : State) : Result :=
  if s.slotInRange ss1 then .next (s.putPoint sd (pointDouble (s.slotPoint ss1))).advance
  else .next (s.raise .range (encode (.pdbl sd ss1)))

/-- PADD Sd, Sa, Sb (R110). -/
def execPadd (sd ss1 ss2 : Slot) (s : State) : Result :=
  if s.slotInRange ss1 && s.slotInRange ss2 then
    .next (s.putPoint sd (pointAdd (s.slotPoint ss1) (s.slotPoint ss2))).advance
  else .next (s.raise .range (encode (.padd sd ss1 ss2)))

/-- PCHK Sa (R111). -/
def execPchk (ss1 : Slot) (s : State) : Result :=
  if s.slotInRange ss1 then .next (s.setT (onCurve (s.slotPoint ss1))).advance
  else .next (s.raise .range (encode (.pchk ss1)))

end Sys2Proof.Machine
end

