-- ==== Sys2Proof/Machine/Dispatch.lean ====
section
/-! DEFINITION. The meaning of each instruction: one arm per constructor. -/

namespace Sys2Proof.Machine

def exec (i : Instr) (s : State) : Host.Outcome State Fault Refusal :=
  match i with
  | .nop => Sys2Proof.Machine.execNop s
  | .halt => Sys2Proof.Machine.execHalt s
  | .jmp tgt => Sys2Proof.Machine.execJmp tgt s
  | .bz tgt => Sys2Proof.Machine.execBz tgt s
  | .bnz tgt => Sys2Proof.Machine.execBnz tgt s
  | .bt tgt => Sys2Proof.Machine.execBt tgt s
  | .bnt tgt => Sys2Proof.Machine.execBnt tgt s
  | .dbra ix tgt => Sys2Proof.Machine.execDbra ix tgt s
  | .li ix imm => Sys2Proof.Machine.execLi ix imm s
  | .addi ix imm => Sys2Proof.Machine.execAddi ix imm s
  | .btst rs1 ix => Sys2Proof.Machine.execBtst rs1 ix s
  | .mov rd rs1 => Sys2Proof.Machine.execMov rd rs1 s
  | .const rd cid => Sys2Proof.Machine.execConst rd cid s
  | .ldw rd imm ix => Sys2Proof.Machine.execLdw rd imm ix s
  | .stw rd imm ix => Sys2Proof.Machine.execStw rd imm ix s
  | .ldq rd imm ix => Sys2Proof.Machine.execLdq rd imm ix s
  | .stq rd imm ix => Sys2Proof.Machine.execStq rd imm ix s
  | .madd rd rs1 rs2 m => Sys2Proof.Machine.execMadd rd rs1 rs2 m s
  | .msub rd rs1 rs2 m => Sys2Proof.Machine.execMsub rd rs1 rs2 m s
  | .mmul rd rs1 rs2 m => Sys2Proof.Machine.execMmul rd rs1 rs2 m s
  | .minv rd rs1 m => Sys2Proof.Machine.execMinv rd rs1 m s
  | .mred rd rs1 m => Sys2Proof.Machine.execMred rd rs1 m s
  | .tom rd rs1 m => Sys2Proof.Machine.execTom rd rs1 m s
  | .fromm rd rs1 m => Sys2Proof.Machine.execFromm rd rs1 m s
  | .rchk rs1 m => Sys2Proof.Machine.execRchk rs1 m s
  | .pgen sd => Sys2Proof.Machine.execPgen sd s
  | .pdbl sd ss1 => Sys2Proof.Machine.execPdbl sd ss1 s
  | .padd sd ss1 ss2 => Sys2Proof.Machine.execPadd sd ss1 ss2 s
  | .pchk ss1 => Sys2Proof.Machine.execPchk ss1 s
  | .hinit => Sys2Proof.Machine.execHinit s
  | .hset rs1 => Sys2Proof.Machine.execHset rs1 s
  | .hget rd => Sys2Proof.Machine.execHget rd s
  | .hcomp rs1 rs2 => Sys2Proof.Machine.execHcomp rs1 rs2 s
  | .hp0 rd rs1 => Sys2Proof.Machine.execHp0 rd rs1 s
  | .hp1 rd rs1 => Sys2Proof.Machine.execHp1 rd rs1 s
  | .kexp rs1 => Sys2Proof.Machine.execKexp rs1 s
  | .enc rd rs1 => Sys2Proof.Machine.execEnc rd rs1 s
  | .dec rd rs1 => Sys2Proof.Machine.execDec rd rs1 s
  | .sbox rd rs1 => Sys2Proof.Machine.execSbox rd rs1 s
  | .ldif rd rs1 => Sys2Proof.Machine.execLdif rd rs1 s
  | .lkey rd rs1 => Sys2Proof.Machine.execLkey rd rs1 s

end Sys2Proof.Machine
end

