-- ==== Sys2Proof/Machine/Window.lean ====
section
/-! DEFINITION. The host window: its map, its reads and its writes, while Idle and while Running
(spec/10_state.md R28 to R36, spec/20_memory.md R51 to R54). -/

namespace Sys2Proof.Machine

/-- What a window word is (R36). -/
inductive WindowWord
  | id
  | ctrl
  | status
  | fpc
  | finsn
  | flags
  | index (k : IReg)
  | big (r : BReg) (j : Fin 8)
  | hash (j : Fin 8)
  | roundKey (i : Fin 32)
  | imem (a : Fin 256)
  | dmem (w : Fin 1024)
  | reserved
  deriving DecidableEq, Repr

/-- The window word of word index `w`, offset[12:2] (R36, R51). -/
def windowMap (w : Nat) : WindowWord :=
  if w = 0 then .id
  else if w = 1 then .ctrl
  else if w = 2 then .status
  else if w = 3 then .fpc
  else if w = 4 then .finsn
  else if w = 5 then .flags
  else if h : 8 ≤ w ∧ w < 12 then .index ⟨w - 8, by omega⟩
  else if h : 64 ≤ w ∧ w < 192 then .big ⟨(w - 64) / 8, by omega⟩ ⟨(w - 64) % 8, by omega⟩
  else if h : 192 ≤ w ∧ w < 200 then .hash ⟨w - 192, by omega⟩
  else if h : 224 ≤ w ∧ w < 256 then .roundKey ⟨w - 224, by omega⟩
  else if h : 256 ≤ w ∧ w < 512 then .imem ⟨w - 256, by omega⟩
  else if h : 1024 ≤ w ∧ w < 2048 then .dmem ⟨w - 1024, by omega⟩
  else .reserved

/-- The window word an offset reaches: offset[1:0] is ignored (R51). -/
def windowWord (offset : Offset) : WindowWord := windowMap (offset.toNat / 4)

/-- The words the host may still reach while Running; an access to any other is refused (R53). Reserved
offsets read 0 and ignore writes, and are never refused. -/
def WindowWord.open : WindowWord → Bool
  | .id | .ctrl | .status | .fpc | .finsn | .reserved => true
  | .flags | .index _ | .big _ _ | .hash _ | .roundKey _ | .imem _ | .dmem _ => false

/-- A fault cause's code (R150). -/
def Cause.code : Cause → BitVec 4
  | .none => 0
  | .illegal => 1
  | .range => 2
  | .daddr => 3
  | .fetch => 4

/-- CTRL as the host reads it (R29): START reads 0. -/
def ctrlRead (c : Ctrl) : Word := 0#16 ++ c.entry ++ 0#6 ++ BitVec.ofBool c.ie ++ 0#1

/-- STATUS as the host reads it (R31). -/
def statusRead (st : Status) : Word :=
  0#24 ++ st.cause.code ++ BitVec.ofBool st.herr ++ BitVec.ofBool st.fault ++ BitVec.ofBool st.done
    ++ BitVec.ofBool st.busy

/-- FLAGS as the host reads it (R34): Z is bit 0 and T is bit 1. -/
def flagsRead (s : State) : Word := 0#30 ++ BitVec.ofBool s.tFlag ++ BitVec.ofBool s.zFlag

/-- The current value of a window word (R36), and the state that counts the draws made for memory never
written (R48). -/
def State.windowRead (s : State) : WindowWord → Word × State
  | .id => (Config.idWord, s)
  | .ctrl => (ctrlRead s.ctrl, s)
  | .status => (statusRead s.status, s)
  | .fpc => (s.fpc.setWidth 32, s)
  | .finsn => (s.finsn, s)
  | .flags => (flagsRead s, s)
  | .index k => ((s.getI k).setWidth 32, s)
  | .big r j => (wordOf (s.getB r) j, s)
  | .hash j => (wordOf s.hash j, s)
  | .roundKey i => (s.getRk i, s)
  | .imem a =>
    match Mem.get? s.imem a.val with
    | some w => (w, s)
    | none => (Config.freeWord s.draws, { s with draws := s.draws + 1 })
  | .dmem w =>
    let r := s.memRead (4 * w.val) 4
    (BitVec.ofNat 32 r.1, r.2)
  | .reserved => (0, s)

/-- STATUS.HERR <- 1 (R53). -/
def State.setHerr (s : State) : State := { s with status := { s.status with herr := true } }

/-- The W1C bits of a STATUS write (R31): a 1 clears DONE, FAULT or HERR. -/
def State.clearStatus (s : State) (d : Word) : State :=
  { s with
    status :=
      { s.status with
        done := s.status.done && !d.getLsbD 1
        fault := s.status.fault && !d.getLsbD 2
        herr := s.status.herr && !d.getLsbD 3 } }

/-- CTRL.ENTRY of a written word, bits 15:8 (R29). -/
def ctrlEntry (d : Word) : BitVec 8 := d.extractLsb' 8 8

/-- A write of CTRL (R29, R30, R53): while Idle it updates IE and ENTRY, and starts a run if START is
1; while Running it updates IE only, and sets HERR if START is 1. -/
def State.writeCtrl (s : State) (d : Word) : State :=
  if s.status.busy then
    let s1 := { s with ctrl := { s.ctrl with ie := d.getLsbD 1 } }
    if d.getLsbD 0 then s1.setHerr else s1
  else if d.getLsbD 0 then s.start (d.getLsbD 1) (ctrlEntry d)
  else { s with ctrl := { ie := d.getLsbD 1, entry := ctrlEntry d } }

/-- A write of a window word that is not refused (R36): RO and reserved words ignore it. -/
def State.windowWrite (s : State) (d : Word) : WindowWord → State
  | .id | .fpc | .finsn | .reserved => s
  | .ctrl => s.writeCtrl d
  | .status => s.clearStatus d
  | .flags => (s.setZ (d.getLsbD 0)).setT (d.getLsbD 1)
  | .index k => s.setI k (d.extractLsb' 0 16)
  | .big r j => s.setB r (setWord (s.getB r) j d)
  | .hash j => s.setH (setWord s.hash j d)
  | .roundKey i => s.setRk i d
  | .imem a => { s with imem := Mem.set s.imem a.val d }
  | .dmem w => s.memWrite (4 * w.val) 4 d.toNat

/-- The host may reach this word now: while Idle every word (R52), while Running the open ones (R53). -/
def State.reachable (s : State) (w : WindowWord) : Bool := !s.status.busy || w.open

/-- A host read (R51 to R53): the word's value, or 0 and HERR where it is refused. -/
def State.hostRead (s : State) (offset : Offset) : Word × State :=
  if s.reachable (windowWord offset) then s.windowRead (windowWord offset) else (0, s.setHerr)

/-- A host write (R51 to R53): the word's write, or nothing but HERR where it is refused. -/
def State.hostWrite (s : State) (offset : Offset) (d : Word) : State :=
  if s.reachable (windowWord offset) then s.windowWrite d (windowWord offset) else s.setHerr

/-- The release of the reset input (R165): every register, flag and control field takes its value of
R38, IMEM and DMEM are unspecified anew, and the block is Idle. The host's events go on, and so does the
count of draws, so that every value is drawn anew. -/
def State.release (s : State) : State := { State.reset with pending := s.pending, draws := s.draws }

end Sys2Proof.Machine
end

