-- ==== Sys2Proof/Machine/Sequencer.lean ====
section
/-! DEFINITION. One step of the core (spec/40_control.md R70), one event of the host
(spec/20_memory.md R51 to R54, spec/70_reset_and_hazards.md R165), and placing an instruction where the
next step fetches. -/

namespace Sys2Proof.Machine

/-- Decode and execute the word `w` fetched at the pc of `s`; a word that fails decode raises ILLEGAL
(R66, R70). -/
def runWord (w : Word) (s : State) : Result :=
  match decode w with
  | .instr i => exec i s
  | .illegal _ => .next (s.raise .illegal w)

/-- One step of the core while Running: FETCH, then decode, then the instruction (R70, R152). -/
def coreStep (s : State) : Result :=
  if Config.imemWords ≤ s.pc.toNat then .next (s.raise .fetch 0)
  else
    let f := s.fetch
    runWord f.1 f.2

/-- A turn of the core: a step while Running; nothing while Idle (R70), nor while reset is asserted
(R165: a run in progress is abandoned at once). -/
def coreTurn (s : State) : Result :=
  if s.status.busy && !s.rst then coreStep s else .next s

/-- One event. While reset is asserted no host access is answered or takes effect (R165). -/
def hostEvent (e : HostEvent) (s : State) : Result :=
  match e with
  | .coreTurn => coreTurn s
  | .read offset =>
    if s.rst then .next { s with answer := none }
    else
      let r := s.hostRead offset
      .next { r.2 with answer := some r.1 }
  | .write offset d => if s.rst then .next s else .next (s.hostWrite offset d)
  | .assertReset => .next { s with rst := true }
  | .releaseReset => if s.rst then .next s.release else .next s

/-- The state whose next step fetches at `pc`: as it is if Running with a pc inside IMEM, otherwise
started at CTRL.ENTRY as START does (R30). -/
def State.ready (s : State) : State :=
  if s.status.busy && decide (s.pc.toNat < Config.imemWords) then s
  else s.start s.ctrl.ie s.ctrl.entry

/-- Write the word at the pc, with no host event before the next turn of the core and no reset. -/
def State.placeWord (s : State) (w : Word) : State :=
  { s with imem := Mem.set s.imem s.pc.toNat w, pending := [], rst := false }

end Sys2Proof.Machine
end

