-- ==== Sys2Proof/Machine/Step.lean ====
section
/-! DEFINITION. One step of the block: the next host event, or a turn of the core where none is
pending. -/

namespace Sys2Proof.Machine

/-- One atomic event of the block (spec/20_memory.md R51, spec/70_reset_and_hazards.md R167). -/
def step (s : State) : Host.Outcome State Fault Refusal :=
  match s.pending with
  | [] => coreTurn s
  | e :: rest => hostEvent e { s with pending := rest }

/-- `s` with the instruction of the table bits `w` where the next step fetches, and the core Running
there. Log 5. -/
def State.withFetchWord (s : State) (nbits w : Nat) : State :=
  s.ready.placeWord (BitVec.ofNat 32 (w % 2 ^ nbits))

end Sys2Proof.Machine
end

