-- ==== Sys2Proof/Machine/Assembly.lean ====
section
/-! DEFINITION. Assembler spelling and the pseudo-instructions (spec/30_encoding.md R68, R69). -/

namespace Sys2Proof.Machine

/-- A big register's spelling. -/
def asmB (r : BReg) : String := "B" ++ toString r.val
/-- An index register's spelling. -/
def asmI (k : IReg) : String := "I" ++ toString k.val
/-- A slot's spelling. -/
def asmS (k : Slot) : String := "S" ++ toString k.val
/-- A modulus's spelling, written last. -/
def asmM : Modulus → String
  | .p => "P"
  | .n => "N"
/-- A memory operand's spelling, `imm12(Ik)`. -/
def asmMem (imm : BitVec 12) (k : IReg) : String := toString imm.toNat ++ "(" ++ asmI k ++ ")"
/-- A constant's name (R85); 12..15 have none. -/
def asmC (c : ConstId) : String :=
  ["ZERO", "ONE", "P", "N", "A", "B", "GX", "GY", "RP", "RN", "R2P", "R2N"].getD c.val "?"

/-- A mnemonic and its operands. -/
def asmLine (m : String) (ops : List String) : String :=
  match ops with
  | [] => m
  | _ => m ++ " " ++ String.intercalate ", " ops

/-- The assembler line of an instruction (R68). -/
def assembly : Instr → String
  | .nop => "NOP"
  | .halt => "HALT"
  | .jmp t => asmLine "JMP" [toString t.toNat]
  | .bz t => asmLine "BZ" [toString t.toNat]
  | .bnz t => asmLine "BNZ" [toString t.toNat]
  | .bt t => asmLine "BT" [toString t.toNat]
  | .bnt t => asmLine "BNT" [toString t.toNat]
  | .dbra k t => asmLine "DBRA" [asmI k, toString t.toNat]
  | .li k v => asmLine "LI" [asmI k, toString v.toNat]
  | .addi k v => asmLine "ADDI" [asmI k, toString v.toNat]
  | .btst a k => asmLine "BTST" [asmB a, asmI k]
  | .mov d a => asmLine "MOV" [asmB d, asmB a]
  | .const d c => asmLine "CONST" [asmB d, asmC c]
  | .ldw d v k => asmLine "LDW" [asmB d, asmMem v k]
  | .stw d v k => asmLine "STW" [asmB d, asmMem v k]
  | .ldq d v k => asmLine "LDQ" [asmB d, asmMem v k]
  | .stq d v k => asmLine "STQ" [asmB d, asmMem v k]
  | .madd d a b m => asmLine "MADD" [asmB d, asmB a, asmB b, asmM m]
  | .msub d a b m => asmLine "MSUB" [asmB d, asmB a, asmB b, asmM m]
  | .mmul d a b m => asmLine "MMUL" [asmB d, asmB a, asmB b, asmM m]
  | .minv d a m => asmLine "MINV" [asmB d, asmB a, asmM m]
  | .mred d a m => asmLine "MRED" [asmB d, asmB a, asmM m]
  | .tom d a m => asmLine "TOM" [asmB d, asmB a, asmM m]
  | .fromm d a m => asmLine "FROMM" [asmB d, asmB a, asmM m]
  | .rchk a m => asmLine "RCHK" [asmB a, asmM m]
  | .pgen d => asmLine "PGEN" [asmS d]
  | .pdbl d a => asmLine "PDBL" [asmS d, asmS a]
  | .padd d a b => asmLine "PADD" [asmS d, asmS a, asmS b]
  | .pchk a => asmLine "PCHK" [asmS a]
  | .hinit => "HINIT"
  | .hset a => asmLine "HSET" [asmB a]
  | .hget d => asmLine "HGET" [asmB d]
  | .hcomp a b => asmLine "HCOMP" [asmB a, asmB b]
  | .hp0 d a => asmLine "HP0" [asmB d, asmB a]
  | .hp1 d a => asmLine "HP1" [asmB d, asmB a]
  | .kexp a => asmLine "KEXP" [asmB a]
  | .enc d a => asmLine "ENC" [asmB d, asmB a]
  | .dec d a => asmLine "DEC" [asmB d, asmB a]
  | .sbox d a => asmLine "SBOX" [asmB d, asmB a]
  | .ldif d a => asmLine "LDIF" [asmB d, asmB a]
  | .lkey d a => asmLine "LKEY" [asmB d, asmB a]

/-- The pseudo-instructions; no other exists (R69). -/
inductive Pseudo
  | clr (rd : BReg)
  | b (tgt : BitVec 8)
  | pinf (s : Slot)
  deriving DecidableEq, Repr

/-- The exact expansion of a pseudo-instruction (R69). -/
def Pseudo.expand : Pseudo → List Instr
  | .clr rd => [.const rd 0]
  | .b tgt => [.jmp tgt]
  | .pinf s => [.const (slotX s) 8, .const (slotY s) 8, .const (slotZ s) 0]

end Sys2Proof.Machine
end

