-- ==== Sys2Proof/Machine/Assembler.lean ====
section
/-! DEFINITION. Reading assembler text: lines, comments, labels, operands and pseudo-instructions, to the
instructions at IMEM 0, 1, … (spec/30_encoding.md R68, R69). Log 12. -/

namespace Sys2Proof.Machine

/-! ## Tokens of a line -/

/-- A word (a mnemonic, a name or a number) or a mark. -/
inductive Token
  | word (cs : List Char)
  | comma
  | lparen
  | rparen
  | colon
  deriving DecidableEq, Repr

/-- A character of a word. -/
def wordChar (c : Char) : Bool := c.isAlphanum || c == '_'

/-- The word collected so far, newest character first, before the tokens that follow. -/
def pushWord (acc : List Char) (ts : List Token) : List Token :=
  if acc.isEmpty then ts else .word acc.reverse :: ts

/-- A mark. -/
def markOf (c : Char) : Option Token :=
  if c == ',' then some .comma
  else if c == '(' then some .lparen
  else if c == ')' then some .rparen
  else if c == ':' then some .colon
  else none

/-- The tokens of a line; `;` begins a comment. -/
def lexLine (acc : List Char) : List Char → Option (List Token)
  | [] => some (pushWord acc [])
  | c :: cs =>
    if c == ';' then some (pushWord acc [])
    else if wordChar c then lexLine (c :: acc) cs
    else if c.isWhitespace then (lexLine [] cs).map (pushWord acc)
    else
      match markOf c with
      | some t => (lexLine [] cs).map fun ts => pushWord acc (t :: ts)
      | none => none

/-- The lines of a text. -/
def splitLines (acc : List Char) : List Char → List (List Char)
  | [] => [acc.reverse]
  | c :: cs => if c == '\n' then acc.reverse :: splitLines [] cs else splitLines (c :: acc) cs

/-- Case-insensitive spelling. -/
def upper (cs : List Char) : List Char := cs.map Char.toUpper

/-! ## Numbers and operands -/

/-- The value of a digit up to hexadecimal. -/
def digitOf (c : Char) : Option Nat :=
  if c.isDigit then some (c.toNat - 48)
  else if 'A' ≤ c.toUpper ∧ c.toUpper ≤ 'F' then some (c.toUpper.toNat - 55)
  else none

/-- A digit string in a base. -/
def digitsFrom (base acc : Nat) : List Char → Option Nat
  | [] => some acc
  | c :: cs =>
    match digitOf c with
    | some d => if d < base then digitsFrom base (acc * base + d) cs else none
    | none => none

/-- A decimal or `0x`-hexadecimal number (R68). DESIGN CHOICE, log 12: R68 does not say whether the case of the
`x` and of the digits A to F counts; either case is read. -/
def numberOf : List Char → Option Nat
  | [] => none
  | [c] => digitsFrom 10 0 [c]
  | c :: x :: cs =>
    if c == '0' && x.toUpper == 'X' then (if cs.isEmpty then none else digitsFrom 16 0 cs)
    else digitsFrom 10 0 (c :: x :: cs)

/-- A number below a bound. -/
def below (n : Nat) (v : Option Nat) : Option (Fin n) :=
  v.bind fun k => if h : k < n then some ⟨k, h⟩ else none

/-- The number in a register name: its letter, then a decimal number with no leading zero. -/
def regNumber (letter : Char) : List Char → Option Nat
  | [] => none
  | l :: ds =>
    if l.toUpper == letter && !ds.isEmpty && (ds == ['0'] || ds.head? != some '0') then digitsFrom 10 0 ds
    else none

/-- A register operand of the given kind. -/
def regOperand (n : Nat) (letter : Char) : List Token → Option (Fin n)
  | [.word w] => below n (regNumber letter w)
  | _ => none

/-- A B register. -/
def readB (ts : List Token) : Option BReg := regOperand 16 'B' ts
/-- An index register. -/
def readI (ts : List Token) : Option IReg := regOperand 4 'I' ts
/-- A point slot. -/
def readS (ts : List Token) : Option Slot := regOperand 4 'S' ts

/-- A modulus, `P` or `N` (R68). DESIGN CHOICE, log 12: R68 does not say whether the case of a modulus counts;
either case is read. -/
def readM : List Token → Option Modulus
  | [.word w] => if upper w = ['P'] then some .p else if upper w = ['N'] then some .n else none
  | _ => none

/-- A number of `n` bits. -/
def readImm (n : Nat) : List Token → Option (BitVec n)
  | [.word w] => (below (2 ^ n) (numberOf w)).map BitVec.ofFin
  | _ => none

/-- A memory operand, `imm12(Ik)`. -/
def readMem : List Token → Option (BitVec 12 × IReg)
  | [.word v, .lparen, .word k, .rparen] =>
    (readImm 12 [.word v]).bind fun imm => (readI [.word k]).map fun ix => (imm, ix)
  | _ => none

/-- A constant's name (R68, R85). DESIGN CHOICE, log 12: R68 does not say whether the case of a constant's name
counts; either case is read. -/
def readC : List Token → Option ConstId
  | [.word w] =>
    below 16 (["ZERO", "ONE", "P", "N", "A", "B", "GX", "GY", "RP", "RN", "R2P", "R2N"].findIdx?
      fun name => name.toList == upper w)
  | _ => none

/-- The labels of a program and the IMEM index each stands for. -/
abbrev Labels := List (List Char × Nat)

/-- A branch target: a number 0..255 or a label. -/
def readT (labels : Labels) : List Token → Option (BitVec 8)
  | [.word w] =>
    match numberOf w with
    | some v => (below 256 (some v)).map BitVec.ofFin
    | none => (below 256 (labels.lookup w)).map BitVec.ofFin
  | _ => none

/-- The operands of a line, parted by commas. -/
def splitOperands (acc : List Token) : List Token → List (List Token)
  | [] => [acc.reverse]
  | .comma :: ts => acc.reverse :: splitOperands [] ts
  | t :: ts => splitOperands (t :: acc) ts

/-! ## Instructions -/

/-- An instruction with two B operands. -/
def readBB (f : BReg → BReg → Instr) (d a : List Token) : Option (List Instr) := do
  return [f (← readB d) (← readB a)]

/-- An instruction with two B operands and a modulus. -/
def readBBM (f : BReg → BReg → Modulus → Instr) (d a m : List Token) : Option (List Instr) := do
  return [f (← readB d) (← readB a) (← readM m)]

/-- An instruction with three B operands and a modulus. -/
def readBBBM (f : BReg → BReg → BReg → Modulus → Instr) (d a b m : List Token) : Option (List Instr) := do
  return [f (← readB d) (← readB a) (← readB b) (← readM m)]

/-- An instruction with a B operand and a memory operand. -/
def readBMem (f : BReg → BitVec 12 → IReg → Instr) (d v : List Token) : Option (List Instr) := do
  let (imm, ix) ← readMem v
  return [f (← readB d) imm ix]

/-- An instruction with a target. -/
def readTarget (labels : Labels) (f : BitVec 8 → Instr) (t : List Token) : Option (List Instr) := do
  return [f (← readT labels t)]

/-- The control and data-movement lines, and the pseudo-instructions (R68, R69). -/
def readCore (labels : Labels) (name : String) (ops : List (List Token)) : Option (List Instr) :=
  match name, ops with
  | "NOP", [] => some [.nop]
  | "HALT", [] => some [.halt]
  | "JMP", [t] => readTarget labels .jmp t
  | "BZ", [t] => readTarget labels .bz t
  | "BNZ", [t] => readTarget labels .bnz t
  | "BT", [t] => readTarget labels .bt t
  | "BNT", [t] => readTarget labels .bnt t
  | "DBRA", [k, t] => do return [.dbra (← readI k) (← readT labels t)]
  | "LI", [k, v] => do return [.li (← readI k) (← readImm 16 v)]
  | "ADDI", [k, v] => do return [.addi (← readI k) (← readImm 16 v)]
  | "BTST", [a, k] => do return [.btst (← readB a) (← readI k)]
  | "MOV", [d, a] => readBB .mov d a
  | "CONST", [d, c] => do return [.const (← readB d) (← readC c)]
  | "LDW", [d, v] => readBMem .ldw d v
  | "STW", [d, v] => readBMem .stw d v
  | "LDQ", [d, v] => readBMem .ldq d v
  | "STQ", [d, v] => readBMem .stq d v
  | "CLR", [d] => do return Pseudo.expand (.clr (← readB d))
  | "B", [t] => do return Pseudo.expand (.b (← readT labels t))
  | "PINF", [s] => do return Pseudo.expand (.pinf (← readS s))
  | _, _ => none

/-- The lines of the four units (R68). -/
def readUnit (name : String) (ops : List (List Token)) : Option (List Instr) :=
  match name, ops with
  | "MADD", [d, a, b, m] => readBBBM .madd d a b m
  | "MSUB", [d, a, b, m] => readBBBM .msub d a b m
  | "MMUL", [d, a, b, m] => readBBBM .mmul d a b m
  | "MINV", [d, a, m] => readBBM .minv d a m
  | "MRED", [d, a, m] => readBBM .mred d a m
  | "TOM", [d, a, m] => readBBM .tom d a m
  | "FROMM", [d, a, m] => readBBM .fromm d a m
  | "RCHK", [a, m] => do return [.rchk (← readB a) (← readM m)]
  | "PGEN", [d] => do return [.pgen (← readS d)]
  | "PDBL", [d, a] => do return [.pdbl (← readS d) (← readS a)]
  | "PADD", [d, a, b] => do return [.padd (← readS d) (← readS a) (← readS b)]
  | "PCHK", [a] => do return [.pchk (← readS a)]
  | "HINIT", [] => some [.hinit]
  | "HSET", [a] => do return [.hset (← readB a)]
  | "HGET", [d] => do return [.hget (← readB d)]
  | "HCOMP", [a, b] => readBB .hcomp a b
  | "HP0", [d, a] => readBB .hp0 d a
  | "HP1", [d, a] => readBB .hp1 d a
  | "KEXP", [a] => do return [.kexp (← readB a)]
  | "ENC", [d, a] => readBB .enc d a
  | "DEC", [d, a] => readBB .dec d a
  | "SBOX", [d, a] => readBB .sbox d a
  | "LDIF", [d, a] => readBB .ldif d a
  | "LKEY", [d, a] => readBB .lkey d a
  | _, _ => none

/-! ## Programs -/

/-- The labels before a line's instruction, and the rest of the line. DESIGN CHOICE, log 12: R68 writes one
instruction or label per line and 95_test_vectors.md at most one label before an instruction; any number is read. -/
def takeLabels : List Token → List (List Char) × List Token
  | .word l :: .colon :: ts =>
    let r := takeLabels ts
    (l :: r.1, r.2)
  | ts => ([], ts)

/-- The instructions of a line after its labels. -/
def readLine (labels : Labels) : List Token → Option (List Instr)
  | [] => some []
  | .word m :: ts =>
    let name := String.ofList (upper m)
    let ops := if ts.isEmpty then [] else splitOperands [] ts
    match readCore labels name ops with
    | some is => some is
    | none => readUnit name ops
  | _ => none

/-- The number of words of a line (R69). -/
def lineWords : List Token → Nat
  | [] => 0
  | .word m :: _ => if String.ofList (upper m) = "PINF" then 3 else 1
  | _ => 0

/-- The label of every line with the index of the next instruction. -/
def labelsFrom (index : Nat) : List (List Token) → Labels
  | [] => []
  | line :: rest =>
    let r := takeLabels line
    r.1.map (fun l => (l, index)) ++ labelsFrom (index + lineWords r.2) rest

/-- The instructions of a program text, the first at IMEM 0; none where a line is no line of R68. -/
def assemble (text : String) : Option (List Instr) := do
  let lines ← (splitLines [] text.toList).mapM (lexLine [])
  let labels := labelsFrom 0 lines
  let parts ← lines.mapM fun line => readLine labels (takeLabels line).2
  return parts.flatten

end Sys2Proof.Machine
end

