-- ==== Sys2Proof/Machine/Procedures.lean ====
section
/-! DEFINITION. The contracts of the procedures that programs and the host build on the block: message
padding and digest (spec/44_hash.md R126), the identity digest (spec/46_identity_signature.md R142 to
R144), scalar multiplication and affine conversion (spec/43_point.md R112, R113), key generation,
signing and verification (R145 to R147) and their properties (R148). They are functions of byte strings and numbers; no instruction
is one of them. Logs 9, 13 and 14. -/

namespace Sys2Proof.Machine

/-! ## Hashing a message (R126) -/

/-- The padded message: 0x80, the least number of zero bytes, and the 64-bit bit length (R126).
DESIGN CHOICE, log 13: R127 gives 2^64 − 1 bits as the greatest message length and does not say how a longer
message is padded; the length bytes of one are its bit length modulo 2^64. -/
def padMessage (msg : List Byte) : List Byte :=
  msg ++ [0x80#8] ++ List.replicate ((119 - msg.length % 64) % 64) 0#8 ++ bytesBE 8 (8 * msg.length)

/-- Compress `n` chunks of 64 bytes in order (R123). -/
def absorb : Nat → Big → List Byte → Big
  | 0, v, _ => v
  | n + 1, v, bs =>
    absorb n
      (compress v (BitVec.ofNat 256 (natOfBytes (bs.take 32)))
        (BitVec.ofNat 256 (natOfBytes ((bs.drop 32).take 32))))
      (bs.drop 64)

/-- The digest of a message: H after the last block of the padded message (R126). -/
def digest (msg : List Byte) : Big :=
  let padded := padMessage msg
  absorb (padded.length / 64) hashIV padded

/-! ## Identity digest (R142 to R144) -/

/-- The input of the identity digest; none where the identity is too long, `bitlen(ID) > 0xFFFF`
(R142, R143). -/
def identityInput (ident : List Byte) (x y : Nat) : Option (List Byte) :=
  if 8 * ident.length > 0xFFFF then none
  else
    some (bytesBE 2 (8 * ident.length) ++ ident ++ bytesBE 32 curveA ++ bytesBE 32 curveB
      ++ bytesBE 32 curveGx ++ bytesBE 32 curveGy ++ bytesBE 32 x ++ bytesBE 32 y)

/-- The identity digest (R142). -/
def identityDigest (ident : List Byte) (x y : Nat) : Option Big :=
  (identityInput ident x y).map digest

/-- `e = Hash(Z ‖ message)` as an integer (R144). -/
def messageDigest (zid : Big) (msg : List Byte) : Nat :=
  (digest (bytesBE 32 zid.toNat ++ msg)).toNat

/-! ## Points (R112, R113) -/

/-- The triple a slot holds for a point result: O as (1, 1, 0) (R105). -/
def PointResult.toJacobian : PointResult → Jacobian
  | .infinity => ⟨1, 1, 0⟩
  | .triple q => q

/-- Double and add over the bits `n-1 .. 0` of `k`, most significant first (R113). -/
def scalarMulFrom (k : Nat) (q : Jacobian) : Nat → Jacobian → Jacobian
  | 0, acc => acc
  | n + 1, acc =>
    let d := (pointDouble acc).toJacobian
    scalarMulFrom k q n (if k.testBit n then (pointAdd d q).toJacobian else d)

/-- k·Q over bit indices 255..0 (R113). -/
def scalarMul (k : Nat) (q : Jacobian) : Jacobian := scalarMulFrom k q 256 ⟨1, 1, 0⟩

/-- The generator (R103). -/
def generator : Jacobian := ⟨curveGx, curveGy, 1⟩

/-- Affine x = X/Z²; 0 for O (R112). -/
def affineX (q : Jacobian) : Nat := fmul q.x (fsq (modInv curveP q.z))

/-- Affine y = Y/Z³; 0 for O (R112). -/
def affineY (q : Jacobian) : Nat :=
  fmul q.y (fmul (fsq (modInv curveP q.z)) (modInv curveP q.z))

/-! ## Keys and signatures (R145 to R147) -/

/-- The host's reduction of its random integer to D ∈ [1, N−2] (R145). -/
def keyFromRandom (rand : Nat) : Nat := rand % (curveN - 2) + 1

/-- The host's reduction of its random integer to k ∈ [1, N−1] (R146, 90_conflicts.md C6). -/
def nonceFromRandom (rand : Nat) : Nat := rand % (curveN - 1) + 1

/-- The public point of a private key (R145). -/
def publicKey (d : Nat) : Nat × Nat :=
  let q := scalarMul d generator
  (affineX q, affineY q)

/-- How one pass of the signing loop ends (R146). -/
inductive SignPass
  /-- accepted, with r and s -/
  | accepted (r s : Nat)
  /-- r = 0, r + k = N or s = 0: a fresh nonce is drawn -/
  | resample
  /-- a fatal logic error: the RANGE fault that only D ≥ N or k ≥ N can raise (R146, R157) -/
  | range
  /-- k and D below N, but k = 0, D = 0 or D = N − 1: outside the contract's ranges (R145, R146), so what a
  program computes from them is no signature (95_test_vectors.md, P6). Log 14. -/
  | outside
  deriving DecidableEq, Repr

/-- One pass of the signing loop, for message digest `e`, private key `d` and nonce `k` (R146, steps 2
and 3): the tests come in the order of the steps, as program P6 takes them. R146 names no precedence where
several hold at once; the model's choice (log 14): with k or D not below N the pass ends as P6 does, by
resampling or RANGE, whatever else is wrong; with both below N, outside comes before the resample tests. -/
def signDigest (d k e : Nat) : SignPass :=
  if k < curveN ∧ d < curveN ∧ (k = 0 ∨ d = 0 ∨ d = curveN - 1) then .outside
  else
    let x := affineX (scalarMul k generator)
    let r := modAdd curveN (e % curveN) (x % curveN)
    if r = 0 then .resample
    else if curveN ≤ k then .range
    else if modAdd curveN r k = 0 then .resample
    else if curveN ≤ d then .range
    else
      let s := modMul curveN (modInv curveN (modAdd curveN 1 d)) (modSub curveN k (modMul curveN r d))
      if s = 0 then .resample else .accepted r s

/-- The 64-byte signature r ‖ s (R146). -/
def encodeSignature (rs : Nat × Nat) : List Byte := bytesBE 32 rs.1 ++ bytesBE 32 rs.2

/-- The result of signing (R146). -/
inductive SignResult
  /-- the 64 bytes r ‖ s -/
  | signature (bytes : List Byte)
  /-- `bitlen(ID) > 0xFFFF` (R143) -/
  | identityTooLarge
  /-- a fatal logic error, from D ≥ N -/
  | range
  /-- D = 0 or D = N − 1. Log 14. -/
  | outside
  /-- the host drew no further nonce: it bounds the number of runs (R146) -/
  | drawsEnded
  deriving DecidableEq, Repr

/-- The signing loop over the host's random integers, one for each pass (R146). -/
def signLoop (d e : Nat) : List Nat → SignResult
  | [] => .drawsEnded
  | rand :: rest =>
    match signDigest d (nonceFromRandom rand) e with
    | .accepted r s => .signature (encodeSignature (r, s))
    | .resample => signLoop d e rest
    | .range => .range
    | .outside => .outside

/-- Signing a message with private key `d` (R146): step 1 with the key's own public point, then the loop
over the random integers the host draws. -/
def sign (ident msg : List Byte) (d : Nat) (rands : List Nat) : SignResult :=
  let pub := publicKey d
  match identityDigest ident pub.1 pub.2 with
  | none => .identityTooLarge
  | some zid => signLoop d (messageDigest zid msg) rands

/-- Verification of decoded r and s against a message digest `e` and public point (x, y) (R147, steps 2
and 4 to 6); an off-curve key and an infinite sum reject. -/
def verifyDigest (r s e x y : Nat) : Bool :=
  if r = 0 || curveN ≤ r || s = 0 || curveN ≤ s then false
  else
    let t := modAdd curveN r s
    if t = 0 then false
    else
      let pub : Jacobian := ⟨x % curveP, y % curveP, 1⟩
      if !onCurve pub then false
      else
        let sum := (pointAdd (scalarMul s generator) (scalarMul t pub)).toJacobian
        if sum.z = 0 then false
        else modAdd curveN (e % curveN) (affineX sum % curveN) == r

/-- Verification: every failure is `false` (R147). -/
def verify (ident msg sig : List Byte) (x y : Nat) : Bool :=
  if sig.length ≠ 64 then false
  else
    match identityDigest ident x y with
    | none => false
    | some zid =>
      verifyDigest (natOfBytes (sig.take 32)) (natOfBytes (sig.drop 32)) (messageDigest zid msg) x y

/-! ## The procedure properties (R148) -/

/-- Sign, then verify with the key's public point: the first property of R148 is that this is `some true` for
every D in [1, N−2] wherever a nonce is accepted; none where signing gives no signature. -/
def verifyOwn (ident msg : List Byte) (d : Nat) (rands : List Nat) : Option Bool :=
  match sign ident msg d rands with
  | .signature sig =>
    let pub := publicKey d
    some (verify ident msg sig pub.1 pub.2)
  | _ => none

/-- A byte string with bit `n` flipped: bit `n % 8` of byte `n / 8`, bit 0 the least significant. -/
def flipBit (n : Nat) (bs : List Byte) : List Byte := bs.modify (n / 8) (· ^^^ BitVec.twoPow 8 (n % 8))

/-- What the second property of R148 flips a bit of. -/
inductive FlipTarget
  | identity
  | message
  | signature
  deriving DecidableEq, Repr

/-- Verification with one bit flipped: the second property of R148 is that this is false after a good
signature, except with negligible probability; it is tested and not stated. -/
def verifyFlipped (target : FlipTarget) (n : Nat) (ident msg sig : List Byte) (x y : Nat) : Bool :=
  match target with
  | .identity => verify (flipBit n ident) msg sig x y
  | .message => verify ident (flipBit n msg) sig x y
  | .signature => verify ident msg (flipBit n sig) x y

end Sys2Proof.Machine
end

