-- ==== Sys2Proof/Safety.lean ====
section
/-! DEFINITION. What the statements speak of: how a run ended and what it leaves to be observed
(spec/70_reset_and_hazards.md R170), the invariant of the block's state (spec/10_state.md R24, R31, R38),
which instructions may write or fault what (R23, R150), and what a step leaves unchanged. -/

namespace Sys2Proof.Machine

/-! ## Runs -/

/-- How the last run ended (R170). -/
inductive StopKind
  | done
  | fault (c : Cause)
  deriving DecidableEq, Repr

/-- The observation of a run (R170): how it stopped, with the cause of a stop Fault in the kind; FPC, FINSN
and CAUSE; and the state the run leaves. DESIGN CHOICE, log 15: R170 lists DMEM and says as well that the end of
a run says nothing of DMEM contents the program never wrote; the model keeps every byte written since the last
reset, by this run, an earlier one or the host, and says nothing of any other. -/
structure Observation where
  kind : StopKind
  fpc : Pc
  finsn : Word
  cause : Cause
  big : Vector Big 16
  idx : Vector Half 4
  zFlag : Bool
  tFlag : Bool
  hash : Big
  rk : Vector Word 32
  dmem : List Host.Cell
  deriving DecidableEq, Repr

/-- The observation of a run that stopped as `kind` and left the state `s`. -/
def State.observationOf (s : State) (kind : StopKind) : Observation where
  kind := kind
  fpc := s.fpc
  finsn := s.finsn
  cause := s.status.cause
  big := s.big
  idx := s.idx
  zFlag := s.zFlag
  tFlag := s.tFlag
  hash := s.hash
  rk := s.rk
  dmem := s.dmem

/-- The observation of the last run in the state it left (R170); none while Running, and none where no stop is
recorded, as after a reset. -/
def State.observation (s : State) : Option Observation :=
  if s.status.busy then none
  else if s.status.done then some (s.observationOf .done)
  else if s.status.fault then some (s.observationOf (.fault s.status.cause))
  else none

/-- The observation of the run in progress, if it ends within `n` steps, host events among them (R170): it is
taken in the state its stop leaves, before any further event. A run that a reset ends has none, and nor has a run
that does not end, whatever `n` is. -/
def State.runEnd : Nat → State → Option Observation
  | 0, s => s.observation
  | n + 1, s =>
    if s.status.busy then
      if s.rst then none
      else
        match step s with
        | .next t => State.runEnd n t
        | _ => none
    else s.observation

/-! ## The invariant -/

/-- The status bits are consistent (R31): DONE and FAULT are never both 1; while BUSY both are 0, and
CAUSE is 0, as START left it; a recorded FAULT has a cause, and a recorded DONE has none (R150). -/
def Status.consistent (st : Status) : Bool :=
  !(st.done && st.fault)
    && (!st.busy || (!st.done && !st.fault && st.cause == .none))
    && (!st.fault || st.cause != .none)
    && (!st.done || st.cause == .none)

/-- The invariant of the block's state: both memories in canonical form, pc and FPC an IMEM index or 256
(R24, R32), and consistent status bits (R31). -/
def State.inv (s : State) : Bool :=
  s.memoryWf && decide (s.pc.toNat ≤ Config.imemWords) && decide (s.fpc.toNat ≤ Config.imemWords)
    && s.status.consistent

/-! ## Which instructions write, or fault, what -/

/-- The instructions that write Z (R23). -/
def Instr.writesZ : Instr → Bool
  | .madd _ _ _ _ | .msub _ _ _ _ | .mmul _ _ _ _ | .minv _ _ _ | .mred _ _ _ | .tom _ _ _
  | .fromm _ _ _ => true
  | _ => false

/-- The instructions that write T (R23). -/
def Instr.writesT : Instr → Bool
  | .rchk _ _ | .btst _ _ | .pchk _ => true
  | _ => false

/-- The instructions that write an index register (R22). -/
def Instr.writesI : Instr → Bool
  | .li _ _ | .addi _ _ | .dbra _ _ => true
  | _ => false

/-- The instructions that write H (R25). -/
def Instr.writesH : Instr → Bool
  | .hinit | .hset _ | .hcomp _ _ => true
  | _ => false

/-- The instruction that writes RK (R26). -/
def Instr.writesRk : Instr → Bool
  | .kexp _ => true
  | _ => false

/-- The instructions that write DMEM (R41, R88, R90). -/
def Instr.writesDmem : Instr → Bool
  | .stw _ _ _ | .stq _ _ _ => true
  | _ => false

/-- The instructions that raise RANGE (R150). -/
def Instr.mayRange : Instr → Bool
  | .madd _ _ _ _ | .msub _ _ _ _ | .mmul _ _ _ _ | .minv _ _ _ | .tom _ _ _ | .fromm _ _ _
  | .pdbl _ _ | .padd _ _ _ | .pchk _ => true
  | _ => false

/-- The instructions that raise DADDR (R150). -/
def Instr.mayDaddr : Instr → Bool
  | .ldw _ _ _ | .stw _ _ _ | .ldq _ _ _ | .stq _ _ _ => true
  | _ => false

/-! ## Frames -/

/-- Every B register outside `rs` is as before. -/
def KeepsB (rs : List BReg) (s t : State) : Prop := ∀ r, r ∉ rs → t.getB r = s.getB r

/-- Every index register outside `ks` is as before. -/
def KeepsI (ks : List IReg) (s t : State) : Prop := ∀ k, k ∉ ks → t.getI k = s.getI k

/-- Both flags are as before. -/
def KeepsFlags (s t : State) : Prop := t.zFlag = s.zFlag ∧ t.tFlag = s.tFlag

/-- H is as before. -/
def KeepsH (s t : State) : Prop := t.hash = s.hash

/-- Every round key is as before. -/
def KeepsRk (s t : State) : Prop := ∀ i, t.getRk i = s.getRk i

/-- Every DMEM byte outside the `n` bytes at `lo` reads as before. -/
def KeepsBytesOutside (lo n : Nat) (s t : State) : Prop :=
  ∀ a, (a < lo ∨ lo + n ≤ a) → Mem.get? t.dmem a = Mem.get? s.dmem a

/-- Every DMEM byte reads as before. -/
def KeepsBytes (s t : State) : Prop := ∀ a, Mem.get? t.dmem a = Mem.get? s.dmem a

/-- Every IMEM word reads as before. -/
def KeepsImem (s t : State) : Prop := ∀ a, Mem.get? t.imem a = Mem.get? s.imem a

/-- CTRL, STATUS, FPC and FINSN are as before. -/
def KeepsControl (s t : State) : Prop :=
  t.ctrl = s.ctrl ∧ t.status = s.status ∧ t.fpc = s.fpc ∧ t.finsn = s.finsn

/-- The reset input and the host's side are as before. -/
def KeepsHost (s t : State) : Prop :=
  t.rst = s.rst ∧ t.pending = s.pending ∧ t.answer = s.answer

/-- What no completing instruction but HALT changes: IMEM, the control registers, the host's side. -/
def KeepsAround (s t : State) : Prop := KeepsImem s t ∧ KeepsControl s t ∧ KeepsHost s t

/-- Nothing but the pc changes. -/
def OnlyPc (s t : State) : Prop :=
  KeepsB [] s t ∧ KeepsI [] s t ∧ KeepsFlags s t ∧ KeepsH s t ∧ KeepsRk s t ∧ KeepsBytes s t
    ∧ KeepsAround s t ∧ t.draws = s.draws

/-- Nothing but the B registers `rs` and the pc changes. -/
def OnlyB (rs : List BReg) (s t : State) : Prop :=
  KeepsB rs s t ∧ KeepsI [] s t ∧ KeepsFlags s t ∧ KeepsH s t ∧ KeepsRk s t ∧ KeepsBytes s t
    ∧ KeepsAround s t ∧ t.draws = s.draws

/-- Nothing but the B registers `rs`, the pc and the count of draws changes. -/
def OnlyBDraws (rs : List BReg) (s t : State) : Prop :=
  KeepsB rs s t ∧ KeepsI [] s t ∧ KeepsFlags s t ∧ KeepsH s t ∧ KeepsRk s t ∧ KeepsBytes s t
    ∧ KeepsAround s t ∧ s.draws ≤ t.draws

/-- Nothing but the B register `rd`, Z and the pc changes. -/
def OnlyBZ (rd : BReg) (s t : State) : Prop :=
  KeepsB [rd] s t ∧ KeepsI [] s t ∧ t.tFlag = s.tFlag ∧ KeepsH s t ∧ KeepsRk s t ∧ KeepsBytes s t
    ∧ KeepsAround s t ∧ t.draws = s.draws

/-- Nothing but T and the pc changes. -/
def OnlyT (s t : State) : Prop :=
  KeepsB [] s t ∧ KeepsI [] s t ∧ t.zFlag = s.zFlag ∧ KeepsH s t ∧ KeepsRk s t ∧ KeepsBytes s t
    ∧ KeepsAround s t ∧ t.draws = s.draws

/-- Nothing but the index register `k` and the pc changes. -/
def OnlyI (k : IReg) (s t : State) : Prop :=
  KeepsB [] s t ∧ KeepsI [k] s t ∧ KeepsFlags s t ∧ KeepsH s t ∧ KeepsRk s t ∧ KeepsBytes s t
    ∧ KeepsAround s t ∧ t.draws = s.draws

/-- Nothing but H and the pc changes. -/
def OnlyH (s t : State) : Prop :=
  KeepsB [] s t ∧ KeepsI [] s t ∧ KeepsFlags s t ∧ KeepsRk s t ∧ KeepsBytes s t
    ∧ KeepsAround s t ∧ t.draws = s.draws

/-- Nothing but RK and the pc changes. -/
def OnlyRk (s t : State) : Prop :=
  KeepsB [] s t ∧ KeepsI [] s t ∧ KeepsFlags s t ∧ KeepsH s t ∧ KeepsBytes s t
    ∧ KeepsAround s t ∧ t.draws = s.draws

/-- Nothing but the `n` DMEM bytes at `lo` and the pc changes. -/
def OnlyBytes (lo n : Nat) (s t : State) : Prop :=
  KeepsB [] s t ∧ KeepsI [] s t ∧ KeepsFlags s t ∧ KeepsH s t ∧ KeepsRk s t
    ∧ KeepsBytesOutside lo n s t ∧ KeepsAround s t ∧ t.draws = s.draws

/-- The registers, flags and memories a program works on, and its pc, are as before (R151, R53). -/
def KeepsProgramState (s t : State) : Prop :=
  KeepsB [] s t ∧ KeepsI [] s t ∧ KeepsFlags s t ∧ KeepsH s t ∧ KeepsRk s t ∧ KeepsBytes s t
    ∧ KeepsImem s t ∧ t.pc = s.pc

/-- The instruction stops the core with fault `c` at its own index and word, and changes nothing else
(R151): the state after `exec i s` when it faults. -/
def FaultsWith (i : Instr) (c : Cause) (s : State) : Prop :=
  ∃ t, exec i s = .next t ∧ KeepsProgramState s t ∧ KeepsHost s t ∧ t.draws = s.draws ∧ t.ctrl = s.ctrl
    ∧ t.status = { s.status with busy := false, fault := true, cause := c }
    ∧ t.fpc = s.pc ∧ t.finsn = encode i

/-- `w` is the one word that decodes to `i`. -/
def OnlyWord (i : Instr) (w : Word) : Prop := ∀ v, decode v = .instr i ↔ v = w

/-- Every register, flag and control field has its value of R38, and IMEM and DMEM hold nothing
known. -/
def HasResetValues (t : State) : Prop :=
  (∀ r, t.getB r = 0) ∧ (∀ k, t.getI k = 0) ∧ t.zFlag = false ∧ t.tFlag = false ∧ t.pc = 0
    ∧ t.hash = 0 ∧ (∀ i, t.getRk i = 0) ∧ ctrlRead t.ctrl = 0 ∧ statusRead t.status = 0
    ∧ t.fpc = 0 ∧ t.finsn = 0 ∧ (t.windowRead .id).1 = 0x474D4331#32 ∧ t.irq = false
    ∧ (∀ a, Mem.get? t.imem a = none) ∧ (∀ a, Mem.get? t.dmem a = none)

/-- Byte `j` of a 256-bit value, byte 0 most significant (R13). -/
def bigByte (v : Big) (j : Nat) : Byte := v.extractLsb' (248 - 8 * j) 8

/-- Byte `j` of a 128-bit value, byte 0 most significant. -/
def blockByte (v : Block) (j : Nat) : Byte := v.extractLsb' (120 - 8 * j) 8

end Sys2Proof.Machine
end

