-- ==== Sys2Proof/Certificates/Slice0/Obligations.lean ====
section
/-! DEFINITION. The statements for the provers, from the numbered rules of spec/. Each holds for every
state unless it names a premise. The frame predicates (OnlyPc, OnlyB, …) say what an instruction leaves
unchanged; they and OnlyWord stand in Sys2Proof/Safety.lean. -/

open Sys2Proof Sys2Proof.Machine

/-! ## Reset -/

/-- R38: what every piece of state is after reset. The two memories are unspecified there: nothing is
listed. -/
def Obligations.ResetStateValues : Prop := HasResetValues State.reset

/-- R165, R170: asserting reset abandons the run with no stop recorded and no observation; while it is
asserted nothing but the host's own side moves and no read is answered; its release puts every piece of state at
its reset value, Idle. R165 says only that the run is abandoned and no access is answered: that registers, flags, CTRL and
STATUS (BUSY too) keep their values from the assertion to the release is the model's choice (log 3), and so
is that the event list goes on and draws are not repeated (log 2, log 1). -/
def Obligations.ResetAbandonsAndRestores : Prop :=
  (∀ s rest, s.pending = .assertReset :: rest →
    step s = .next { s with pending := rest, rst := true }) ∧
  (∀ s rest n, s.pending = .assertReset :: rest → s.status.busy = true → State.runEnd n s = none) ∧
  (∀ s e rest, s.rst = true → s.pending = e :: rest → e ≠ .releaseReset →
    ∃ t, step s = .next t ∧ KeepsProgramState s t ∧ KeepsControl s t ∧ t.rst = true
      ∧ t.pending = rest ∧ t.draws = s.draws ∧ ∀ o, e = .read o → t.answer = none) ∧
  (∀ s, s.rst = true → s.pending = [] → step s = .next s) ∧
  (∀ s rest, s.rst = true → s.pending = .releaseReset :: rest →
    ∃ t, step s = .next t ∧ HasResetValues t ∧ t.status.busy = false ∧ t.rst = false
      ∧ t.pending = rest ∧ t.draws = s.draws)

/-! ## Encoding -/

/-- R65, R66: decoding the word of a well-formed instruction gives that instruction, every operand at
every value. -/
def Obligations.EncodeThenDecodeGivesInstruction : Prop :=
  ∀ i : Instr, i.wellFormed = true → decode (encode i) = .instr i

/-- R66: a word that decodes to an instruction is the word of that instruction, and the instruction is
well-formed: no two words are one instruction. -/
def Obligations.DecodeThenEncodeGivesWord : Prop :=
  ∀ (w : Word) (i : Instr), decode w = .instr i → encode i = w ∧ i.wellFormed = true

/-- R66: the decoder's checks in order: an opcode outside the map (the listed ones) is illegal; in a row
of the map a reserved bit that is 1 is illegal, and so is CONST 12..15; any other word is the row's
instruction. So the zero word is illegal, and NOP is one word. -/
def Obligations.ReservedWordsAreIllegal : Prop :=
  (∀ w : Word, decode w = .illegal .reservedOpcode ↔
    Field.op w ∈ [0x00#6, 0x0C#6, 0x0D#6, 0x0E#6, 0x0F#6, 0x16#6, 0x17#6, 0x24#6, 0x25#6, 0x26#6, 0x27#6,
      0x2E#6, 0x2F#6, 0x36#6, 0x37#6, 0x38#6, 0x39#6, 0x3A#6, 0x3B#6, 0x3C#6, 0x3D#6, 0x3E#6, 0x3F#6]) ∧
  (∀ (w : Word) (row : OpcodeRow), row ∈ opcodeMap → row.opcode = Field.op w →
    (w &&& row.mask ≠ row.matchBits → decode w = .illegal .reservedBit) ∧
    (w &&& row.mask = row.matchBits → row.opcode = 0x11#6 → 11 < (w.extractLsb' 18 4).toNat →
      decode w = .illegal .reservedConstant) ∧
    (w &&& row.mask = row.matchBits → (row.opcode ≠ 0x11#6 ∨ (w.extractLsb' 18 4).toNat ≤ 11) →
      decode w = .instr (row.build w))) ∧
  (∀ (rd : BReg) (cid : ConstId), 12 ≤ cid.val →
    decode (0x11#6 ++ BReg.bits rd ++ BReg.bits cid ++ 0#18) = .illegal .reservedConstant) ∧
  decode 0#32 = .illegal .reservedOpcode ∧
  (∀ w : Word, decode w = .instr .nop ↔ w = 0x04000000#32)

/-- R63, R65: words written out from the formats, one or more of each family, decode to their
instructions. -/
def Obligations.SampleWordsDecode : Prop :=
  decode 0b00100000000000010000000000000101#32 = .instr (.dbra 1 5) ∧
  decode 0b00101100000011000000000000000000#32 = .instr (.btst 3 0) ∧
  decode 0b01001100100000000000000001000000#32 = .instr (.stw 2 64 0) ∧
  decode 0b01000100110110000000000000000000#32 = .instr (.const 3 6) ∧
  decode 0b01100101000101011010000000000000#32 = .instr (.msub 4 5 6 .n) ∧
  decode 0b10001001000100000000000000000000#32 = .instr (.padd 1 1 0) ∧
  decode 0b10101100000000000100000000000000#32 = .instr (.hcomp 0 1) ∧
  decode 0b11000100100001000000000000000000#32 = .instr (.enc 2 1)

/-! ## The step -/

/-- R70: while Running, with no host event first, a step fetches IMEM[pc] (a free draw where nothing has
been written, R48) and is exactly the decoded instruction; so is the core's turn in the host's list. While
Idle the core takes no step (R27), whether the turn is its own or stands in the host's list. -/
def Obligations.StepRunsDecodedInstruction : Prop :=
  (∀ (s : State) (i : Instr), s.pending = [] → s.rst = false → s.status.busy = true → s.pc.toNat < 256 →
    decode s.fetch.1 = .instr i → step s = exec i s.fetch.2) ∧
  (∀ (s : State) (i : Instr) (rest : List HostEvent), s.pending = .coreTurn :: rest → s.rst = false →
    s.status.busy = true → s.pc.toNat < 256 → decode s.fetch.1 = .instr i →
    step s = exec i { s with pending := rest }.fetch.2) ∧
  (∀ (s : State) (w : Word), Mem.get? s.imem s.pc.toNat = some w → s.fetch = (w, s)) ∧
  (∀ s : State, Mem.get? s.imem s.pc.toNat = none →
    s.fetch = (Config.freeWord s.draws, { s with draws := s.draws + 1 })) ∧
  (∀ s : State, s.pending = [] → s.status.busy = false → step s = .next s) ∧
  (∀ (s : State) (rest : List HostEvent), s.pending = .coreTurn :: rest → s.status.busy = false →
    step s = .next { s with pending := rest })

/-- R150, R151, R152: a fetch at pc = 256 stops with FETCH, FPC the pc and FINSN 0, before anything is
decoded; a word that fails decode stops with ILLEGAL, FPC the pc and FINSN the word. Nothing of the
program's state changes. -/
def Obligations.FetchAndDecodeFaultsStop : Prop :=
  (∀ s : State, s.pending = [] → s.rst = false → s.status.busy = true → 256 ≤ s.pc.toNat →
    ∃ t, step s = .next t ∧ KeepsProgramState s t ∧ KeepsHost s t ∧ t.ctrl = s.ctrl ∧ t.draws = s.draws
      ∧ t.status = { s.status with busy := false, fault := true, cause := .fetch }
      ∧ t.fpc = s.pc ∧ t.finsn = 0) ∧
  (∀ (s : State) (why : IllegalReason), s.pending = [] → s.rst = false → s.status.busy = true →
    s.pc.toNat < 256 → decode s.fetch.1 = .illegal why →
    ∃ t, step s = .next t ∧ KeepsProgramState s t ∧ KeepsHost s t ∧ t.ctrl = s.ctrl
      ∧ t.draws = s.fetch.2.draws
      ∧ t.status = { s.status with busy := false, fault := true, cause := .illegal }
      ∧ t.fpc = s.pc ∧ t.finsn = s.fetch.1)

/-- R171: the block always takes its next step; no state, reachable or not, and no instruction ends the
machine in a model fault or a refusal. -/
def Obligations.StepAlwaysAnswersNext : Prop :=
  (∀ s : State, ∃ t, step s = .next t) ∧ (∀ (i : Instr) (s : State), ∃ t, exec i s = .next t)

/-- R24, R31, R32: every step keeps the invariant: both memories canonical, pc and FPC at most 256, DONE
and FAULT never both 1 and both 0 while BUSY, CAUSE consistent with them. -/
def Obligations.StepKeepsInvariant : Prop :=
  ∀ s t : State, s.inv = true → step s = .next t → t.inv = true

/-- The state after reset meets the invariant. -/
def Obligations.ResetMeetsInvariant : Prop := State.reset.inv = true

/-! ## Rules about all instructions -/

/-- R151, R170 (which DMEM bytes an observation holds: log 15): faults are precise: an instruction that sets FAULT changes nothing but BUSY, FAULT, CAUSE, FPC
and FINSN, which record it; the run's observation is then the stop Fault with its cause, FPC, FINSN and the
state the run leaves. DONE is 0 while Running (R31). -/
def Obligations.FaultsArePrecise : Prop :=
  ∀ (i : Instr) (s t : State), exec i s = .next t → s.status.fault = false → t.status.fault = true →
    t = { s with
      status := { s.status with busy := false, fault := true, cause := t.status.cause }
      fpc := s.pc
      finsn := encode i } ∧
    (s.status.done = false → t.observation = some {
      kind := .fault t.status.cause, fpc := s.pc, finsn := encode i, cause := t.status.cause
      big := s.big, idx := s.idx, zFlag := s.zFlag, tFlag := s.tFlag, hash := s.hash, rk := s.rk
      dmem := s.dmem })

/-- R150: only the listed instructions raise RANGE, only the loads and stores raise DADDR, and no other
instruction faults. A CONST term with a reserved number, which no word decodes to, raises ILLEGAL: the
model's choice (log 6). -/
def Obligations.OnlyListedInstructionsFault : Prop :=
  (∀ (i : Instr) (s t : State), exec i s = .next t → s.status.fault = false → t.status.fault = true →
    (t.status.cause = .range ∧ Instr.mayRange i = true)
      ∨ (t.status.cause = .daddr ∧ Instr.mayDaddr i = true)
      ∨ (t.status.cause = .illegal ∧ i.wellFormed = false)) ∧
  (∀ (rd : BReg) (cid : ConstId) (s : State), 12 ≤ cid.val → FaultsWith (.const rd cid) .illegal s)

/-- R23: Z is written only by the seven modular instructions and T only by RCHK, BTST and PCHK; a
faulting instruction writes no flag. -/
def Obligations.FlagsWrittenOnlyByTheirInstructions : Prop :=
  ∀ (i : Instr) (s t : State), exec i s = .next t →
    (Instr.writesZ i = false → t.zFlag = s.zFlag) ∧ (Instr.writesT i = false → t.tFlag = s.tFlag)
      ∧ (s.status.fault = false → t.status.fault = true → KeepsFlags s t)

/-- R22, R25, R26, R40, R41: index registers are written only by LI, ADDI and DBRA, H only by HINIT,
HSET and HCOMP, RK only by KEXP, DMEM only by the stores, and IMEM by no instruction. -/
def Obligations.EachStateHasItsWriters : Prop :=
  ∀ (i : Instr) (s t : State), exec i s = .next t →
    (Instr.writesI i = false → KeepsI [] s t) ∧ (Instr.writesH i = false → KeepsH s t)
      ∧ (Instr.writesRk i = false → KeepsRk s t) ∧ (Instr.writesDmem i = false → KeepsBytes s t)
      ∧ KeepsImem s t

/-- R159: HALT is the only instruction that acts on the run state, faults apart: no other changes BUSY,
DONE, FPC or FINSN without faulting, and none at all writes CTRL or STATUS.HERR. -/
def Obligations.OnlyHaltActsOnRunState : Prop :=
  ∀ (i : Instr) (s t : State), exec i s = .next t →
    t.ctrl = s.ctrl ∧ t.status.herr = s.status.herr ∧ KeepsHost s t
      ∧ (i ≠ .halt → t.status.done = s.status.done)
      ∧ (i ≠ .halt → t.status ≠ s.status →
          t.status = { s.status with busy := false, fault := true, cause := t.status.cause })
      ∧ (i ≠ .halt → s.status.busy = true → t.status.busy = true →
          t.status = s.status ∧ t.fpc = s.fpc ∧ t.finsn = s.finsn)

/-! ## The host window -/

/-- R29, R30: START while Idle clears DONE, FAULT and CAUSE, takes IE and ENTRY from the written word, sets the
pc to ENTRY and BUSY to 1, and changes nothing else; START while Running starts nothing and sets HERR (IE
alone is taken from the word, R53). A write of CTRL while Idle with START = 0 takes IE and ENTRY from the
word and changes nothing else. -/
def Obligations.StartBeginsRun : Prop :=
  ∀ (s : State) (o : Offset) (d : Word) (rest : List HostEvent), s.rst = false →
    s.pending = .write o d :: rest → o.toNat / 4 = 1 →
    (s.status.busy = false → d.getLsbD 0 = false → step s = .next { s with
      pending := rest
      ctrl := { ie := d.getLsbD 1, entry := d.extractLsb' 8 8 } }) ∧
    (s.status.busy = false → d.getLsbD 0 = true → step s = .next { s with
      pending := rest
      ctrl := { ie := d.getLsbD 1, entry := d.extractLsb' 8 8 }
      status := { busy := true, done := false, fault := false, herr := s.status.herr, cause := .none }
      pc := (d.extractLsb' 8 8).setWidth 9 }) ∧
    (s.status.busy = true → d.getLsbD 0 = true → step s = .next { s with
      pending := rest
      ctrl := { s.ctrl with ie := d.getLsbD 1 }
      status := { s.status with herr := true } })

/-- R53: while Running every access to FLAGS, I0..I3, B, H, RK, IMEM or DMEM is refused: a write changes
nothing, a read returns 0, and either sets HERR. -/
def Obligations.RunningBlockRefusesState : Prop :=
  ∀ (s : State) (o : Offset) (rest : List HostEvent), s.rst = false → s.status.busy = true →
    ((0x14 ≤ o.toNat ∧ o.toNat < 0x18) ∨ (0x20 ≤ o.toNat ∧ o.toNat < 0x30)
      ∨ (0x100 ≤ o.toNat ∧ o.toNat < 0x320) ∨ (0x380 ≤ o.toNat ∧ o.toNat < 0x800) ∨ 0x1000 ≤ o.toNat) →
    (s.pending = .read o :: rest →
      step s = .next { s with
        pending := rest, answer := some 0, status := { s.status with herr := true } }) ∧
    (∀ d, s.pending = .write o d :: rest →
      step s = .next { s with pending := rest, status := { s.status with herr := true } })

/-- R53: while Running a write of CTRL updates IE and nothing else, and sets HERR if START is 1; a write
of STATUS applies its W1C bits; writes of ID, FPC, FINSN and reserved offsets are ignored; reads of ID,
CTRL, STATUS, FPC and FINSN are answered as always, with START 0. -/
def Obligations.RunningBlockAnswersControl : Prop :=
  ∀ (s : State) (o : Offset) (rest : List HostEvent), s.rst = false → s.status.busy = true →
    (∀ d, s.pending = .write o d :: rest → o.toNat / 4 = 1 →
      step s = .next { s with
        pending := rest, ctrl := { s.ctrl with ie := d.getLsbD 1 }
        status := { s.status with herr := s.status.herr || d.getLsbD 0 } }) ∧
    (∀ d, s.pending = .write o d :: rest → o.toNat / 4 = 2 →
      step s = .next { s with
        pending := rest
        status := { s.status with
          done := s.status.done && !d.getLsbD 1
          fault := s.status.fault && !d.getLsbD 2
          herr := s.status.herr && !d.getLsbD 3 } }) ∧
    (∀ d, s.pending = .write o d :: rest →
      (o.toNat < 4 ∨ (0xC ≤ o.toNat ∧ o.toNat < 0x14) ∨ (0x18 ≤ o.toNat ∧ o.toNat < 0x20)
        ∨ (0x30 ≤ o.toNat ∧ o.toNat < 0x100) ∨ (0x320 ≤ o.toNat ∧ o.toNat < 0x380)
        ∨ (0x800 ≤ o.toNat ∧ o.toNat < 0x1000)) →
      step s = .next { s with pending := rest }) ∧
    (s.pending = .read o :: rest → o.toNat < 0x14 →
      ∃ v, step s = .next { s with pending := rest, answer := some v }
        ∧ (o.toNat / 4 = 0 → v = 0x474D4331#32) ∧ (o.toNat / 4 = 1 → v = ctrlRead s.ctrl ∧ v.getLsbD 0 = false)
        ∧ (o.toNat / 4 = 2 → v = statusRead s.status) ∧ (o.toNat / 4 = 3 → v = s.fpc.setWidth 32)
        ∧ (o.toNat / 4 = 4 → v = s.finsn))

/-- R53, R54: no host access while Running changes a run in progress: the program's registers, flags,
memories and pc, ENTRY, BUSY, CAUSE, FPC and FINSN are as before, and nothing is drawn. -/
def Obligations.HostCannotChangeRun : Prop :=
  ∀ (s t : State) (e : HostEvent) (rest : List HostEvent), s.rst = false → s.status.busy = true →
    s.pending = e :: rest → (∃ o, e = .read o) ∨ (∃ o d, e = .write o d) → step s = .next t →
    KeepsProgramState s t ∧ t.ctrl.entry = s.ctrl.entry ∧ t.status.busy = true
      ∧ t.status.cause = s.status.cause ∧ t.fpc = s.fpc ∧ t.finsn = s.finsn ∧ t.rst = false
      ∧ t.pending = rest ∧ t.draws = s.draws

/-- R28, R36, R51: where each register and memory word stands in the window, read while Idle;
offset[1:0] is ignored; a DMEM word is big-endian; a read changes nothing but the host's side, and counts
the draws it makes for an IMEM word and for each DMEM byte never written (R48, log 1): such a byte of the
answer is a draw of this read, a different one for each byte. -/
def Obligations.IdleReadsFollowWindowMap : Prop :=
  ∀ (s : State) (o : Offset) (rest : List HostEvent), s.rst = false → s.status.busy = false →
    s.pending = .read o :: rest →
    (∀ (at_ : Nat) (v : Word), (at_, v) ∈ [(0x00, 0x474D4331#32), (0x04, ctrlRead s.ctrl),
        (0x08, statusRead s.status), (0x0C, s.fpc.setWidth 32), (0x10, s.finsn), (0x14, flagsRead s)] →
      o.toNat / 4 = at_ / 4 → step s = .next { s with pending := rest, answer := some v }) ∧
    (∀ k : IReg, o.toNat / 4 = (0x20 + 4 * k.val) / 4 →
      step s = .next { s with pending := rest, answer := some ((s.getI k).setWidth 32) }) ∧
    (∀ (r : BReg) (j : Fin 8), o.toNat / 4 = (0x100 + 32 * r.val + 4 * j.val) / 4 →
      step s = .next { s with
        pending := rest, answer := some ((s.getB r).extractLsb' (224 - 32 * j.val) 32) }) ∧
    (∀ j : Fin 8, o.toNat / 4 = (0x300 + 4 * j.val) / 4 →
      step s = .next { s with
        pending := rest, answer := some (s.hash.extractLsb' (224 - 32 * j.val) 32) }) ∧
    (∀ i : Fin 32, o.toNat / 4 = (0x380 + 4 * i.val) / 4 →
      step s = .next { s with pending := rest, answer := some (s.getRk i) }) ∧
    (∀ a : Fin 256, o.toNat / 4 = (0x400 + 4 * a.val) / 4 →
      (∀ w, Mem.get? s.imem a.val = some w →
        step s = .next { s with pending := rest, answer := some w }) ∧
      (Mem.get? s.imem a.val = none →
        step s = .next { s with
          pending := rest, answer := some (Config.freeWord s.draws), draws := s.draws + 1 })) ∧
    (∀ (w : Fin 1024) (b0 b1 b2 b3 : Byte), o.toNat / 4 = (0x1000 + 4 * w.val) / 4 →
      Mem.get? s.dmem (4 * w.val) = some b0 → Mem.get? s.dmem (4 * w.val + 1) = some b1 →
      Mem.get? s.dmem (4 * w.val + 2) = some b2 → Mem.get? s.dmem (4 * w.val + 3) = some b3 →
      step s = .next { s with pending := rest, answer := some (b0 ++ b1 ++ b2 ++ b3) }) ∧
    (∀ w : Fin 1024, o.toNat / 4 = (0x1000 + 4 * w.val) / 4 →
      ∃ (v : Word) (m : Nat) (draw : Nat → Nat),
        step s = .next { s with pending := rest, answer := some v, draws := m } ∧ s.draws ≤ m ∧
        ∀ j < 4, (∀ b, Mem.get? s.dmem (4 * w.val + j) = some b → byteOf v j = b) ∧
          (Mem.get? s.dmem (4 * w.val + j) = none →
            s.draws ≤ draw j ∧ draw j < m ∧ byteOf v j = Config.freeByte (draw j) ∧
            ∀ i < j, Mem.get? s.dmem (4 * w.val + i) = none → draw i < draw j))

/-- R36, R51, R52: while Idle a word of B, H, RK, IMEM or DMEM that the host writes is what it next reads
there; of an index register it reads bits 15:0, and of FLAGS bits 1:0. The write changes that one word and the
host's side only: every other word of the same register or memory, and every other piece of state, is as
before. -/
def Obligations.IdleWriteThenReadGivesWord : Prop :=
  (∀ (s : State) (o o' : Offset) (d : Word) (rest : List HostEvent), s.rst = false → s.status.busy = false →
    s.pending = .write o d :: .read o' :: rest → o'.toNat / 4 = o.toNat / 4 →
    ((0x100 ≤ o.toNat ∧ o.toNat < 0x320) ∨ (0x380 ≤ o.toNat ∧ o.toNat < 0x800) ∨ 0x1000 ≤ o.toNat →
      ∃ t u, step s = .next t ∧ step t = .next u ∧ u.answer = some d) ∧
    (0x20 ≤ o.toNat ∧ o.toNat < 0x30 →
      ∃ t u, step s = .next t ∧ step t = .next u ∧ u.answer = some (d &&& 0xFFFF#32)) ∧
    (o.toNat / 4 = 5 → ∃ t u, step s = .next t ∧ step t = .next u ∧ u.answer = some (d &&& 3#32))) ∧
  (∀ (s : State) (o : Offset) (d : Word) (rest : List HostEvent), s.rst = false → s.status.busy = false →
    s.pending = .write o d :: rest →
    (0x100 ≤ o.toNat ∧ o.toNat < 0x300 → ∃ t, step s = .next t
      ∧ t = { s with pending := rest, big := t.big }
      ∧ ∀ (r : BReg) (j : Fin 8), (0x100 + 32 * r.val + 4 * j.val) / 4 ≠ o.toNat / 4 →
          wordOf (t.getB r) j.val = wordOf (s.getB r) j.val) ∧
    (0x300 ≤ o.toNat ∧ o.toNat < 0x320 → ∃ t, step s = .next t
      ∧ t = { s with pending := rest, hash := t.hash }
      ∧ ∀ j : Fin 8, (0x300 + 4 * j.val) / 4 ≠ o.toNat / 4 → wordOf t.hash j.val = wordOf s.hash j.val) ∧
    (0x380 ≤ o.toNat ∧ o.toNat < 0x400 → ∃ t, step s = .next t
      ∧ t = { s with pending := rest, rk := t.rk }
      ∧ ∀ i : Fin 32, (0x380 + 4 * i.val) / 4 ≠ o.toNat / 4 → t.getRk i = s.getRk i) ∧
    (0x400 ≤ o.toNat ∧ o.toNat < 0x800 → ∃ t, step s = .next t
      ∧ t = { s with pending := rest, imem := t.imem }
      ∧ ∀ a : Nat, (0x400 + 4 * a) / 4 ≠ o.toNat / 4 → Mem.get? t.imem a = Mem.get? s.imem a) ∧
    (0x1000 ≤ o.toNat → ∃ t, step s = .next t
      ∧ t = { s with pending := rest, dmem := t.dmem }
      ∧ ∀ a : Nat, (0x1000 + a) / 4 ≠ o.toNat / 4 → Mem.get? t.dmem a = Mem.get? s.dmem a) ∧
    (0x20 ≤ o.toNat ∧ o.toNat < 0x30 → ∃ t, step s = .next t
      ∧ t = { s with pending := rest, idx := t.idx }
      ∧ ∀ k : IReg, (0x20 + 4 * k.val) / 4 ≠ o.toNat / 4 → t.getI k = s.getI k) ∧
    (o.toNat / 4 = 5 →
      step s = .next { s with pending := rest, zFlag := d.getLsbD 0, tFlag := d.getLsbD 1 }))

/-- R31, R52: while Idle reserved offsets read 0 and ignore writes without HERR, and RO words ignore writes; a
write of STATUS clears the W1C bits DONE, FAULT and HERR where the word has 1, and its RO bits BUSY and CAUSE and
all else ignore it. -/
def Obligations.ReadOnlyAndReservedIgnoreWrites : Prop :=
  ∀ (s : State) (o : Offset) (rest : List HostEvent), s.rst = false → s.status.busy = false →
    (∀ d, s.pending = .write o d :: rest →
      (o.toNat < 4 ∨ (0xC ≤ o.toNat ∧ o.toNat < 0x14) ∨ (0x18 ≤ o.toNat ∧ o.toNat < 0x20)
        ∨ (0x30 ≤ o.toNat ∧ o.toNat < 0x100) ∨ (0x320 ≤ o.toNat ∧ o.toNat < 0x380)
        ∨ (0x800 ≤ o.toNat ∧ o.toNat < 0x1000)) →
      step s = .next { s with pending := rest }) ∧
    (s.pending = .read o :: rest →
      ((0x18 ≤ o.toNat ∧ o.toNat < 0x20) ∨ (0x30 ≤ o.toNat ∧ o.toNat < 0x100)
        ∨ (0x320 ≤ o.toNat ∧ o.toNat < 0x380) ∨ (0x800 ≤ o.toNat ∧ o.toNat < 0x1000)) →
      step s = .next { s with pending := rest, answer := some 0 }) ∧
    (∀ d, s.pending = .write o d :: rest → o.toNat / 4 = 2 →
      step s = .next { s with
        pending := rest
        status := { s.status with
          done := s.status.done && !d.getLsbD 1
          fault := s.status.fault && !d.getLsbD 2
          herr := s.status.herr && !d.getLsbD 3 } })

/-- R29, R31, R34: the bits of CTRL, STATUS and FLAGS as the host reads them; reserved bits and START
read 0. -/
def Obligations.ControlWordLayout : Prop :=
  (∀ c : Ctrl, (ctrlRead c).getLsbD 0 = false ∧ (ctrlRead c).getLsbD 1 = c.ie
    ∧ (ctrlRead c).extractLsb' 2 6 = 0 ∧ (ctrlRead c).extractLsb' 8 8 = c.entry
    ∧ (ctrlRead c).extractLsb' 16 16 = 0) ∧
  (∀ st : Status, (statusRead st).getLsbD 0 = st.busy ∧ (statusRead st).getLsbD 1 = st.done
    ∧ (statusRead st).getLsbD 2 = st.fault ∧ (statusRead st).getLsbD 3 = st.herr
    ∧ (statusRead st).extractLsb' 4 4 = st.cause.code ∧ (statusRead st).extractLsb' 8 24 = 0) ∧
  (∀ s : State, (flagsRead s).getLsbD 0 = s.zFlag ∧ (flagsRead s).getLsbD 1 = s.tFlag
    ∧ (flagsRead s).extractLsb' 2 30 = 0) ∧
  (Cause.code .none = 0 ∧ Cause.code .illegal = 1 ∧ Cause.code .range = 2 ∧ Cause.code .daddr = 3
    ∧ Cause.code .fetch = 4)

/-- R156: irq rises with a stop of either kind (HALT, a fault of an instruction, ILLEGAL or FETCH) exactly where
IE is 1, and no other step of the core changes it. A host write of STATUS that clears whichever of DONE and FAULT
is set (never both, R31), an accepted START, and a write of CTRL with IE = 0 end it; a refused access does not
change it. -/
def Obligations.InterruptFollowsStops : Prop :=
  (∀ s : State, s.irq = (s.ctrl.ie && (s.status.done || s.status.fault))) ∧
  (∀ s t : State, s.pending = [] → s.rst = false → s.status.busy = true → step s = .next t →
    (t.status.busy = false → t.irq = s.ctrl.ie) ∧ (t.status.busy = true → t.irq = s.irq)) ∧
  (∀ s : State, ∃ t, exec .halt s = .next t ∧ t.status.busy = false ∧ t.irq = s.ctrl.ie) ∧
  (∀ (i : Instr) (s t : State), exec i s = .next t → s.status.fault = false → t.status.fault = true →
    t.irq = s.ctrl.ie) ∧
  (∀ (s : State) (o : Offset) (d : Word) (rest : List HostEvent), s.rst = false →
    s.pending = .write o d :: rest →
    (o.toNat / 4 = 2 → ∃ t, step s = .next t
      ∧ (s.status.fault = false → d.getLsbD 1 = true → t.irq = false)
      ∧ (s.status.done = false → d.getLsbD 2 = true → t.irq = false)
      ∧ (d.getLsbD 1 = false → d.getLsbD 2 = false → t.irq = s.irq)) ∧
    (o.toNat / 4 = 1 → ∃ t, step s = .next t
      ∧ (s.status.busy = false → d.getLsbD 0 = true → t.irq = false)
      ∧ (d.getLsbD 1 = false → t.irq = false))) ∧
  (∀ (s : State) (e : HostEvent) (o : Offset) (rest : List HostEvent), s.rst = false → s.status.busy = true →
    s.pending = e :: rest → (e = .read o ∨ ∃ d, e = .write o d) →
    ((0x14 ≤ o.toNat ∧ o.toNat < 0x18) ∨ (0x20 ≤ o.toNat ∧ o.toNat < 0x30)
      ∨ (0x100 ≤ o.toNat ∧ o.toNat < 0x320) ∨ (0x380 ≤ o.toNat ∧ o.toNat < 0x800) ∨ 0x1000 ≤ o.toNat) →
    ∃ t, step s = .next t ∧ t.irq = s.irq)

/-! ## Control -/

/-- R72, R74: NOP advances the pc, JMP sets it to its target, and nothing else changes. -/
def Obligations.NopAndJmpMoveOnlyPc : Prop :=
  OnlyWord .nop 0x04000000#32 ∧
  (∀ s : State, ∃ t, exec .nop s = .next t ∧ t.pc = s.pc + 1 ∧ OnlyPc s t) ∧
  (∀ tgt : BitVec 8, OnlyWord (.jmp tgt) (0x03#6 ++ 0#18 ++ tgt)) ∧
  (∀ (s : State) (tgt : BitVec 8), ∃ t, exec (.jmp tgt) s = .next t ∧ t.pc = tgt.setWidth 9 ∧ OnlyPc s t)

/-- R73, R170 (which DMEM bytes an observation holds: log 15): HALT stops Done: BUSY 0, DONE 1, FPC the pc, FINSN the HALT word, the pc stays, and irq rises if
IE is 1. The run's observation is then the stop Done with FPC, FINSN, CAUSE and the state the run leaves; while
Running there is none. -/
def Obligations.HaltStopsDone : Prop :=
  OnlyWord .halt 0x08000000#32 ∧
  ∀ s : State, ∃ t, exec .halt s = .next t ∧ KeepsProgramState s t ∧ KeepsHost s t ∧ t.ctrl = s.ctrl
    ∧ t.status = { s.status with busy := false, done := true } ∧ t.fpc = s.pc
    ∧ t.finsn = 0x08000000#32 ∧ t.draws = s.draws ∧ t.irq = s.ctrl.ie
    ∧ t.observation = some {
        kind := .done, fpc := s.pc, finsn := 0x08000000#32, cause := s.status.cause
        big := s.big, idx := s.idx, zFlag := s.zFlag, tFlag := s.tFlag, hash := s.hash, rk := s.rk
        dmem := s.dmem }
    ∧ (s.status.busy = true → s.observation = none)

/-- R75 to R78: BZ branches exactly when Z is 1 and BNZ exactly when Z is 0; BT and BNT do the same with
T; nothing but the pc changes. -/
def Obligations.ConditionalBranchesFollowFlags : Prop :=
  ∀ (tgt : BitVec 8),
    OnlyWord (.bz tgt) (0x04#6 ++ 0#18 ++ tgt) ∧ OnlyWord (.bnz tgt) (0x05#6 ++ 0#18 ++ tgt) ∧
    OnlyWord (.bt tgt) (0x06#6 ++ 0#18 ++ tgt) ∧ OnlyWord (.bnt tgt) (0x07#6 ++ 0#18 ++ tgt) ∧
    ∀ s : State,
      (∃ t, exec (.bz tgt) s = .next t ∧ OnlyPc s t
        ∧ (s.zFlag = true → t.pc = tgt.setWidth 9) ∧ (s.zFlag = false → t.pc = s.pc + 1)) ∧
      (∃ t, exec (.bnz tgt) s = .next t ∧ OnlyPc s t
        ∧ (s.zFlag = false → t.pc = tgt.setWidth 9) ∧ (s.zFlag = true → t.pc = s.pc + 1)) ∧
      (∃ t, exec (.bt tgt) s = .next t ∧ OnlyPc s t
        ∧ (s.tFlag = true → t.pc = tgt.setWidth 9) ∧ (s.tFlag = false → t.pc = s.pc + 1)) ∧
      (∃ t, exec (.bnt tgt) s = .next t ∧ OnlyPc s t
        ∧ (s.tFlag = false → t.pc = tgt.setWidth 9) ∧ (s.tFlag = true → t.pc = s.pc + 1))

/-- R79: DBRA decrements modulo 2^16, writes the register whether or not it branches, and falls through
exactly when the register was 0 on entry, which leaves 0xFFFF. -/
def Obligations.DbraCountsDown : Prop :=
  ∀ (ix : IReg) (tgt : BitVec 8),
    OnlyWord (.dbra ix tgt) (0x08#6 ++ 0#8 ++ IReg.bits ix ++ 0#8 ++ tgt) ∧
    ∀ s : State, ∃ t, exec (.dbra ix tgt) s = .next t ∧ OnlyI ix s t
      ∧ (t.getI ix).toNat = ((s.getI ix).toNat + 65535) % 65536
      ∧ (s.getI ix = 0 → t.getI ix = 0xFFFF#16 ∧ t.pc = s.pc + 1)
      ∧ (s.getI ix ≠ 0 → t.pc = tgt.setWidth 9)

/-- R80, R81: LI writes its immediate and ADDI adds it modulo 2^16; no flag is written. -/
def Obligations.LiAndAddiWriteIndex : Prop :=
  ∀ (ix : IReg) (imm : BitVec 16),
    OnlyWord (.li ix imm) (0x09#6 ++ 0#8 ++ IReg.bits ix ++ imm) ∧
    OnlyWord (.addi ix imm) (0x0A#6 ++ 0#8 ++ IReg.bits ix ++ imm) ∧
    ∀ s : State,
      (∃ t, exec (.li ix imm) s = .next t ∧ t.getI ix = imm ∧ t.pc = s.pc + 1 ∧ OnlyI ix s t) ∧
      (∃ t, exec (.addi ix imm) s = .next t
        ∧ (t.getI ix).toNat = ((s.getI ix).toNat + imm.toNat) % 65536 ∧ t.pc = s.pc + 1 ∧ OnlyI ix s t)

/-- R82: BTST sets T to the bit of B[rs1] whose index is the low byte of I[ix]. -/
def Obligations.BtstTestsBit : Prop :=
  ∀ (rs1 : BReg) (ix : IReg),
    OnlyWord (.btst rs1 ix) (0x0B#6 ++ 0#4 ++ BReg.bits rs1 ++ IReg.bits ix ++ 0#16) ∧
    ∀ s : State, ∃ t, exec (.btst rs1 ix) s = .next t
      ∧ t.tFlag = (s.getB rs1).getLsbD ((s.getI ix).toNat % 256) ∧ t.pc = s.pc + 1 ∧ OnlyT s t

/-! ## Data movement -/

/-- R84: MOV copies the whole register. -/
def Obligations.MovCopiesRegister : Prop :=
  ∀ (rd rs1 : BReg), OnlyWord (.mov rd rs1) (0x10#6 ++ BReg.bits rd ++ BReg.bits rs1 ++ 0#18) ∧
    ∀ s : State, ∃ t, exec (.mov rd rs1) s = .next t ∧ t.getB rd = s.getB rs1 ∧ t.pc = s.pc + 1
      ∧ OnlyB [rd] s t

/-- R85, R86: CONST writes the constant of the table, and no flag; a reserved number is illegal at
decode. -/
def Obligations.ConstWritesTable : Prop :=
  ∀ (rd : BReg) (cid : ConstId),
    (cid.val ≤ 11 → OnlyWord (.const rd cid) (0x11#6 ++ BReg.bits rd ++ BReg.bits cid ++ 0#18)) ∧
    (12 ≤ cid.val →
      decode (0x11#6 ++ BReg.bits rd ++ BReg.bits cid ++ 0#18) = .illegal .reservedConstant) ∧
    ∀ s : State, cid.val ≤ 11 → ∃ t, exec (.const rd cid) s = .next t ∧ t.pc = s.pc + 1
        ∧ OnlyB [rd] s t ∧ some (t.getB rd) = [
          0x0000000000000000000000000000000000000000000000000000000000000000#256,
          0x0000000000000000000000000000000000000000000000000000000000000001#256,
          0xFFFFFFFEFFFFFFFFFFFFFFFFFFFFFFFFFFFFFFFF00000000FFFFFFFFFFFFFFFF#256,
          0xFFFFFFFEFFFFFFFFFFFFFFFFFFFFFFFF7203DF6B21C6052B53BBF40939D54123#256,
          0xFFFFFFFEFFFFFFFFFFFFFFFFFFFFFFFFFFFFFFFF00000000FFFFFFFFFFFFFFFC#256,
          0x28E9FA9E9D9F5E344D5A9E4BCF6509A7F39789F515AB8F92DDBCBD414D940E93#256,
          0x32C4AE2C1F1981195F9904466A39C9948FE30BBFF2660BE1715A4589334C74C7#256,
          0xBC3736A2F4F6779C59BDCEE36B692153D0A9877CC62A474002DF32E52139F0A0#256,
          0x0000000100000000000000000000000000000000FFFFFFFF0000000000000001#256,
          0x000000010000000000000000000000008DFC2094DE39FAD4AC440BF6C62ABEDD#256,
          0x0000000400000002000000010000000100000002FFFFFFFF0000000200000003#256,
          0x1EB5E412A22B3D3B620FC84C3AFFE0D43464504ADE6FA2FA901192AF7C114F20#256][cid.val]?

/-- R43, R83, R87, R89: LDW and LDQ in bounds load the bytes at EA, the byte at EA most significant; LDQ
clears bits 255:128. A byte never written since reset is a fresh free draw (R48). -/
def Obligations.LoadsReadBytes : Prop :=
  ∀ (rd : BReg) (imm : BitVec 12) (ix : IReg),
    OnlyWord (.ldw rd imm ix) (0x12#6 ++ BReg.bits rd ++ 0#4 ++ IReg.bits ix ++ 0#4 ++ imm) ∧
    OnlyWord (.ldq rd imm ix) (0x14#6 ++ BReg.bits rd ++ 0#4 ++ IReg.bits ix ++ 0#4 ++ imm) ∧
    ∀ (s : State) (ea : Nat), ea = (s.getI ix).toNat + imm.toNat →
      (ea + 32 ≤ 4096 → ∃ t, exec (.ldw rd imm ix) s = .next t ∧ t.pc = s.pc + 1 ∧ OnlyBDraws [rd] s t
        ∧ ∀ j < 32, (∀ b, Mem.get? s.dmem (ea + j) = some b → bigByte (t.getB rd) j = b)
          ∧ (Mem.get? s.dmem (ea + j) = none →
              ∃ n, s.draws ≤ n ∧ n < t.draws ∧ bigByte (t.getB rd) j = Config.freeByte n)) ∧
      (ea + 16 ≤ 4096 → ∃ t, exec (.ldq rd imm ix) s = .next t ∧ t.pc = s.pc + 1 ∧ OnlyBDraws [rd] s t
        ∧ (t.getB rd).extractLsb' 128 128 = 0
        ∧ ∀ j < 16, (∀ b, Mem.get? s.dmem (ea + j) = some b →
              blockByte ((t.getB rd).extractLsb' 0 128) j = b)
          ∧ (Mem.get? s.dmem (ea + j) = none →
              ∃ n, s.draws ≤ n ∧ n < t.draws
                ∧ blockByte ((t.getB rd).extractLsb' 0 128) j = Config.freeByte n))

/-- R44, R83, R88, R90: STW and STQ in bounds store the bytes of B[rd], or of its low half, most
significant at EA, and no other byte changes. -/
def Obligations.StoresWriteBytes : Prop :=
  ∀ (rd : BReg) (imm : BitVec 12) (ix : IReg),
    OnlyWord (.stw rd imm ix) (0x13#6 ++ BReg.bits rd ++ 0#4 ++ IReg.bits ix ++ 0#4 ++ imm) ∧
    OnlyWord (.stq rd imm ix) (0x15#6 ++ BReg.bits rd ++ 0#4 ++ IReg.bits ix ++ 0#4 ++ imm) ∧
    ∀ (s : State), s.ea imm ix = (s.getI ix).toNat + imm.toNat ∧
      (s.ea imm ix + 32 ≤ 4096 → ∃ t, exec (.stw rd imm ix) s = .next t ∧ t.pc = s.pc + 1
        ∧ OnlyBytes (s.ea imm ix) 32 s t
        ∧ ∀ j < 32, Mem.get? t.dmem (s.ea imm ix + j) = some (bigByte (s.getB rd) j)) ∧
      (s.ea imm ix + 16 ≤ 4096 → ∃ t, exec (.stq rd imm ix) s = .next t ∧ t.pc = s.pc + 1
        ∧ OnlyBytes (s.ea imm ix) 16 s t
        ∧ ∀ j < 16, Mem.get? t.dmem (s.ea imm ix + j)
            = some (blockByte ((s.getB rd).extractLsb' 0 128) j))

/-- R42, R55: a load of the bytes just stored gives the stored value: LDW after STW the whole register,
LDQ after STW its upper half, LDQ after STQ its lower half; each wherever its accesses are in bounds. -/
def Obligations.LoadAfterStoreGivesValue : Prop :=
  ∀ (s : State) (ra rb : BReg) (imm : BitVec 12) (ix : IReg),
    (s.ea imm ix + 32 ≤ 4096 →
      (∃ t u, exec (.stw ra imm ix) s = .next t ∧ exec (.ldw rb imm ix) t = .next u
        ∧ u.getB rb = s.getB ra ∧ u.draws = s.draws) ∧
      (∃ t u, exec (.stw ra imm ix) s = .next t ∧ exec (.ldq rb imm ix) t = .next u
        ∧ u.getB rb = ((s.getB ra).extractLsb' 128 128).setWidth 256 ∧ u.draws = s.draws)) ∧
    (s.ea imm ix + 16 ≤ 4096 →
      ∃ t u, exec (.stq ra imm ix) s = .next t ∧ exec (.ldq rb imm ix) t = .next u
        ∧ u.getB rb = ((s.getB ra).extractLsb' 0 128).setWidth 256 ∧ u.draws = s.draws)

/-- R46, R83: a load or store of n bytes with EA + n > 4096 raises DADDR with no effect; the sum does not
wrap. -/
def Obligations.OutOfBoundsRaisesDaddr : Prop :=
  ∀ (s : State) (rd : BReg) (imm : BitVec 12) (ix : IReg),
    (4096 < (s.getI ix).toNat + imm.toNat + 32 →
      FaultsWith (.ldw rd imm ix) .daddr s ∧ FaultsWith (.stw rd imm ix) .daddr s) ∧
    (4096 < (s.getI ix).toNat + imm.toNat + 16 →
      FaultsWith (.ldq rd imm ix) .daddr s ∧ FaultsWith (.stq rd imm ix) .daddr s)

/-! ## The modular unit -/

/-- R93, R95, R96: MADD and MSUB of in-range operands are exact modulo M, with the remainder in
[0, M−1] even when a < b, and set Z exactly for 0. -/
def Obligations.AddAndSubAreModular : Prop :=
  ∀ (rd rs1 rs2 : BReg) (m : Modulus),
    OnlyWord (.madd rd rs1 rs2 m)
      (0x18#6 ++ BReg.bits rd ++ BReg.bits rs1 ++ BReg.bits rs2 ++ m.bit ++ 0#13) ∧
    OnlyWord (.msub rd rs1 rs2 m)
      (0x19#6 ++ BReg.bits rd ++ BReg.bits rs1 ++ BReg.bits rs2 ++ m.bit ++ 0#13) ∧
    ∀ s : State, s.getBNat rs1 < modulusValue m → s.getBNat rs2 < modulusValue m →
      (∃ t, exec (.madd rd rs1 rs2 m) s = .next t ∧ t.pc = s.pc + 1 ∧ OnlyBZ rd s t
        ∧ (t.getBNat rd : Int) = ((s.getBNat rs1 : Int) + s.getBNat rs2) % modulusValue m
        ∧ (t.zFlag = true ↔ t.getBNat rd = 0)) ∧
      (∃ t, exec (.msub rd rs1 rs2 m) s = .next t ∧ t.pc = s.pc + 1 ∧ OnlyBZ rd s t
        ∧ (t.getBNat rd : Int) = ((s.getBNat rs1 : Int) - s.getBNat rs2) % modulusValue m
        ∧ (t.zFlag = true ↔ t.getBNat rd = 0))

/-- R93, R97: MMUL of in-range operands is `a · b · R⁻¹ mod M`, for whichever number R⁻¹ is the inverse
of R = 2^256 modulo M, and sets Z exactly for 0. -/
def Obligations.MmulIsMontgomeryProduct : Prop :=
  ∀ (rd rs1 rs2 : BReg) (m : Modulus),
    OnlyWord (.mmul rd rs1 rs2 m)
      (0x1A#6 ++ BReg.bits rd ++ BReg.bits rs1 ++ BReg.bits rs2 ++ m.bit ++ 0#13) ∧
    ∀ s : State, s.getBNat rs1 < modulusValue m → s.getBNat rs2 < modulusValue m →
      ∃ t, exec (.mmul rd rs1 rs2 m) s = .next t ∧ t.pc = s.pc + 1 ∧ OnlyBZ rd s t
        ∧ t.getBNat rd < modulusValue m
        ∧ t.getBNat rd * 2 ^ 256 % modulusValue m = s.getBNat rs1 * s.getBNat rs2 % modulusValue m
        ∧ (∀ rinv, rinv * 2 ^ 256 % modulusValue m = 1 →
            t.getBNat rd = s.getBNat rs1 * s.getBNat rs2 * rinv % modulusValue m)
        ∧ (t.zFlag = true ↔ t.getBNat rd = 0)

/-- R93, R98: MINV of an in-range operand always completes; it gives 0 for 0, and `R² · a⁻¹ mod M` for
whichever number is the inverse of a modulo M. -/
def Obligations.MinvIsMontgomeryInverse : Prop :=
  ∀ (rd rs1 : BReg) (m : Modulus),
    OnlyWord (.minv rd rs1 m) (0x1B#6 ++ BReg.bits rd ++ BReg.bits rs1 ++ 0#4 ++ m.bit ++ 0#13) ∧
    ∀ s : State, s.getBNat rs1 < modulusValue m →
      ∃ t, exec (.minv rd rs1 m) s = .next t ∧ t.pc = s.pc + 1 ∧ OnlyBZ rd s t
        ∧ t.getBNat rd < modulusValue m
        ∧ (s.getBNat rs1 = 0 → t.getBNat rd = 0)
        ∧ (∀ ainv, s.getBNat rs1 * ainv % modulusValue m = 1 →
            t.getBNat rd = 2 ^ 256 * 2 ^ 256 * ainv % modulusValue m)
        ∧ (t.zFlag = true ↔ t.getBNat rd = 0)

/-- R93, R99, R102: MRED reduces any value modulo M and sets Z exactly for 0; RCHK sets T exactly when
0 < v < M; neither ever faults. -/
def Obligations.MredAndRchkTakeAnyValue : Prop :=
  ∀ (rd rs1 : BReg) (m : Modulus),
    OnlyWord (.mred rd rs1 m) (0x1C#6 ++ BReg.bits rd ++ BReg.bits rs1 ++ 0#4 ++ m.bit ++ 0#13) ∧
    OnlyWord (.rchk rs1 m) (0x1F#6 ++ 0#4 ++ BReg.bits rs1 ++ 0#4 ++ m.bit ++ 0#13) ∧
    ∀ s : State,
      (∃ t, exec (.mred rd rs1 m) s = .next t ∧ t.pc = s.pc + 1 ∧ OnlyBZ rd s t
        ∧ t.getBNat rd = s.getBNat rs1 % modulusValue m ∧ (t.zFlag = true ↔ t.getBNat rd = 0)
        ∧ (t.getBNat rd = s.getBNat rs1 ∨ t.getBNat rd + modulusValue m = s.getBNat rs1)) ∧
      (∃ t, exec (.rchk rs1 m) s = .next t ∧ t.pc = s.pc + 1 ∧ OnlyT s t
        ∧ (t.tFlag = true ↔ 0 < s.getBNat rs1 ∧ s.getBNat rs1 < modulusValue m))

/-- R93, R100, R101: TOM and FROMM of an in-range operand multiply by R and by R⁻¹ modulo M; they are the
products MMUL gives with R² mod M and with 1; and FROMM after TOM gives the operand back. -/
def Obligations.TomAndFrommConvert : Prop :=
  ∀ (rd rs1 : BReg) (m : Modulus),
    OnlyWord (.tom rd rs1 m) (0x1D#6 ++ BReg.bits rd ++ BReg.bits rs1 ++ 0#4 ++ m.bit ++ 0#13) ∧
    OnlyWord (.fromm rd rs1 m) (0x1E#6 ++ BReg.bits rd ++ BReg.bits rs1 ++ 0#4 ++ m.bit ++ 0#13) ∧
    ∀ s : State, s.getBNat rs1 < modulusValue m →
      (∃ t, exec (.tom rd rs1 m) s = .next t ∧ t.pc = s.pc + 1 ∧ OnlyBZ rd s t
        ∧ t.getBNat rd = s.getBNat rs1 * 2 ^ 256 % modulusValue m ∧ (t.zFlag = true ↔ s.getBNat rs1 = 0)
        ∧ (∀ rx : BReg, s.getBNat rx = 2 ^ 256 * 2 ^ 256 % modulusValue m →
            exec (.mmul rd rs1 rx m) s = .next t)
        ∧ ∃ u, exec (.fromm rd rd m) t = .next u ∧ u.getB rd = s.getB rs1) ∧
      (∃ t, exec (.fromm rd rs1 m) s = .next t ∧ t.pc = s.pc + 1 ∧ OnlyBZ rd s t
        ∧ t.getBNat rd < modulusValue m
        ∧ t.getBNat rd * 2 ^ 256 % modulusValue m = s.getBNat rs1
        ∧ (∀ rinv, rinv * 2 ^ 256 % modulusValue m = 1 →
            t.getBNat rd = s.getBNat rs1 * rinv % modulusValue m)
        ∧ (t.zFlag = true ↔ t.getBNat rd = 0)
        ∧ (∀ rx : BReg, s.getBNat rx = 1 → exec (.mmul rd rs1 rx m) s = .next t))

/-- R92: an operand of MADD, MSUB, MMUL, MINV, TOM or FROMM that is not below its modulus raises RANGE
with no effect. -/
def Obligations.OutOfRangeRaisesRange : Prop :=
  ∀ (s : State) (rd rs1 rs2 : BReg) (m : Modulus),
    (modulusValue m ≤ s.getBNat rs1 ∨ modulusValue m ≤ s.getBNat rs2 →
      FaultsWith (.madd rd rs1 rs2 m) .range s ∧ FaultsWith (.msub rd rs1 rs2 m) .range s
        ∧ FaultsWith (.mmul rd rs1 rs2 m) .range s) ∧
    (modulusValue m ≤ s.getBNat rs1 →
      FaultsWith (.minv rd rs1 m) .range s ∧ FaultsWith (.tom rd rs1 m) .range s
        ∧ FaultsWith (.fromm rd rs1 m) .range s)

/-! ## The point unit -/

/-- R108: PGEN writes the generator in Montgomery form to the three registers of its slot, and PCHK of
that slot then finds it on the curve. -/
def Obligations.PgenLoadsGenerator : Prop :=
  ∀ sd : Slot, OnlyWord (.pgen sd) (0x20#6 ++ Slot.bits sd ++ 0#24) ∧
    ∀ s : State, ∃ t, exec (.pgen sd) s = .next t ∧ t.pc = s.pc + 1
      ∧ OnlyB [slotX sd, slotY sd, slotZ sd] s t
      ∧ t.getB (slotX sd) = 0x91167A5EE1C13B05D6A1ED99AC24C3C33E7981EDDCA6C05061328990F418029E#256
      ∧ t.getB (slotY sd) = 0x63CD65D481D735BD8D4CFB066E2A48F8C1F5E5788D3295FAC1354E593C2D0DDD#256
      ∧ t.getB (slotZ sd) = 0x0000000100000000000000000000000000000000FFFFFFFF0000000000000001#256
      ∧ ∃ u, exec (.pchk sd) t = .next u ∧ u.tFlag = true

/-- R104, R105, R107, R109: PDBL of in-range coordinates. X, Y, Z are the field elements whose Montgomery
forms the source slot holds: an input with Z = 0, or a result with Z3 = 0, gives the canonical O; any
other gives the formulas' triple, each coordinate reduced and in Montgomery form. -/
def Obligations.PdblFollowsFormulas : Prop :=
  ∀ (sd ss1 : Slot),
    OnlyWord (.pdbl sd ss1) (0x21#6 ++ Slot.bits sd ++ 0#2 ++ Slot.bits ss1 ++ 0#20) ∧
    ∀ s : State, s.getBNat (slotX ss1) < curveP → s.getBNat (slotY ss1) < curveP →
      s.getBNat (slotZ ss1) < curveP →
      ∃ t, exec (.pdbl sd ss1) s = .next t ∧ t.pc = s.pc + 1
        ∧ OnlyB [slotX sd, slotY sd, slotZ sd] s t
        ∧ ∀ X Y Z : ZMod curveP, (s.getBNat (slotX ss1) : ZMod curveP) = 2 ^ 256 * X →
            (s.getBNat (slotY ss1) : ZMod curveP) = 2 ^ 256 * Y →
            (s.getBNat (slotZ ss1) : ZMod curveP) = 2 ^ 256 * Z →
          ∀ delta gamma beta alpha X3 Y3 Z3 : ZMod curveP,
            delta = Z ^ 2 → gamma = Y ^ 2 → beta = X * gamma → alpha = 3 * (X - delta) * (X + delta) →
            X3 = alpha ^ 2 - 8 * beta → Z3 = (Y + Z) ^ 2 - gamma - delta →
            Y3 = alpha * (4 * beta - X3) - 8 * gamma ^ 2 →
            (Z = 0 ∨ Z3 = 0 → t.getBNat (slotX sd) = rModP ∧ t.getBNat (slotY sd) = rModP
              ∧ t.getBNat (slotZ sd) = 0) ∧
            (Z ≠ 0 → Z3 ≠ 0 → t.getBNat (slotX sd) < curveP ∧ t.getBNat (slotY sd) < curveP
              ∧ t.getBNat (slotZ sd) < curveP
              ∧ (t.getBNat (slotX sd) : ZMod curveP) = 2 ^ 256 * X3
              ∧ (t.getBNat (slotY sd) : ZMod curveP) = 2 ^ 256 * Y3
              ∧ (t.getBNat (slotZ sd) : ZMod curveP) = 2 ^ 256 * Z3)

/-- R104, R105, R107, R110: PADD of in-range coordinates: O + O is the canonical O; O + Q and P + O copy
the finite point's registers bit for bit; equal points are doubled as PDBL doubles the first; opposite
points give the canonical O; and any others give the formulas' triple. -/
def Obligations.PaddFollowsFormulas : Prop :=
  ∀ (sd ss1 ss2 : Slot),
    OnlyWord (.padd sd ss1 ss2)
      (0x22#6 ++ Slot.bits sd ++ 0#2 ++ Slot.bits ss1 ++ 0#2 ++ Slot.bits ss2 ++ 0#16) ∧
    ∀ s : State, s.getBNat (slotX ss1) < curveP → s.getBNat (slotY ss1) < curveP →
      s.getBNat (slotZ ss1) < curveP → s.getBNat (slotX ss2) < curveP → s.getBNat (slotY ss2) < curveP →
      s.getBNat (slotZ ss2) < curveP →
      ∃ t, exec (.padd sd ss1 ss2) s = .next t ∧ t.pc = s.pc + 1
        ∧ OnlyB [slotX sd, slotY sd, slotZ sd] s t
        ∧ (s.getBNat (slotZ ss1) = 0 → s.getBNat (slotZ ss2) = 0 → t.getBNat (slotX sd) = rModP
            ∧ t.getBNat (slotY sd) = rModP ∧ t.getBNat (slotZ sd) = 0)
        ∧ (s.getBNat (slotZ ss1) = 0 → s.getBNat (slotZ ss2) ≠ 0 →
            t.getB (slotX sd) = s.getB (slotX ss2) ∧ t.getB (slotY sd) = s.getB (slotY ss2)
              ∧ t.getB (slotZ sd) = s.getB (slotZ ss2))
        ∧ (s.getBNat (slotZ ss1) ≠ 0 → s.getBNat (slotZ ss2) = 0 →
            t.getB (slotX sd) = s.getB (slotX ss1) ∧ t.getB (slotY sd) = s.getB (slotY ss1)
              ∧ t.getB (slotZ sd) = s.getB (slotZ ss1))
        ∧ ∀ X1 Y1 Z1 X2 Y2 Z2 : ZMod curveP,
            (s.getBNat (slotX ss1) : ZMod curveP) = 2 ^ 256 * X1 →
            (s.getBNat (slotY ss1) : ZMod curveP) = 2 ^ 256 * Y1 →
            (s.getBNat (slotZ ss1) : ZMod curveP) = 2 ^ 256 * Z1 →
            (s.getBNat (slotX ss2) : ZMod curveP) = 2 ^ 256 * X2 →
            (s.getBNat (slotY ss2) : ZMod curveP) = 2 ^ 256 * Y2 →
            (s.getBNat (slotZ ss2) : ZMod curveP) = 2 ^ 256 * Z2 → Z1 ≠ 0 → Z2 ≠ 0 →
          ∀ U1 U2 S1 S2 H r I J V X3 Y3 Z3 : ZMod curveP,
            U1 = X1 * Z2 ^ 2 → U2 = X2 * Z1 ^ 2 → S1 = Y1 * Z2 * Z2 ^ 2 → S2 = Y2 * Z1 * Z1 ^ 2 →
            H = U2 - U1 → r = 2 * (S2 - S1) → I = (2 * H) ^ 2 → J = H * I → V = U1 * I →
            X3 = r ^ 2 - J - 2 * V → Y3 = r * (V - X3) - 2 * S1 * J →
            Z3 = ((Z1 + Z2) ^ 2 - Z1 ^ 2 - Z2 ^ 2) * H →
            (H = 0 → r = 0 → ∃ u, exec (.pdbl sd ss1) s = .next u
              ∧ t.getB (slotX sd) = u.getB (slotX sd) ∧ t.getB (slotY sd) = u.getB (slotY sd)
              ∧ t.getB (slotZ sd) = u.getB (slotZ sd)) ∧
            (H = 0 → r ≠ 0 → t.getBNat (slotX sd) = rModP ∧ t.getBNat (slotY sd) = rModP
              ∧ t.getBNat (slotZ sd) = 0) ∧
            (H ≠ 0 → t.getBNat (slotX sd) < curveP ∧ t.getBNat (slotY sd) < curveP
              ∧ t.getBNat (slotZ sd) < curveP
              ∧ (t.getBNat (slotX sd) : ZMod curveP) = 2 ^ 256 * X3
              ∧ (t.getBNat (slotY sd) : ZMod curveP) = 2 ^ 256 * Y3
              ∧ (t.getBNat (slotZ sd) : ZMod curveP) = 2 ^ 256 * Z3)

/-- R111: PCHK of in-range coordinates sets T exactly for a finite point of the curve
Y² = X³ + a·X·Z⁴ + b·Z⁶. -/
def Obligations.PchkTestsCurve : Prop :=
  ∀ ss1 : Slot, OnlyWord (.pchk ss1) (0x23#6 ++ 0#4 ++ Slot.bits ss1 ++ 0#20) ∧
    ∀ s : State, s.getBNat (slotX ss1) < curveP → s.getBNat (slotY ss1) < curveP →
      s.getBNat (slotZ ss1) < curveP →
      ∃ t, exec (.pchk ss1) s = .next t ∧ t.pc = s.pc + 1 ∧ OnlyT s t
        ∧ ∀ X Y Z : ZMod curveP, (s.getBNat (slotX ss1) : ZMod curveP) = 2 ^ 256 * X →
            (s.getBNat (slotY ss1) : ZMod curveP) = 2 ^ 256 * Y →
            (s.getBNat (slotZ ss1) : ZMod curveP) = 2 ^ 256 * Z →
          (t.tFlag = true ↔ Z ≠ 0 ∧ Y ^ 2 = X ^ 3 + (curveP - 3) * X * Z ^ 4 + curveB * Z ^ 6)

/-- R106: a coordinate of any source slot that is not below P raises RANGE with no effect. -/
def Obligations.PointOutOfRangeRaisesRange : Prop :=
  ∀ (s : State) (sd ss1 ss2 : Slot),
    (curveP ≤ s.getBNat (slotX ss1) ∨ curveP ≤ s.getBNat (slotY ss1) ∨ curveP ≤ s.getBNat (slotZ ss1) →
      FaultsWith (.pdbl sd ss1) .range s ∧ FaultsWith (.pchk ss1) .range s
        ∧ FaultsWith (.padd sd ss1 ss2) .range s ∧ FaultsWith (.padd sd ss2 ss1) .range s)

/-- R109, R111: doubling keeps to the curve: if PCHK finds the source slot on the curve, PDBL leaves the
destination slot at the canonical O or at a point that PCHK finds on the curve. -/
def Obligations.DoublingKeepsCurve : Prop :=
  ∀ (s c : State) (sd ss1 : Slot), s.slotInRange ss1 = true → exec (.pchk ss1) s = .next c →
    c.tFlag = true →
    ∃ t, exec (.pdbl sd ss1) s = .next t
      ∧ ((t.getBNat (slotX sd) = rModP ∧ t.getBNat (slotY sd) = rModP ∧ t.getBNat (slotZ sd) = 0)
        ∨ ∃ u, exec (.pchk sd) t = .next u ∧ u.status = t.status ∧ u.tFlag = true)

/-! ## The hash unit -/

/-- R114, R120, R121, R122: HINIT loads the initial value, HSET loads H from a register and HGET copies H
to a register; an HGET later restored by HSET gives the same H back. -/
def Obligations.HashRegisterMoves : Prop :=
  OnlyWord .hinit 0xA0000000#32 ∧
  (∀ r : BReg, OnlyWord (.hset r) (0x29#6 ++ 0#4 ++ BReg.bits r ++ 0#18)
    ∧ OnlyWord (.hget r) (0x2A#6 ++ BReg.bits r ++ 0#22)) ∧
  ∀ s : State,
    (∃ t, exec .hinit s = .next t ∧ t.pc = s.pc + 1 ∧ OnlyH s t
      ∧ t.hash = 0x7380166F#32 ++ 0x4914B2B9#32 ++ 0x172442D7#32 ++ 0xDA8A0600#32 ++ 0xA96F30BC#32
        ++ 0x163138AA#32 ++ 0xE38DEE4D#32 ++ 0xB0FB0E4E#32) ∧
    (∀ r : BReg, ∃ t, exec (.hset r) s = .next t ∧ t.pc = s.pc + 1 ∧ OnlyH s t ∧ t.hash = s.getB r) ∧
    (∀ r : BReg, ∃ t, exec (.hget r) s = .next t ∧ t.pc = s.pc + 1 ∧ OnlyB [r] s t ∧ t.getB r = s.hash
      ∧ ∀ u : State, u.getB r = t.getB r → ∃ v, exec (.hset r) u = .next v ∧ v.hash = s.hash)

/-- R115 to R119, R123: HCOMP replaces H by the compression of H with the block B[rs1] ‖ B[rs2], for
whichever words W and working registers V satisfy the expansion and the 64 rounds. -/
def Obligations.HcompCompresses : Prop :=
  ∀ (rs1 rs2 : BReg),
    OnlyWord (.hcomp rs1 rs2) (0x2B#6 ++ 0#4 ++ BReg.bits rs1 ++ BReg.bits rs2 ++ 0#14) ∧
    ∀ s : State, ∃ t, exec (.hcomp rs1 rs2) s = .next t ∧ t.pc = s.pc + 1 ∧ OnlyH s t ∧
      ∀ (W : Nat → Word) (V : Nat → HashRegs),
        (∀ j < 8, W j = wordOf (s.getB rs1) j ∧ W (j + 8) = wordOf (s.getB rs2) j) →
        (∀ i < 52, ∀ x, x = W i ^^^ W (i + 7) ^^^ (W (i + 13)).rotateLeft 15 →
          W (i + 16) = x ^^^ x.rotateLeft 15 ^^^ x.rotateLeft 23 ^^^ (W (i + 3)).rotateLeft 7
            ^^^ W (i + 10)) →
        V 0 = ⟨wordOf s.hash 0, wordOf s.hash 1, wordOf s.hash 2, wordOf s.hash 3,
          wordOf s.hash 4, wordOf s.hash 5, wordOf s.hash 6, wordOf s.hash 7⟩ →
        (∀ j < 64, ∀ (tj ss1 ss2 tt1 tt2 : Word),
          tj = (if j ≤ 15 then 0x79CC4519#32 else 0x7A879D8A#32) →
          ss1 = ((V j).a.rotateLeft 12 + (V j).e + tj.rotateLeft (j % 32)).rotateLeft 7 →
          ss2 = ss1 ^^^ (V j).a.rotateLeft 12 →
          tt1 = (if j ≤ 15 then (V j).a ^^^ (V j).b ^^^ (V j).c
              else ((V j).a &&& (V j).b) ||| ((V j).a &&& (V j).c) ||| ((V j).b &&& (V j).c))
            + (V j).d + ss2 + (W j ^^^ W (j + 4)) →
          tt2 = (if j ≤ 15 then (V j).e ^^^ (V j).f ^^^ (V j).g
              else ((V j).e &&& (V j).f) ||| (~~~(V j).e &&& (V j).g))
            + (V j).h + ss1 + W j →
          V (j + 1) = ⟨tt1, (V j).a, (V j).b.rotateLeft 9, (V j).c,
            tt2 ^^^ tt2.rotateLeft 9 ^^^ tt2.rotateLeft 17, (V j).e, (V j).f.rotateLeft 19, (V j).g⟩) →
        t.hash = ((V 64).a ^^^ (V 0).a) ++ ((V 64).b ^^^ (V 0).b) ++ ((V 64).c ^^^ (V 0).c)
          ++ ((V 64).d ^^^ (V 0).d) ++ ((V 64).e ^^^ (V 0).e) ++ ((V 64).f ^^^ (V 0).f)
          ++ ((V 64).g ^^^ (V 0).g) ++ ((V 64).h ^^^ (V 0).h)

/-- R117, R124, R125: HP0 and HP1 apply P0 and P1 to each of the eight words. -/
def Obligations.HashPermutationsAreLaneWise : Prop :=
  ∀ (rd rs1 : BReg),
    OnlyWord (.hp0 rd rs1) (0x2C#6 ++ BReg.bits rd ++ BReg.bits rs1 ++ 0#18) ∧
    OnlyWord (.hp1 rd rs1) (0x2D#6 ++ BReg.bits rd ++ BReg.bits rs1 ++ 0#18) ∧
    ∀ s : State,
      (∃ t, exec (.hp0 rd rs1) s = .next t ∧ t.pc = s.pc + 1 ∧ OnlyB [rd] s t
        ∧ ∀ j < 8, ∀ x, x = wordOf (s.getB rs1) j →
          wordOf (t.getB rd) j = x ^^^ x.rotateLeft 9 ^^^ x.rotateLeft 17) ∧
      (∃ t, exec (.hp1 rd rs1) s = .next t ∧ t.pc = s.pc + 1 ∧ OnlyB [rd] s t
        ∧ ∀ j < 8, ∀ x, x = wordOf (s.getB rs1) j →
          wordOf (t.getB rd) j = x ^^^ x.rotateLeft 15 ^^^ x.rotateLeft 23)

/-! ## The cipher unit -/

/-- R129, R130, R133, R135: KEXP writes RK[i] = k[i+4] for whichever words k satisfy the key recurrence
from the low 128 bits of B[rs1], with FK and CK as the rules give them. -/
def Obligations.KexpFollowsRecurrence : Prop :=
  ∀ rs1 : BReg, OnlyWord (.kexp rs1) (0x30#6 ++ 0#4 ++ BReg.bits rs1 ++ 0#18) ∧
    ∀ s : State, ∃ t, exec (.kexp rs1) s = .next t ∧ t.pc = s.pc + 1 ∧ OnlyRk s t ∧
      ∀ (k CK : Nat → Word),
        (∀ i < 32, ∀ j < 4, byteOf (CK i) j = BitVec.ofNat 8 ((4 * i + j) * 7 % 256)) →
        k 0 = (s.getB rs1).extractLsb' 96 32 ^^^ 0xA3B1BAC6#32 →
        k 1 = (s.getB rs1).extractLsb' 64 32 ^^^ 0x56AA3350#32 →
        k 2 = (s.getB rs1).extractLsb' 32 32 ^^^ 0x677D9197#32 →
        k 3 = (s.getB rs1).extractLsb' 0 32 ^^^ 0xB27022DC#32 →
        (∀ i < 32, ∀ x, x = tau (k (i + 1) ^^^ k (i + 2) ^^^ k (i + 3) ^^^ CK i) →
          k (i + 4) = k i ^^^ (x ^^^ x.rotateLeft 13 ^^^ x.rotateLeft 23)) →
        ∀ i : Fin 32, t.getRk i = k (i.val + 4)

/-- R132, R136, R137: ENC and DEC write X35 ‖ X34 ‖ X33 ‖ X32, zero-extended, for whichever words X
satisfy the cipher recurrence from the low 128 bits of B[rs1], with RK in order for ENC and in reverse
order for DEC. -/
def Obligations.CipherFollowsRecurrence : Prop :=
  ∀ (rd rs1 : BReg),
    OnlyWord (.enc rd rs1) (0x31#6 ++ BReg.bits rd ++ BReg.bits rs1 ++ 0#18) ∧
    OnlyWord (.dec rd rs1) (0x32#6 ++ BReg.bits rd ++ BReg.bits rs1 ++ 0#18) ∧
    ∀ s : State,
      ∃ t u, exec (.enc rd rs1) s = .next t ∧ t.pc = s.pc + 1 ∧ OnlyB [rd] s t
        ∧ exec (.dec rd rs1) s = .next u ∧ u.pc = s.pc + 1 ∧ OnlyB [rd] s u ∧
      ∀ X : Nat → Word, X 0 = (s.getB rs1).extractLsb' 96 32 → X 1 = (s.getB rs1).extractLsb' 64 32 →
        X 2 = (s.getB rs1).extractLsb' 32 32 → X 3 = (s.getB rs1).extractLsb' 0 32 →
        ((∀ i : Fin 32, ∀ x, x = tau (X (i.val + 1) ^^^ X (i.val + 2) ^^^ X (i.val + 3) ^^^ s.getRk i) →
            X (i.val + 4) = X i.val
              ^^^ (x ^^^ x.rotateLeft 2 ^^^ x.rotateLeft 10 ^^^ x.rotateLeft 18 ^^^ x.rotateLeft 24)) →
          t.getB rd = 0#128 ++ X 35 ++ X 34 ++ X 33 ++ X 32) ∧
        ((∀ i : Fin 32, ∀ x,
            x = tau (X (i.val + 1) ^^^ X (i.val + 2) ^^^ X (i.val + 3) ^^^ s.getRk (Fin.rev i)) →
            X (i.val + 4) = X i.val
              ^^^ (x ^^^ x.rotateLeft 2 ^^^ x.rotateLeft 10 ^^^ x.rotateLeft 18 ^^^ x.rotateLeft 24)) →
          u.getB rd = 0#128 ++ X 35 ++ X 34 ++ X 33 ++ X 32)

/-- R137: DEC under the same RK inverts ENC, and ENC inverts DEC, on the low 128 bits, whatever RK
holds. -/
def Obligations.DecInvertsEnc : Prop :=
  ∀ (s : State) (ra rb rc : BReg),
    (∃ t u, exec (.enc rb ra) s = .next t ∧ exec (.dec rc rb) t = .next u
      ∧ u.getB rc = ((s.getB ra).extractLsb' 0 128).setWidth 256) ∧
    (∃ t u, exec (.dec rb ra) s = .next t ∧ exec (.enc rc rb) t = .next u
      ∧ u.getB rc = ((s.getB ra).extractLsb' 0 128).setWidth 256)

/-- R128, R131 to R133, R138 to R140: the S-box is the table of R128 (row = high nibble, column = low nibble;
column 0 is the most significant byte of a row), and a permutation; τ applies it to each byte of a word; SBOX
substitutes each of the 32 bytes by it; LDIF and LKEY apply L and L' to each of the eight words. -/
def Obligations.CipherLayersAreLaneWise : Prop :=
  (∀ hi lo : Fin 16, some (sbox (BitVec.ofNat 8 (16 * hi.val + lo.val))) = ([
      0xD690E9FECCE13DB716B614C228FB2C05#128, 0x2B679A762ABE04C3AA44132649860699#128,
      0x9C4250F491EF987A33540B43EDCFAC62#128, 0xE4B31CA9C908E89580DF94FA758F3FA6#128,
      0x4707A7FCF37317BA83593C19E6854FA8#128, 0x686B81B27164DA8BF8EB0F4B70569D35#128,
      0x1E240E5E6358D1A225227C3B01217887#128, 0xD40046579FD327524C3602E7A0C4C89E#128,
      0xEABF8AD240C738B5A3F7F2CEF96115A1#128, 0xE0AE5DA49B341A55AD933230F58CB1E3#128,
      0x1DF6E22E8266CA60C02923AB0D534E6F#128, 0xD5DB3745DEFD8E2F03FF6A726D6C5B51#128,
      0x8D1BAF92BBDDBC7F11D95C411F105AD8#128, 0x0AC13188A5CD7BBD2D74D012B8E5B4B0#128,
      0x8969974A0C96777E65B9F109C56EC684#128, 0x18F07DEC3ADC4D2079EE5F3ED7CB3948#128][hi.val]?).map
        fun row => blockByte row lo.val) ∧
  (∀ (w : Word) (j : Nat), j < 4 → byteOf (tau w) j = sbox (byteOf w j)) ∧
  (∀ x y : Byte, sbox x = sbox y → x = y) ∧
  ∀ (rd rs1 : BReg),
    OnlyWord (.sbox rd rs1) (0x33#6 ++ BReg.bits rd ++ BReg.bits rs1 ++ 0#18) ∧
    OnlyWord (.ldif rd rs1) (0x34#6 ++ BReg.bits rd ++ BReg.bits rs1 ++ 0#18) ∧
    OnlyWord (.lkey rd rs1) (0x35#6 ++ BReg.bits rd ++ BReg.bits rs1 ++ 0#18) ∧
    ∀ s : State,
      (∃ t, exec (.sbox rd rs1) s = .next t ∧ t.pc = s.pc + 1 ∧ OnlyB [rd] s t
        ∧ ∀ q < 32, bigByte (t.getB rd) q = sbox (bigByte (s.getB rs1) q)) ∧
      (∃ t, exec (.ldif rd rs1) s = .next t ∧ t.pc = s.pc + 1 ∧ OnlyB [rd] s t
        ∧ ∀ j < 8, ∀ x, x = wordOf (s.getB rs1) j → wordOf (t.getB rd) j
          = x ^^^ x.rotateLeft 2 ^^^ x.rotateLeft 10 ^^^ x.rotateLeft 18 ^^^ x.rotateLeft 24) ∧
      (∃ t, exec (.lkey rd rs1) s = .next t ∧ t.pc = s.pc + 1 ∧ OnlyB [rd] s t
        ∧ ∀ j < 8, ∀ x, x = wordOf (s.getB rs1) j →
          wordOf (t.getB rd) j = x ^^^ x.rotateLeft 13 ^^^ x.rotateLeft 23)

/-- R134: the round function and the key-schedule function computed from the eight tables of 256 entries
are the functions the rules define. -/
def Obligations.TablesGiveRoundFunctions : Prop :=
  ∀ T T' : Nat → Byte → Word,
    (∀ i < 4, ∀ b, T i b = diffuse ((sbox b).setWidth 32 <<< (24 - 8 * i))) →
    (∀ i < 4, ∀ b, T' i b = diffuseKey ((sbox b).setWidth 32 <<< (24 - 8 * i))) →
    ∀ x : Word,
      roundT x = T 0 (x.extractLsb' 24 8) ^^^ T 1 (x.extractLsb' 16 8) ^^^ T 2 (x.extractLsb' 8 8)
        ^^^ T 3 (x.extractLsb' 0 8) ∧
      keyT x = T' 0 (x.extractLsb' 24 8) ^^^ T' 1 (x.extractLsb' 16 8) ^^^ T' 2 (x.extractLsb' 8 8)
        ^^^ T' 3 (x.extractLsb' 0 8)

/-! ## Procedures -/

/-- R126: the padded message is the message, 0x80, the least number of zero bytes that makes the length a
multiple of 64, and the bit length as eight big-endian bytes. Above 2^64 − 1 bits, R127's maximum, those bytes are
the bit length modulo 2^64: the model's choice (log 13). -/
def Obligations.PaddingFillsWholeChunks : Prop :=
  ∀ msg : List Byte, ∃ k,
    padMessage msg = msg ++ [0x80#8] ++ List.replicate k 0#8 ++ bytesBE 8 (8 * msg.length)
      ∧ (msg.length + 1 + k + 8) % 64 = 0
      ∧ (∀ k' < k, (msg.length + 1 + k' + 8) % 64 ≠ 0)
      ∧ (padMessage msg).length % 64 = 0

/-- R142, R143, R147: the identity digest's input exists exactly for bit lengths up to 0xFFFF and has
194 + L bytes in the layout of R142. Verification is false for an identity that is too long; for a signature that
is not 64 bytes; for r or s that is 0 or not below N; for r + s = 0 modulo N; for a public point, reduced modulo
P, that is not on the curve; and where s·G + t·Q is the point at infinity. -/
def Obligations.IdentityInputAndVerifyBounds : Prop :=
  (∀ (ident : List Byte) (x y : Nat), identityInput ident x y = none ↔ 0xFFFF < 8 * ident.length) ∧
  (∀ (ident : List Byte) (x y : Nat) (bs : List Byte), identityInput ident x y = some bs →
    bs.length = 194 + ident.length ∧ natOfBytes (bs.take 2) = 8 * ident.length
      ∧ (bs.drop 2).take ident.length = ident
      ∧ natOfBytes ((bs.drop (2 + ident.length)).take 32) = curveP - 3
      ∧ natOfBytes ((bs.drop (34 + ident.length)).take 32) = curveB
      ∧ natOfBytes ((bs.drop (66 + ident.length)).take 32) = curveGx
      ∧ natOfBytes ((bs.drop (98 + ident.length)).take 32) = curveGy
      ∧ natOfBytes ((bs.drop (130 + ident.length)).take 32) = x % 2 ^ 256
      ∧ natOfBytes (bs.drop (162 + ident.length)) = y % 2 ^ 256) ∧
  (∀ (ident msg sig : List Byte) (x y : Nat), sig.length ≠ 64 → verify ident msg sig x y = false) ∧
  (∀ (ident msg sig : List Byte) (x y r s : Nat), sig = encodeSignature (r, s) → r < 2 ^ 256 →
    s < 2 ^ 256 →
    (r = 0 ∨ curveN ≤ r ∨ s = 0 ∨ curveN ≤ s ∨ (r + s) % curveN = 0
      ∨ (y : ZMod curveP) ^ 2 ≠ (x : ZMod curveP) ^ 3 + (curveP - 3) * x + curveB
      ∨ (pointAdd (scalarMul s generator)
          (scalarMul ((r + s) % curveN) ⟨x % curveP, y % curveP, 1⟩)).toJacobian.z = 0) →
    verify ident msg sig x y = false) ∧
  (∀ (ident msg sig : List Byte) (x y : Nat), 0xFFFF < 8 * ident.length → verify ident msg sig x y = false)

/-- R145, R146, R147, R148: for every private key D in [1, N−2], every identity and every message, a signature
that signing accepts, whichever random integers the host drew, has 64 bytes, and verification with the key's
public point accepts it. -/
def Obligations.VerifyAcceptsOwnSignatures : Prop :=
  ∀ (ident msg : List Byte) (d : Nat) (rands : List Nat) (sig : List Byte), 1 ≤ d → d ≤ curveN - 2 →
    sign ident msg d rands = .signature sig →
    sig.length = 64 ∧ verify ident msg sig (publicKey d).1 (publicKey d).2 = true
end

