-- ==== Sys2Proof/Laws/Curve.lean ====
section
/-! SUPPORT. The laws of the arithmetic modulo P and N (spec/42_modular.md R91, R94, spec/00_scope.md R16):
the constants are what their names say, R is invertible, and Euclid's algorithm gives the inverse. -/

namespace Sys2Proof.Machine

/-! ## Constants (R91) -/

theorem rModP_eq : rModP = 2 ^ 256 % curveP := by decide
theorem rModN_eq : rModN = 2 ^ 256 % curveN := by decide
theorem r2ModP_eq : r2ModP = 2 ^ 256 * 2 ^ 256 % curveP := by decide
theorem r2ModN_eq : r2ModN = 2 ^ 256 * 2 ^ 256 % curveN := by decide
theorem curveA_eq : curveA = curveP - 3 := by decide

/-- The radix inverse is the inverse of the radix. -/
theorem radixInverse_mul (m : Modulus) : radixInverse m * montR % modulusValue m = 1 := by
  cases m <;> decide

theorem modulusValue_pos (m : Modulus) : 1 < modulusValue m := by cases m <;> decide

/-- Both moduli fit a register, and twice a modulus does not: one subtraction reduces any value (R99). -/
theorem modulusValue_bounds (m : Modulus) :
    modulusValue m < 2 ^ 256 ∧ 2 ^ 256 < 2 * modulusValue m := by
  cases m <;> decide

theorem radixInverse_lt (m : Modulus) : radixInverse m < modulusValue m := by cases m <;> decide

/-! ## Reduction -/

theorem modAdd_lt {M : Nat} (h : 0 < M) (a b : Nat) : modAdd M a b < M := Nat.mod_lt _ h
theorem modSub_lt {M : Nat} (h : 0 < M) (a b : Nat) : modSub M a b < M := Nat.mod_lt _ h
theorem modMul_lt {M : Nat} (h : 0 < M) (a b : Nat) : modMul M a b < M := Nat.mod_lt _ h

/-- Subtraction is the mathematical remainder of the exact difference (R14). -/
theorem modSub_int {M a b : Nat} (hb : b ≤ M) :
    (modSub M a b : Int) = ((a : Int) - b) % M := by
  unfold modSub
  have e : ((a + (M - b) : Nat) : Int) = (a : Int) - b + M := by omega
  rw [Int.natCast_mod, e]
  simp

/-- A product by R undoes a product by R⁻¹, modulo M. -/
theorem unmont_mul_radix (m : Modulus) (a : Nat) :
    unmont m a * montR % modulusValue m = a % modulusValue m := by
  have h := radixInverse_mul m
  unfold unmont
  rw [Nat.mod_mul_mod, Nat.mul_assoc, Nat.mul_mod, h, Nat.mul_one, Nat.mod_mod]

/-- Into Montgomery form and back (R16). -/
theorem unmont_mont (m : Modulus) (x : Nat) : unmont m (mont m x) = x % modulusValue m := by
  have h := radixInverse_mul m
  unfold unmont mont
  rw [Nat.mod_mul_mod, Nat.mul_assoc, Nat.mul_comm montR, Nat.mul_mod, h, Nat.mul_one, Nat.mod_mod]

/-- Out of Montgomery form and back. -/
theorem mont_unmont (m : Modulus) (a : Nat) : mont m (unmont m a) = a % modulusValue m :=
  unmont_mul_radix m a

/-- TOM is the product MMUL forms with R² mod M (R100). -/
theorem montMul_radixSquare (m : Modulus) (a b : Nat)
    (hb : b = montR * montR % modulusValue m) : montMul m a b = mont m a := by
  subst hb
  have h := radixInverse_mul m
  unfold montMul mont
  have e : a * (montR * montR) * radixInverse m = a * montR * (radixInverse m * montR) := by ring
  calc a * (montR * montR % modulusValue m) * radixInverse m % modulusValue m
      = a * (montR * montR) * radixInverse m % modulusValue m := by
        rw [Nat.mul_assoc, Nat.mul_assoc, Nat.mul_mod a, Nat.mul_mod a (montR * montR * _)]
        simp [Nat.mod_mul_mod]
    _ = a * montR % modulusValue m := by
        rw [e, Nat.mul_mod, h, Nat.mul_one, Nat.mod_mod]

/-! ## Euclid (R94) -/

/-- What the algorithm keeps: each remainder is its cofactor times `a`, modulo M, and the greatest common
divisor is that of the two remainders. -/
theorem euclid_spec (M a : Nat) (hM : 0 < M) (fuel r0 s0 r1 s1 : Nat)
    (h0 : r0 ≡ s0 * a [MOD M]) (h1 : r1 ≡ s1 * a [MOD M]) (hs1 : s1 < M) (hlt : r1 < r0)
    (hf : r0 * r1 < 2 ^ fuel) :
    Nat.gcd r0 r1 ≡ euclid M (fuel + 1) r0 s0 r1 s1 * a [MOD M] := by
  induction fuel generalizing r0 s0 r1 s1 with
  | zero =>
    have hr : r1 = 0 := by
      rcases Nat.eq_zero_or_pos r1 with h | h
      · exact h
      · have : 0 < r0 * r1 := Nat.mul_pos (by omega) h
        omega
    simp [euclid, hr, h0]
  | succ fuel ih =>
    rw [euclid]
    split
    · next hr => simpa [hr] using h0
    · next hr =>
      have hpos : 0 < r1 := Nat.pos_of_ne_zero hr
      have hmod : r0 % r1 < r1 := Nat.mod_lt _ hpos
      have key : r0 % r1 ≡ (s0 + r0 / r1 * (M - s1)) % M * a [MOD M] := by
        have hsplit : r0 = r0 % r1 + r0 / r1 * r1 := by
          rw [Nat.mul_comm]; exact (Nat.mod_add_div r0 r1).symm
        have hzero : M * a * (r0 / r1) ≡ 0 [MOD M] :=
          (Nat.modEq_zero_iff_dvd).2 ⟨a * (r0 / r1), by ring⟩
        have hleft : r0 % r1 + r0 / r1 * (s1 * a) ≡ s0 * a [MOD M] := by
          have : r0 % r1 + r0 / r1 * (s1 * a) ≡ r0 % r1 + r0 / r1 * r1 [MOD M] :=
            Nat.ModEq.add_left _ (Nat.ModEq.mul_left _ h1.symm)
          rw [← hsplit] at this
          exact this.trans h0
        have hsum : r0 / r1 * ((M - s1) * a) + r0 / r1 * (s1 * a) = M * a * (r0 / r1) := by
          have : (M - s1) * a + s1 * a = M * a := by
            rw [← Nat.add_mul]; congr 1; omega
          rw [← Nat.mul_add, this]; ring
        have hgoal : r0 % r1 + r0 / r1 * (s1 * a)
            ≡ (s0 + r0 / r1 * (M - s1)) * a + r0 / r1 * (s1 * a) [MOD M] := by
          have e : (s0 + r0 / r1 * (M - s1)) * a + r0 / r1 * (s1 * a)
              = s0 * a + (r0 / r1 * ((M - s1) * a) + r0 / r1 * (s1 * a)) := by ring
          rw [e, hsum]
          exact hleft.trans (by simpa using (Nat.ModEq.add_left (s0 * a) hzero).symm)
        have hcancel := Nat.ModEq.add_right_cancel' _ hgoal
        exact hcancel.trans ((Nat.mod_modEq _ _).symm.mul_right a)
      have hfuel : r1 * (r0 % r1) < 2 ^ fuel := by
        have hd : r1 + r0 % r1 ≤ r0 := by
          have hq : 1 ≤ r0 / r1 := (Nat.one_le_div_iff hpos).2 (Nat.le_of_lt hlt)
          have := Nat.mod_add_div r0 r1
          nlinarith
        rw [Nat.pow_succ] at hf
        nlinarith
      have := ih r1 s1 (r0 % r1) ((s0 + r0 / r1 * (M - s1)) % M) h1 key (Nat.mod_lt _ hM) hmod hfuel
      have hg : Nat.gcd r0 r1 = Nat.gcd r1 (r0 % r1) := by
        rw [Nat.gcd_comm r1, ← Nat.gcd_rec, Nat.gcd_comm]
      rwa [hg]

/-- A product of two values of `n` bits has `2n` bits. -/
theorem mul_lt_two_pow {a b n k : Nat} (ha : a < 2 ^ n) (hb : b < 2 ^ n) (hk : n + n ≤ k) :
    a * b < 2 ^ k := by
  have h : a * b < 2 ^ n * 2 ^ n := Nat.mul_lt_mul'' ha hb
  rw [← Nat.pow_add] at h
  exact Nat.lt_of_lt_of_le h (Nat.pow_le_pow_right (by decide) hk)

/-- The inverse is the inverse (R94): for `a` below the modulus and prime to it. -/
theorem modInv_spec (m : Modulus) (a : Nat) (ha : a < modulusValue m)
    (hc : Nat.Coprime a (modulusValue m)) :
    a * modInv (modulusValue m) a % modulusValue m = 1 := by
  have hM := modulusValue_bounds m
  have h1 := modulusValue_pos m
  have hf : modulusValue m * a < 2 ^ 519 := mul_lt_two_pow hM.1 (Nat.lt_trans ha hM.1) (by decide)
  have h := euclid_spec (modulusValue m) a (by omega) 519 (modulusValue m) 0 a 1
    (by simp [Nat.ModEq]) (by simp [Nat.ModEq]) h1 ha hf
  have hg : Nat.gcd (modulusValue m) a = 1 := by rw [Nat.gcd_comm]; exact hc
  rw [hg] at h
  have : modInv (modulusValue m) a * a ≡ 1 [MOD modulusValue m] := h.symm
  rw [Nat.mul_comm]
  unfold Nat.ModEq at this
  rwa [Nat.mod_eq_of_lt h1] at this

end Sys2Proof.Machine
end

