-- ==== Sys2Proof/Laws/Encoding.lean ====
section
/-! SUPPORT. The fields of a word in each format are the operands it was made from, and its reserved bits
are 0 (spec/30_encoding.md R61, R63). -/

namespace Sys2Proof

@[simp] theorem BReg.toFin_bits (r : BReg) : (BReg.bits r).toFin = r := by
  revert r; decide
@[simp] theorem IReg.toFin_bits (k : IReg) : (IReg.bits k).toFin = k := by
  revert k; decide
@[simp] theorem Slot.toFin_bits (k : Slot) : (Slot.bits k).toFin = k := by
  revert k; decide
@[simp] theorem Modulus.ofBit_bit (m : Modulus) : (if m.bit = 0#1 then Modulus.p else .n) = m := by
  cases m <;> rfl

/-- Bits `lo .. lo+n-1` of a joined value, where they all lie in its low part. -/
theorem extract_append_low {w v : Nat} (x : BitVec w) (y : BitVec v) (lo n : Nat) (h : lo + n ≤ v) :
    (x ++ y).extractLsb' lo n = y.extractLsb' lo n := by
  apply BitVec.eq_of_getLsbD_eq
  intro i hi
  simp only [BitVec.getLsbD_extractLsb', BitVec.getLsbD_append, hi, decide_true, Bool.true_and]
  rw [if_pos (by omega)]

/-- Bits `v .. v+n-1` of a joined value, its high part, where the low part has `v` bits. -/
theorem extract_append_high {w v : Nat} (x : BitVec w) (y : BitVec v) :
    (x ++ y).extractLsb' v w = x := by
  apply BitVec.eq_of_getLsbD_eq
  intro i hi
  simp [BitVec.getLsbD_append, hi]

/-- Bits of a joined value that all lie in its high part. -/
theorem extract_append_above {w v : Nat} (x : BitVec w) (y : BitVec v) (lo n : Nat) (h : v ≤ lo) :
    (x ++ y).extractLsb' lo n = x.extractLsb' (lo - v) n := by
  apply BitVec.eq_of_getLsbD_eq
  intro i hi
  simp only [BitVec.getLsbD_extractLsb', BitVec.getLsbD_append, hi, decide_true, Bool.true_and]
  rw [if_neg (by omega)]
  congr 1
  omega

/-- Joined values are masked part by part. -/
theorem and_joined {w v : Nat} (x x' : BitVec w) (y y' : BitVec v) :
    (x ++ y) &&& (x' ++ y') = (x &&& x') ++ (y &&& y') := by
  apply BitVec.eq_of_getLsbD_eq
  intro i hi
  simp only [BitVec.getLsbD_and, BitVec.getLsbD_append]
  split <;> rfl

/-- All the bits of a value. -/
theorem extract_whole {w : Nat} (y : BitVec w) : y.extractLsb' 0 w = y := BitVec.extractLsb'_eq_self

section
variable (op mo : BitVec 6) (d md a ma b mb : BitVec 4) (m mm : BitVec 1) (x mx : BitVec 2)
  (i12 mi12 : BitVec 12) (i16 mi16 : BitVec 16) (t mt : BitVec 8) (p mp q mq r mr : BitVec 2)

/-! ## Format N -/

@[simp] theorem op_formatN : Field.op (formatN op) = op := by
  have h : (formatN op).extractLsb' 26 6 = op := by
    unfold formatN
    rw [extract_append_above _ _ _ _ (by decide)]
    exact extract_whole op
  simp only [Field.op, h]
/-- Masking a word of format N masks each field. -/
theorem formatN_and (z1 : BitVec 26) :
    formatN op &&& (mo ++ z1) = formatN (op &&& mo) := by
  unfold formatN
  rw [and_joined]
  simp only [BitVec.zero_and]

/-! ## Format J -/

@[simp] theorem tgt_formatJ : Field.tgt (formatJ op x t) = t := by
  have h : (formatJ op x t).extractLsb' 0 8 = t := by
    unfold formatJ
    exact (extract_append_low _ _ _ _ (by decide)).trans (extract_whole t)
  simp only [Field.tgt, h]
@[simp] theorem ix_formatJ : Field.ix (formatJ op x t) = x.toFin := by
  have h : (formatJ op x t).extractLsb' 16 2 = x := by
    unfold formatJ
    rw [extract_append_above _ _ _ _ (by decide),
      extract_append_above _ _ _ _ (by decide)]
    exact (extract_append_low _ _ _ _ (by decide)).trans (extract_whole x)
  simp only [Field.ix, h]
@[simp] theorem op_formatJ : Field.op (formatJ op x t) = op := by
  have h : (formatJ op x t).extractLsb' 26 6 = op := by
    unfold formatJ
    rw [extract_append_above _ _ _ _ (by decide),
      extract_append_above _ _ _ _ (by decide),
      extract_append_above _ _ _ _ (by decide),
      extract_append_above _ _ _ _ (by decide)]
    exact extract_whole op
  simp only [Field.op, h]
/-- Masking a word of format J masks each field. -/
theorem formatJ_and (z1 : BitVec 8) (z2 : BitVec 8) :
    formatJ op x t &&& (mo ++ z1 ++ mx ++ z2 ++ mt) = formatJ (op &&& mo) (x &&& mx) (t &&& mt) := by
  unfold formatJ
  rw [and_joined, and_joined, and_joined, and_joined]
  simp only [BitVec.zero_and]

/-! ## Format X -/

@[simp] theorem imm16_formatX : Field.imm16 (formatX op x i16) = i16 := by
  have h : (formatX op x i16).extractLsb' 0 16 = i16 := by
    unfold formatX
    exact (extract_append_low _ _ _ _ (by decide)).trans (extract_whole i16)
  simp only [Field.imm16, h]
@[simp] theorem ix_formatX : Field.ix (formatX op x i16) = x.toFin := by
  have h : (formatX op x i16).extractLsb' 16 2 = x := by
    unfold formatX
    rw [extract_append_above _ _ _ _ (by decide)]
    exact (extract_append_low _ _ _ _ (by decide)).trans (extract_whole x)
  simp only [Field.ix, h]
@[simp] theorem op_formatX : Field.op (formatX op x i16) = op := by
  have h : (formatX op x i16).extractLsb' 26 6 = op := by
    unfold formatX
    rw [extract_append_above _ _ _ _ (by decide),
      extract_append_above _ _ _ _ (by decide),
      extract_append_above _ _ _ _ (by decide)]
    exact extract_whole op
  simp only [Field.op, h]
/-- Masking a word of format X masks each field. -/
theorem formatX_and (z1 : BitVec 8) :
    formatX op x i16 &&& (mo ++ z1 ++ mx ++ mi16) = formatX (op &&& mo) (x &&& mx) (i16 &&& mi16) := by
  unfold formatX
  rw [and_joined, and_joined, and_joined]
  simp only [BitVec.zero_and]

/-! ## Format T -/

@[simp] theorem ix_formatT : Field.ix (formatT op a x) = x.toFin := by
  have h : (formatT op a x).extractLsb' 16 2 = x := by
    unfold formatT
    rw [extract_append_above _ _ _ _ (by decide)]
    exact (extract_append_low _ _ _ _ (by decide)).trans (extract_whole x)
  simp only [Field.ix, h]
@[simp] theorem rs1_formatT : Field.rs1 (formatT op a x) = a.toFin := by
  have h : (formatT op a x).extractLsb' 18 4 = a := by
    unfold formatT
    rw [extract_append_above _ _ _ _ (by decide),
      extract_append_above _ _ _ _ (by decide)]
    exact (extract_append_low _ _ _ _ (by decide)).trans (extract_whole a)
  simp only [Field.rs1, h]
@[simp] theorem op_formatT : Field.op (formatT op a x) = op := by
  have h : (formatT op a x).extractLsb' 26 6 = op := by
    unfold formatT
    rw [extract_append_above _ _ _ _ (by decide),
      extract_append_above _ _ _ _ (by decide),
      extract_append_above _ _ _ _ (by decide),
      extract_append_above _ _ _ _ (by decide)]
    exact extract_whole op
  simp only [Field.op, h]
/-- Masking a word of format T masks each field. -/
theorem formatT_and (z1 : BitVec 4) (z2 : BitVec 16) :
    formatT op a x &&& (mo ++ z1 ++ ma ++ mx ++ z2) = formatT (op &&& mo) (a &&& ma) (x &&& mx) := by
  unfold formatT
  rw [and_joined, and_joined, and_joined, and_joined]
  simp only [BitVec.zero_and]

/-! ## Format R -/

@[simp] theorem m_formatR : Field.m (formatR op d a b m) = if m = 0#1 then .p else .n := by
  have h : (formatR op d a b m).extractLsb' 13 1 = m := by
    unfold formatR
    rw [extract_append_above _ _ _ _ (by decide)]
    exact (extract_append_low _ _ _ _ (by decide)).trans (extract_whole m)
  simp only [Field.m, h]
@[simp] theorem rs2_formatR : Field.rs2 (formatR op d a b m) = b.toFin := by
  have h : (formatR op d a b m).extractLsb' 14 4 = b := by
    unfold formatR
    rw [extract_append_above _ _ _ _ (by decide),
      extract_append_above _ _ _ _ (by decide)]
    exact (extract_append_low _ _ _ _ (by decide)).trans (extract_whole b)
  simp only [Field.rs2, h]
@[simp] theorem rs1_formatR : Field.rs1 (formatR op d a b m) = a.toFin := by
  have h : (formatR op d a b m).extractLsb' 18 4 = a := by
    unfold formatR
    rw [extract_append_above _ _ _ _ (by decide),
      extract_append_above _ _ _ _ (by decide),
      extract_append_above _ _ _ _ (by decide)]
    exact (extract_append_low _ _ _ _ (by decide)).trans (extract_whole a)
  simp only [Field.rs1, h]
@[simp] theorem rd_formatR : Field.rd (formatR op d a b m) = d.toFin := by
  have h : (formatR op d a b m).extractLsb' 22 4 = d := by
    unfold formatR
    rw [extract_append_above _ _ _ _ (by decide),
      extract_append_above _ _ _ _ (by decide),
      extract_append_above _ _ _ _ (by decide),
      extract_append_above _ _ _ _ (by decide)]
    exact (extract_append_low _ _ _ _ (by decide)).trans (extract_whole d)
  simp only [Field.rd, h]
@[simp] theorem op_formatR : Field.op (formatR op d a b m) = op := by
  have h : (formatR op d a b m).extractLsb' 26 6 = op := by
    unfold formatR
    rw [extract_append_above _ _ _ _ (by decide),
      extract_append_above _ _ _ _ (by decide),
      extract_append_above _ _ _ _ (by decide),
      extract_append_above _ _ _ _ (by decide),
      extract_append_above _ _ _ _ (by decide)]
    exact extract_whole op
  simp only [Field.op, h]
/-- Masking a word of format R masks each field. -/
theorem formatR_and (z1 : BitVec 13) :
    formatR op d a b m &&& (mo ++ md ++ ma ++ mb ++ mm ++ z1) = formatR (op &&& mo) (d &&& md) (a &&& ma) (b &&& mb) (m &&& mm) := by
  unfold formatR
  rw [and_joined, and_joined, and_joined, and_joined, and_joined]
  simp only [BitVec.zero_and]

/-! ## Format C -/

@[simp] theorem cid_formatC : Field.cid (formatC op d a) = a.toFin := by
  have h : (formatC op d a).extractLsb' 18 4 = a := by
    unfold formatC
    rw [extract_append_above _ _ _ _ (by decide)]
    exact (extract_append_low _ _ _ _ (by decide)).trans (extract_whole a)
  simp only [Field.cid, h]
@[simp] theorem rd_formatC : Field.rd (formatC op d a) = d.toFin := by
  have h : (formatC op d a).extractLsb' 22 4 = d := by
    unfold formatC
    rw [extract_append_above _ _ _ _ (by decide),
      extract_append_above _ _ _ _ (by decide)]
    exact (extract_append_low _ _ _ _ (by decide)).trans (extract_whole d)
  simp only [Field.rd, h]
@[simp] theorem op_formatC : Field.op (formatC op d a) = op := by
  have h : (formatC op d a).extractLsb' 26 6 = op := by
    unfold formatC
    rw [extract_append_above _ _ _ _ (by decide),
      extract_append_above _ _ _ _ (by decide),
      extract_append_above _ _ _ _ (by decide)]
    exact extract_whole op
  simp only [Field.op, h]
/-- Masking a word of format C masks each field. -/
theorem formatC_and (z1 : BitVec 18) :
    formatC op d a &&& (mo ++ md ++ ma ++ z1) = formatC (op &&& mo) (d &&& md) (a &&& ma) := by
  unfold formatC
  rw [and_joined, and_joined, and_joined]
  simp only [BitVec.zero_and]

/-! ## Format M -/

@[simp] theorem imm12_formatM : Field.imm12 (formatM op d x i12) = i12 := by
  have h : (formatM op d x i12).extractLsb' 0 12 = i12 := by
    unfold formatM
    exact (extract_append_low _ _ _ _ (by decide)).trans (extract_whole i12)
  simp only [Field.imm12, h]
@[simp] theorem ix_formatM : Field.ix (formatM op d x i12) = x.toFin := by
  have h : (formatM op d x i12).extractLsb' 16 2 = x := by
    unfold formatM
    rw [extract_append_above _ _ _ _ (by decide),
      extract_append_above _ _ _ _ (by decide)]
    exact (extract_append_low _ _ _ _ (by decide)).trans (extract_whole x)
  simp only [Field.ix, h]
@[simp] theorem rd_formatM : Field.rd (formatM op d x i12) = d.toFin := by
  have h : (formatM op d x i12).extractLsb' 22 4 = d := by
    unfold formatM
    rw [extract_append_above _ _ _ _ (by decide),
      extract_append_above _ _ _ _ (by decide),
      extract_append_above _ _ _ _ (by decide),
      extract_append_above _ _ _ _ (by decide)]
    exact (extract_append_low _ _ _ _ (by decide)).trans (extract_whole d)
  simp only [Field.rd, h]
@[simp] theorem op_formatM : Field.op (formatM op d x i12) = op := by
  have h : (formatM op d x i12).extractLsb' 26 6 = op := by
    unfold formatM
    rw [extract_append_above _ _ _ _ (by decide),
      extract_append_above _ _ _ _ (by decide),
      extract_append_above _ _ _ _ (by decide),
      extract_append_above _ _ _ _ (by decide),
      extract_append_above _ _ _ _ (by decide)]
    exact extract_whole op
  simp only [Field.op, h]
/-- Masking a word of format M masks each field. -/
theorem formatM_and (z1 : BitVec 4) (z2 : BitVec 4) :
    formatM op d x i12 &&& (mo ++ md ++ z1 ++ mx ++ z2 ++ mi12) = formatM (op &&& mo) (d &&& md) (x &&& mx) (i12 &&& mi12) := by
  unfold formatM
  rw [and_joined, and_joined, and_joined, and_joined, and_joined]
  simp only [BitVec.zero_and]

/-! ## Format S -/

@[simp] theorem ss2_formatS : Field.ss2 (formatS op p q r) = r.toFin := by
  have h : (formatS op p q r).extractLsb' 16 2 = r := by
    unfold formatS
    rw [extract_append_above _ _ _ _ (by decide)]
    exact (extract_append_low _ _ _ _ (by decide)).trans (extract_whole r)
  simp only [Field.ss2, h]
@[simp] theorem ss1_formatS : Field.ss1 (formatS op p q r) = q.toFin := by
  have h : (formatS op p q r).extractLsb' 20 2 = q := by
    unfold formatS
    rw [extract_append_above _ _ _ _ (by decide),
      extract_append_above _ _ _ _ (by decide),
      extract_append_above _ _ _ _ (by decide)]
    exact (extract_append_low _ _ _ _ (by decide)).trans (extract_whole q)
  simp only [Field.ss1, h]
@[simp] theorem sd_formatS : Field.sd (formatS op p q r) = p.toFin := by
  have h : (formatS op p q r).extractLsb' 24 2 = p := by
    unfold formatS
    rw [extract_append_above _ _ _ _ (by decide),
      extract_append_above _ _ _ _ (by decide),
      extract_append_above _ _ _ _ (by decide),
      extract_append_above _ _ _ _ (by decide),
      extract_append_above _ _ _ _ (by decide)]
    exact (extract_append_low _ _ _ _ (by decide)).trans (extract_whole p)
  simp only [Field.sd, h]
@[simp] theorem op_formatS : Field.op (formatS op p q r) = op := by
  have h : (formatS op p q r).extractLsb' 26 6 = op := by
    unfold formatS
    rw [extract_append_above _ _ _ _ (by decide),
      extract_append_above _ _ _ _ (by decide),
      extract_append_above _ _ _ _ (by decide),
      extract_append_above _ _ _ _ (by decide),
      extract_append_above _ _ _ _ (by decide),
      extract_append_above _ _ _ _ (by decide)]
    exact extract_whole op
  simp only [Field.op, h]
/-- Masking a word of format S masks each field. -/
theorem formatS_and (z1 : BitVec 2) (z2 : BitVec 2) (z3 : BitVec 16) :
    formatS op p q r &&& (mo ++ mp ++ z1 ++ mq ++ z2 ++ mr ++ z3) = formatS (op &&& mo) (p &&& mp) (q &&& mq) (r &&& mr) := by
  unfold formatS
  rw [and_joined, and_joined, and_joined, and_joined, and_joined, and_joined]
  simp only [BitVec.zero_and]

end

end Sys2Proof
end

