-- ==== Sys2Proof/Laws/Lanes.lean ====
section
/-! SUPPORT. The laws of the bit numbering and the byte order (R13): a value is its words, most
significant first, and a number is its bytes. -/

namespace Sys2Proof.Machine

/-! ## Words -/

/-- Bit `i` of word `j` is bit `224 - 32j + i` of the value. -/
theorem getLsbD_wordOf (v : Big) (j i : Nat) :
    (wordOf v j).getLsbD i = (decide (i < 32) && v.getLsbD (224 - 32 * j + i)) := by
  simp [wordOf, BitVec.getLsbD_extractLsb']

theorem rotl_eq_rotateLeft (x : Word) (s : Nat) (h : s < 32) : rotl x s = x.rotateLeft s := by
  simp [rotl, Nat.mod_eq_of_lt h]

section
variable (w0 w1 w2 w3 w4 w5 w6 w7 : Word)

/-- The words of a joined value are the ones it was joined from. -/
theorem wordOf_joinWords (j : Nat) (h : j < 8) :
    some (wordOf (joinWords w0 w1 w2 w3 w4 w5 w6 w7) j) = [w0, w1, w2, w3, w4, w5, w6, w7][j]? := by
  have key : ∀ w : Word, (∀ i, i < 32 →
      (joinWords w0 w1 w2 w3 w4 w5 w6 w7).getLsbD (224 - 32 * j + i) = w.getLsbD i) →
      wordOf (joinWords w0 w1 w2 w3 w4 w5 w6 w7) j = w := fun w hw => by
    apply BitVec.eq_of_getLsbD_eq
    intro i hi
    rw [getLsbD_wordOf, hw i hi]
    simp [hi]
  interval_cases j <;>
    · simp only [List.getElem?_cons_succ, List.getElem?_cons_zero, Option.some.injEq]
      apply key
      intro i hi
      simp only [joinWords, BitVec.getLsbD_append]
      repeat' split
      all_goals first | omega | exact congrArg _ (by omega)

@[simp] theorem wordOf_joinWords_0 : wordOf (joinWords w0 w1 w2 w3 w4 w5 w6 w7) 0 = w0 :=
  Option.some.inj (wordOf_joinWords w0 w1 w2 w3 w4 w5 w6 w7 0 (by decide))
@[simp] theorem wordOf_joinWords_1 : wordOf (joinWords w0 w1 w2 w3 w4 w5 w6 w7) 1 = w1 :=
  Option.some.inj (wordOf_joinWords w0 w1 w2 w3 w4 w5 w6 w7 1 (by decide))
@[simp] theorem wordOf_joinWords_2 : wordOf (joinWords w0 w1 w2 w3 w4 w5 w6 w7) 2 = w2 :=
  Option.some.inj (wordOf_joinWords w0 w1 w2 w3 w4 w5 w6 w7 2 (by decide))
@[simp] theorem wordOf_joinWords_3 : wordOf (joinWords w0 w1 w2 w3 w4 w5 w6 w7) 3 = w3 :=
  Option.some.inj (wordOf_joinWords w0 w1 w2 w3 w4 w5 w6 w7 3 (by decide))
@[simp] theorem wordOf_joinWords_4 : wordOf (joinWords w0 w1 w2 w3 w4 w5 w6 w7) 4 = w4 :=
  Option.some.inj (wordOf_joinWords w0 w1 w2 w3 w4 w5 w6 w7 4 (by decide))
@[simp] theorem wordOf_joinWords_5 : wordOf (joinWords w0 w1 w2 w3 w4 w5 w6 w7) 5 = w5 :=
  Option.some.inj (wordOf_joinWords w0 w1 w2 w3 w4 w5 w6 w7 5 (by decide))
@[simp] theorem wordOf_joinWords_6 : wordOf (joinWords w0 w1 w2 w3 w4 w5 w6 w7) 6 = w6 :=
  Option.some.inj (wordOf_joinWords w0 w1 w2 w3 w4 w5 w6 w7 6 (by decide))
@[simp] theorem wordOf_joinWords_7 : wordOf (joinWords w0 w1 w2 w3 w4 w5 w6 w7) 7 = w7 :=
  Option.some.inj (wordOf_joinWords w0 w1 w2 w3 w4 w5 w6 w7 7 (by decide))

end

/-- A lane-wise operation acts on each of the eight words alone. -/
theorem wordOf_lanes (f : Word → Word) (v : Big) (j : Nat) (h : j < 8) :
    wordOf (lanes f v) j = f (wordOf v j) := by
  interval_cases j <;> simp [lanes]

/-- Replacing word `j` changes that word and no other. -/
theorem wordOf_setWord (v : Big) (j i : Nat) (x : Word) (hi : i < 8) :
    wordOf (setWord v j x) i = if i = j then x else wordOf v i := by
  interval_cases i <;> simp [setWord]

/-- A value is its eight words. -/
theorem big_ext_words {u v : Big} (h : ∀ j, j < 8 → wordOf u j = wordOf v j) : u = v := by
  apply BitVec.eq_of_getLsbD_eq
  intro i hi
  have hj := congrArg (fun w => w.getLsbD (i % 32)) (h (7 - i / 32) (by omega))
  simp only [getLsbD_wordOf] at hj
  have e : 224 - 32 * (7 - i / 32) + i % 32 = i := by omega
  rw [e] at hj
  simpa [Nat.mod_lt] using hj

/-- Joining the words of a value gives it back. -/
theorem joinWords_wordOf (v : Big) :
    joinWords (wordOf v 0) (wordOf v 1) (wordOf v 2) (wordOf v 3) (wordOf v 4) (wordOf v 5) (wordOf v 6)
      (wordOf v 7) = v := by
  refine big_ext_words fun j hj => ?_
  interval_cases j <;> simp

/-! ## Bytes -/

/-- The number of a byte string with a byte before it. -/
theorem natOfBytes_cons (b : Byte) (bs : List Byte) :
    natOfBytes (b :: bs) = b.toNat * 256 ^ bs.length + natOfBytes bs := by
  have fold : ∀ (l : List Byte) (acc : Nat),
      l.foldl (fun acc b => acc * 256 + b.toNat) acc
        = acc * 256 ^ l.length + l.foldl (fun acc b => acc * 256 + b.toNat) 0 := by
    intro l
    induction l with
    | nil => intro acc; simp
    | cons c cs ih =>
      intro acc
      simp only [List.foldl_cons, List.length_cons]
      rw [ih, ih (0 * 256 + c.toNat)]
      ring
  simp only [natOfBytes, List.foldl_cons]
  rw [fold]
  ring

/-- A byte string of `n` bytes is below `256^n`. -/
theorem natOfBytes_lt (bs : List Byte) : natOfBytes bs < 256 ^ bs.length := by
  induction bs with
  | nil => decide
  | cons b bs ih =>
    rw [natOfBytes_cons, List.length_cons, pow_succ]
    have hb : b.toNat < 256 := b.isLt
    nlinarith

/-- The value of the `n` low bytes of `v` is `v` modulo `256^n`: reading what was written gives it
back. -/
theorem natOfBytes_bytesBE (n v : Nat) : natOfBytes (bytesBE n v) = v % 256 ^ n := by
  have len : ∀ n v, (bytesBE n v).length = n := by
    intro n v
    induction n with
    | zero => rfl
    | succ n ih => simp [bytesBE, ih]
  induction n with
  | zero => simp [bytesBE, natOfBytes, Nat.mod_one]
  | succ n ih =>
    rw [bytesBE, natOfBytes_cons, len, ih]
    have hb : (BitVec.ofNat 8 (v / 256 ^ n)).toNat = v / 256 ^ n % 256 := by simp
    rw [hb, pow_succ, Nat.mod_mul]
    ring

/-- Byte `j` of the `n` low bytes of `v`. -/
theorem bytesBE_getElem (n v j : Nat) (h : j < n) :
    (bytesBE n v)[j]? = some (BitVec.ofNat 8 (v / 256 ^ (n - 1 - j))) := by
  induction n generalizing j with
  | zero => omega
  | succ n ih =>
    cases j with
    | zero => simp [bytesBE]
    | succ j =>
      rw [bytesBE, List.getElem?_cons_succ, ih j (by omega)]
      congr 4
      omega

end Sys2Proof.Machine
end

