-- ==== Sys2Proof/Laws/Memory.lean ====
section
/-! SUPPORT. The laws of the two memories: a write is read back and leaves every other address alone,
every memory operation keeps the canonical form, and what a byte-string read returns. -/

namespace Sys2Proof.Machine

variable {α : Type}

/-! ## Read after write -/

/-- An address reads what was written to it, and every other reads as before. -/
theorem Mem.get?_set (m : List (Nat × α)) (a : Nat) (x : α) (b : Nat) :
    Mem.get? (Mem.set m a x) b = if b = a then some x else Mem.get? m b := by
  induction m with
  | nil => simp [Mem.set, Mem.get?, eq_comm]
  | cons kv rest ih =>
    obtain ⟨k, v⟩ := kv
    simp only [Mem.set]
    split
    · by_cases hb : b = a
      · simp [Mem.get?, hb]
      · simp [Mem.get?, hb, Ne.symm hb]
    · split
      · next hk =>
        subst hk
        by_cases hb : b = a
        · simp [Mem.get?, hb]
        · simp [Mem.get?, hb, Ne.symm hb]
      · next hk =>
        by_cases hkb : k = b
        · subst hkb
          simp [Mem.get?, Ne.symm hk]
        · simp [Mem.get?, hkb, ih]

/-- A byte string written at `a` is read back byte by byte. -/
theorem Mem.get?_setAll (m : List Host.Cell) (a : Nat) (bs : List Byte) (b : Nat) :
    Mem.get? (Mem.setAll m a bs) b
      = if a ≤ b ∧ b < a + bs.length then bs[b - a]? else Mem.get? m b := by
  induction bs generalizing m a with
  | nil => simp [Mem.setAll]
  | cons c cs ih =>
    simp only [Mem.setAll, ih, Mem.get?_set, List.length_cons]
    by_cases hlo : a + 1 ≤ b
    · by_cases hhi : b < a + 1 + cs.length
      · have hi : b - a = b - (a + 1) + 1 := by omega
        rw [if_pos ⟨hlo, hhi⟩, if_pos (by omega), hi, List.getElem?_cons_succ]
      · rw [if_neg (by omega), if_neg (by omega), if_neg (by omega)]
    · by_cases hab : b = a
      · subst hab
        rw [if_neg (by omega), if_pos rfl, if_pos (by omega)]
        simp
      · rw [if_neg (by omega), if_neg hab, if_neg (by omega)]

/-! ## The canonical form -/

/-- A looser lower bound admits the same memory. -/
theorem Mem.wfFrom_mono {size lo lo' : Nat} (h : lo ≤ lo') {m : List (Nat × α)}
    (hm : Mem.wfFrom size lo' m = true) : Mem.wfFrom size lo m = true := by
  cases m with
  | nil => rfl
  | cons kv rest =>
    obtain ⟨k, v⟩ := kv
    simp only [Mem.wfFrom, Bool.and_eq_true, decide_eq_true_eq] at hm ⊢
    exact ⟨⟨by omega, hm.1.2⟩, hm.2⟩

/-- Writing inside the space keeps the addresses rising. -/
theorem Mem.wfFrom_set {size lo a : Nat} {m : List (Nat × α)} (x : α) (hlo : lo ≤ a) (ha : a < size)
    (hm : Mem.wfFrom size lo m = true) : Mem.wfFrom size lo (Mem.set m a x) = true := by
  induction m generalizing lo with
  | nil => simp [Mem.set, Mem.wfFrom, hlo, ha]
  | cons kv rest ih =>
    obtain ⟨k, v⟩ := kv
    simp only [Mem.wfFrom, Bool.and_eq_true, decide_eq_true_eq] at hm
    simp only [Mem.set]
    split
    · next hak =>
      simp only [Mem.wfFrom, Bool.and_eq_true, decide_eq_true_eq]
      exact ⟨⟨hlo, ha⟩, ⟨by omega, hm.1.2⟩, hm.2⟩
    · split
      · next hak =>
        subst hak
        simp only [Mem.wfFrom, Bool.and_eq_true, decide_eq_true_eq]
        exact ⟨⟨hlo, ha⟩, hm.2⟩
      · simp only [Mem.wfFrom, Bool.and_eq_true, decide_eq_true_eq]
        exact ⟨hm.1, ih (by omega) hm.2⟩

/-- Writing one entry keeps the canonical form. -/
theorem Mem.wf_set {size a : Nat} {m : List (Nat × α)} (x : α) (ha : a < size)
    (hm : Mem.wf size m = true) : Mem.wf size (Mem.set m a x) = true :=
  Mem.wfFrom_set x (Nat.zero_le a) ha hm

/-- Writing a byte string keeps the canonical form. -/
theorem Mem.wf_setAll {size a : Nat} {m : List Host.Cell} (bs : List Byte) (ha : a + bs.length ≤ size)
    (hm : Mem.wf size m = true) : Mem.wf size (Mem.setAll m a bs) = true := by
  induction bs generalizing m a with
  | nil => exact hm
  | cons c cs ih =>
    simp only [List.length_cons] at ha
    exact ih (by omega) (Mem.wf_set c (by omega) hm)

@[simp] theorem bytesBE_length (n v : Nat) : (bytesBE n v).length = n := by
  induction n with
  | zero => rfl
  | succ n ih => simp [bytesBE, ih]

/-- An in-bounds store keeps both memories canonical. -/
theorem State.memoryWf_memWrite {s : State} {a n : Nat} (v : Nat) (h : inBounds a n = true)
    (hs : s.memoryWf = true) : (s.memWrite a n v).memoryWf = true := by
  simp only [State.memoryWf, Bool.and_eq_true] at hs ⊢
  refine ⟨hs.1, Mem.wf_setAll _ ?_ hs.2⟩
  simpa [inBounds] using h

/-! ## Reading a byte string (R43, R48) -/

/-- One byte read: the listed byte, and no draw; or the next draw. -/
theorem Mem.readByte_cases (m : List Host.Cell) (d a : Nat) :
    (∃ b, Mem.get? m a = some b ∧ Mem.readByte m d a = (b, d)) ∨
    (Mem.get? m a = none ∧ Mem.readByte m d a = (Config.freeByte d, d + 1)) := by
  unfold Mem.readByte
  cases h : Mem.get? m a with
  | none => exact .inr ⟨rfl, rfl⟩
  | some b => exact .inl ⟨b, rfl, rfl⟩

@[simp] theorem Mem.readBytes_length (m : List Host.Cell) (a d n : Nat) :
    (Mem.readBytes m a d n).1.length = n := by
  induction n generalizing a d with
  | zero => rfl
  | succ n ih => simp [Mem.readBytes, ih]

/-- A read never gives a draw back. -/
theorem Mem.readBytes_draws_le (m : List Host.Cell) (a d n : Nat) : d ≤ (Mem.readBytes m a d n).2 := by
  induction n generalizing a d with
  | zero => exact Nat.le_refl d
  | succ n ih =>
    simp only [Mem.readBytes]
    refine Nat.le_trans ?_ (ih _ _)
    rcases Mem.readByte_cases m d a with ⟨b, _, h⟩ | ⟨_, h⟩ <;> simp [h]

/-- Each byte read is the listed byte, or a draw made in this read. -/
theorem Mem.readBytes_getElem (m : List Host.Cell) (a d n j : Nat) (hj : j < n) :
    (∀ b, Mem.get? m (a + j) = some b → (Mem.readBytes m a d n).1[j]? = some b) ∧
    (Mem.get? m (a + j) = none →
      ∃ k, d ≤ k ∧ k < (Mem.readBytes m a d n).2
        ∧ (Mem.readBytes m a d n).1[j]? = some (Config.freeByte k)) := by
  induction n generalizing a d j with
  | zero => omega
  | succ n ih =>
    have hd := Mem.readBytes_draws_le m (a + 1) (Mem.readByte m d a).2 n
    cases j with
    | zero =>
      rcases Mem.readByte_cases m d a with ⟨b, hb, h⟩ | ⟨hb, h⟩
      · simp [Mem.readBytes, h, hb]
      · rw [h] at hd
        simp only [Mem.readBytes, h, Nat.add_zero, hb]
        exact ⟨by simp, fun _ => ⟨d, Nat.le_refl d, hd, rfl⟩⟩
    | succ j =>
      have hle : d ≤ (Mem.readByte m d a).2 := by
        rcases Mem.readByte_cases m d a with ⟨b, _, h⟩ | ⟨_, h⟩ <;> simp [h]
      have hih := ih (a + 1) (Mem.readByte m d a).2 j (by omega)
      have he : a + (j + 1) = a + 1 + j := by omega
      simp only [Mem.readBytes, List.getElem?_cons_succ, he]
      refine ⟨hih.1, fun hn => ?_⟩
      obtain ⟨k, hk1, hk2, hk3⟩ := hih.2 hn
      exact ⟨k, by omega, hk2, hk3⟩

/-- A byte never written is the draw counted by the reads of the bytes before it, so each such byte of one read
is a draw of its own (R48). -/
theorem Mem.readBytes_draw_lt (m : List Host.Cell) (a d n j : Nat) (hj : j < n) (h : Mem.get? m (a + j) = none) :
    (Mem.readBytes m a d j).2 < (Mem.readBytes m a d n).2
      ∧ (Mem.readBytes m a d n).1[j]? = some (Config.freeByte (Mem.readBytes m a d j).2) := by
  induction n generalizing a d j with
  | zero => omega
  | succ n ih =>
    cases j with
    | zero =>
      have hb : Mem.readByte m d a = (Config.freeByte d, d + 1) := by rw [Mem.readByte, show Mem.get? m a = none from h]
      have := Mem.readBytes_draws_le m (a + 1) (d + 1) n
      simp only [Mem.readBytes, hb]
      exact ⟨by omega, rfl⟩
    | succ j =>
      have := ih (a + 1) (Mem.readByte m d a).2 j (by omega) (by rwa [Nat.add_assoc, Nat.add_comm 1 j])
      simpa only [Mem.readBytes, List.getElem?_cons_succ] using this

/-- Where every byte is listed, a read gives them and draws nothing. -/
theorem Mem.readBytes_of_listed (m : List Host.Cell) (d : Nat) (bs : List Byte) (a : Nat)
    (h : ∀ j, j < bs.length → Mem.get? m (a + j) = bs[j]?) :
    Mem.readBytes m a d bs.length = (bs, d) := by
  induction bs generalizing a with
  | nil => rfl
  | cons c cs ih =>
    have h0 : Mem.readByte m d a = (c, d) := by
      have := h 0 (by simp)
      simp only [Nat.add_zero, List.getElem?_cons_zero] at this
      simp [Mem.readByte, this]
    have hr := ih (a + 1) fun j hj => by
      have := h (j + 1) (by simpa using hj)
      simpa [Nat.add_assoc, Nat.add_comm 1 j] using this
    simp [Mem.readBytes, h0, hr]

/-- Reading the bytes just written gives them, with no draw (R42, R55). -/
theorem Mem.readBytes_setAll (m : List Host.Cell) (a d : Nat) (bs : List Byte) :
    Mem.readBytes (Mem.setAll m a bs) a d bs.length = (bs, d) := by
  refine Mem.readBytes_of_listed _ d bs a fun j hj => ?_
  rw [Mem.get?_setAll, if_pos (by omega)]
  simp

end Sys2Proof.Machine
end

