-- ==== Sys2Proof/Laws/State.lean ====
section
/-! SUPPORT. What each update of the state does to each field: one lemma per field per update, so that no
proof unfolds a record update; and the register accessors over the updates. -/

namespace Sys2Proof.Machine

/-! ## The composite updates as updates of fields -/

theorem State.branch_cases (s : State) (c : Bool) (tgt : BitVec 8) :
    (c = true ∧ s.branch c tgt = s.jump tgt) ∨ (c = false ∧ s.branch c tgt = s.advance) := by
  cases c
  · exact .inr ⟨rfl, rfl⟩
  · exact .inl ⟨rfl, rfl⟩

/-! ## setB -/

@[simp] theorem State.setB_big (s : State) (r : BReg) (v : Big) :
    (s.setB r v).big = s.big.set r.val v r.isLt := rfl
@[simp] theorem State.setB_idx (s : State) (r : BReg) (v : Big) :
    (s.setB r v).idx = s.idx := rfl
@[simp] theorem State.setB_zFlag (s : State) (r : BReg) (v : Big) :
    (s.setB r v).zFlag = s.zFlag := rfl
@[simp] theorem State.setB_tFlag (s : State) (r : BReg) (v : Big) :
    (s.setB r v).tFlag = s.tFlag := rfl
@[simp] theorem State.setB_pc (s : State) (r : BReg) (v : Big) :
    (s.setB r v).pc = s.pc := rfl
@[simp] theorem State.setB_hash (s : State) (r : BReg) (v : Big) :
    (s.setB r v).hash = s.hash := rfl
@[simp] theorem State.setB_rk (s : State) (r : BReg) (v : Big) :
    (s.setB r v).rk = s.rk := rfl
@[simp] theorem State.setB_imem (s : State) (r : BReg) (v : Big) :
    (s.setB r v).imem = s.imem := rfl
@[simp] theorem State.setB_dmem (s : State) (r : BReg) (v : Big) :
    (s.setB r v).dmem = s.dmem := rfl
@[simp] theorem State.setB_ctrl (s : State) (r : BReg) (v : Big) :
    (s.setB r v).ctrl = s.ctrl := rfl
@[simp] theorem State.setB_status (s : State) (r : BReg) (v : Big) :
    (s.setB r v).status = s.status := rfl
@[simp] theorem State.setB_fpc (s : State) (r : BReg) (v : Big) :
    (s.setB r v).fpc = s.fpc := rfl
@[simp] theorem State.setB_finsn (s : State) (r : BReg) (v : Big) :
    (s.setB r v).finsn = s.finsn := rfl
@[simp] theorem State.setB_rst (s : State) (r : BReg) (v : Big) :
    (s.setB r v).rst = s.rst := rfl
@[simp] theorem State.setB_pending (s : State) (r : BReg) (v : Big) :
    (s.setB r v).pending = s.pending := rfl
@[simp] theorem State.setB_answer (s : State) (r : BReg) (v : Big) :
    (s.setB r v).answer = s.answer := rfl
@[simp] theorem State.setB_draws (s : State) (r : BReg) (v : Big) :
    (s.setB r v).draws = s.draws := rfl
@[simp] theorem State.getI_setB (s : State) (r : BReg) (v : Big) (j : IReg) :
    (s.setB r v).getI j = s.getI j := rfl
@[simp] theorem State.getRk_setB (s : State) (r : BReg) (v : Big) (j : Fin 32) :
    (s.setB r v).getRk j = s.getRk j := rfl

/-! ## setI -/

@[simp] theorem State.setI_big (s : State) (k : IReg) (v : Half) :
    (s.setI k v).big = s.big := rfl
@[simp] theorem State.setI_idx (s : State) (k : IReg) (v : Half) :
    (s.setI k v).idx = s.idx.set k.val v k.isLt := rfl
@[simp] theorem State.setI_zFlag (s : State) (k : IReg) (v : Half) :
    (s.setI k v).zFlag = s.zFlag := rfl
@[simp] theorem State.setI_tFlag (s : State) (k : IReg) (v : Half) :
    (s.setI k v).tFlag = s.tFlag := rfl
@[simp] theorem State.setI_pc (s : State) (k : IReg) (v : Half) :
    (s.setI k v).pc = s.pc := rfl
@[simp] theorem State.setI_hash (s : State) (k : IReg) (v : Half) :
    (s.setI k v).hash = s.hash := rfl
@[simp] theorem State.setI_rk (s : State) (k : IReg) (v : Half) :
    (s.setI k v).rk = s.rk := rfl
@[simp] theorem State.setI_imem (s : State) (k : IReg) (v : Half) :
    (s.setI k v).imem = s.imem := rfl
@[simp] theorem State.setI_dmem (s : State) (k : IReg) (v : Half) :
    (s.setI k v).dmem = s.dmem := rfl
@[simp] theorem State.setI_ctrl (s : State) (k : IReg) (v : Half) :
    (s.setI k v).ctrl = s.ctrl := rfl
@[simp] theorem State.setI_status (s : State) (k : IReg) (v : Half) :
    (s.setI k v).status = s.status := rfl
@[simp] theorem State.setI_fpc (s : State) (k : IReg) (v : Half) :
    (s.setI k v).fpc = s.fpc := rfl
@[simp] theorem State.setI_finsn (s : State) (k : IReg) (v : Half) :
    (s.setI k v).finsn = s.finsn := rfl
@[simp] theorem State.setI_rst (s : State) (k : IReg) (v : Half) :
    (s.setI k v).rst = s.rst := rfl
@[simp] theorem State.setI_pending (s : State) (k : IReg) (v : Half) :
    (s.setI k v).pending = s.pending := rfl
@[simp] theorem State.setI_answer (s : State) (k : IReg) (v : Half) :
    (s.setI k v).answer = s.answer := rfl
@[simp] theorem State.setI_draws (s : State) (k : IReg) (v : Half) :
    (s.setI k v).draws = s.draws := rfl
@[simp] theorem State.getB_setI (s : State) (k : IReg) (v : Half) (j : BReg) :
    (s.setI k v).getB j = s.getB j := rfl
@[simp] theorem State.getRk_setI (s : State) (k : IReg) (v : Half) (j : Fin 32) :
    (s.setI k v).getRk j = s.getRk j := rfl

/-! ## setRk -/

@[simp] theorem State.setRk_big (s : State) (i : Fin 32) (v : Word) :
    (s.setRk i v).big = s.big := rfl
@[simp] theorem State.setRk_idx (s : State) (i : Fin 32) (v : Word) :
    (s.setRk i v).idx = s.idx := rfl
@[simp] theorem State.setRk_zFlag (s : State) (i : Fin 32) (v : Word) :
    (s.setRk i v).zFlag = s.zFlag := rfl
@[simp] theorem State.setRk_tFlag (s : State) (i : Fin 32) (v : Word) :
    (s.setRk i v).tFlag = s.tFlag := rfl
@[simp] theorem State.setRk_pc (s : State) (i : Fin 32) (v : Word) :
    (s.setRk i v).pc = s.pc := rfl
@[simp] theorem State.setRk_hash (s : State) (i : Fin 32) (v : Word) :
    (s.setRk i v).hash = s.hash := rfl
@[simp] theorem State.setRk_rk (s : State) (i : Fin 32) (v : Word) :
    (s.setRk i v).rk = s.rk.set i.val v i.isLt := rfl
@[simp] theorem State.setRk_imem (s : State) (i : Fin 32) (v : Word) :
    (s.setRk i v).imem = s.imem := rfl
@[simp] theorem State.setRk_dmem (s : State) (i : Fin 32) (v : Word) :
    (s.setRk i v).dmem = s.dmem := rfl
@[simp] theorem State.setRk_ctrl (s : State) (i : Fin 32) (v : Word) :
    (s.setRk i v).ctrl = s.ctrl := rfl
@[simp] theorem State.setRk_status (s : State) (i : Fin 32) (v : Word) :
    (s.setRk i v).status = s.status := rfl
@[simp] theorem State.setRk_fpc (s : State) (i : Fin 32) (v : Word) :
    (s.setRk i v).fpc = s.fpc := rfl
@[simp] theorem State.setRk_finsn (s : State) (i : Fin 32) (v : Word) :
    (s.setRk i v).finsn = s.finsn := rfl
@[simp] theorem State.setRk_rst (s : State) (i : Fin 32) (v : Word) :
    (s.setRk i v).rst = s.rst := rfl
@[simp] theorem State.setRk_pending (s : State) (i : Fin 32) (v : Word) :
    (s.setRk i v).pending = s.pending := rfl
@[simp] theorem State.setRk_answer (s : State) (i : Fin 32) (v : Word) :
    (s.setRk i v).answer = s.answer := rfl
@[simp] theorem State.setRk_draws (s : State) (i : Fin 32) (v : Word) :
    (s.setRk i v).draws = s.draws := rfl
@[simp] theorem State.getB_setRk (s : State) (i : Fin 32) (v : Word) (j : BReg) :
    (s.setRk i v).getB j = s.getB j := rfl
@[simp] theorem State.getI_setRk (s : State) (i : Fin 32) (v : Word) (j : IReg) :
    (s.setRk i v).getI j = s.getI j := rfl

/-! ## setRks -/

@[simp] theorem State.setRks_big (s : State) (v : Vector Word 32) :
    (s.setRks v).big = s.big := rfl
@[simp] theorem State.setRks_idx (s : State) (v : Vector Word 32) :
    (s.setRks v).idx = s.idx := rfl
@[simp] theorem State.setRks_zFlag (s : State) (v : Vector Word 32) :
    (s.setRks v).zFlag = s.zFlag := rfl
@[simp] theorem State.setRks_tFlag (s : State) (v : Vector Word 32) :
    (s.setRks v).tFlag = s.tFlag := rfl
@[simp] theorem State.setRks_pc (s : State) (v : Vector Word 32) :
    (s.setRks v).pc = s.pc := rfl
@[simp] theorem State.setRks_hash (s : State) (v : Vector Word 32) :
    (s.setRks v).hash = s.hash := rfl
@[simp] theorem State.setRks_rk (s : State) (v : Vector Word 32) :
    (s.setRks v).rk = v := rfl
@[simp] theorem State.setRks_imem (s : State) (v : Vector Word 32) :
    (s.setRks v).imem = s.imem := rfl
@[simp] theorem State.setRks_dmem (s : State) (v : Vector Word 32) :
    (s.setRks v).dmem = s.dmem := rfl
@[simp] theorem State.setRks_ctrl (s : State) (v : Vector Word 32) :
    (s.setRks v).ctrl = s.ctrl := rfl
@[simp] theorem State.setRks_status (s : State) (v : Vector Word 32) :
    (s.setRks v).status = s.status := rfl
@[simp] theorem State.setRks_fpc (s : State) (v : Vector Word 32) :
    (s.setRks v).fpc = s.fpc := rfl
@[simp] theorem State.setRks_finsn (s : State) (v : Vector Word 32) :
    (s.setRks v).finsn = s.finsn := rfl
@[simp] theorem State.setRks_rst (s : State) (v : Vector Word 32) :
    (s.setRks v).rst = s.rst := rfl
@[simp] theorem State.setRks_pending (s : State) (v : Vector Word 32) :
    (s.setRks v).pending = s.pending := rfl
@[simp] theorem State.setRks_answer (s : State) (v : Vector Word 32) :
    (s.setRks v).answer = s.answer := rfl
@[simp] theorem State.setRks_draws (s : State) (v : Vector Word 32) :
    (s.setRks v).draws = s.draws := rfl
@[simp] theorem State.getB_setRks (s : State) (v : Vector Word 32) (j : BReg) :
    (s.setRks v).getB j = s.getB j := rfl
@[simp] theorem State.getI_setRks (s : State) (v : Vector Word 32) (j : IReg) :
    (s.setRks v).getI j = s.getI j := rfl

/-! ## setH -/

@[simp] theorem State.setH_big (s : State) (v : Big) :
    (s.setH v).big = s.big := rfl
@[simp] theorem State.setH_idx (s : State) (v : Big) :
    (s.setH v).idx = s.idx := rfl
@[simp] theorem State.setH_zFlag (s : State) (v : Big) :
    (s.setH v).zFlag = s.zFlag := rfl
@[simp] theorem State.setH_tFlag (s : State) (v : Big) :
    (s.setH v).tFlag = s.tFlag := rfl
@[simp] theorem State.setH_pc (s : State) (v : Big) :
    (s.setH v).pc = s.pc := rfl
@[simp] theorem State.setH_hash (s : State) (v : Big) :
    (s.setH v).hash = v := rfl
@[simp] theorem State.setH_rk (s : State) (v : Big) :
    (s.setH v).rk = s.rk := rfl
@[simp] theorem State.setH_imem (s : State) (v : Big) :
    (s.setH v).imem = s.imem := rfl
@[simp] theorem State.setH_dmem (s : State) (v : Big) :
    (s.setH v).dmem = s.dmem := rfl
@[simp] theorem State.setH_ctrl (s : State) (v : Big) :
    (s.setH v).ctrl = s.ctrl := rfl
@[simp] theorem State.setH_status (s : State) (v : Big) :
    (s.setH v).status = s.status := rfl
@[simp] theorem State.setH_fpc (s : State) (v : Big) :
    (s.setH v).fpc = s.fpc := rfl
@[simp] theorem State.setH_finsn (s : State) (v : Big) :
    (s.setH v).finsn = s.finsn := rfl
@[simp] theorem State.setH_rst (s : State) (v : Big) :
    (s.setH v).rst = s.rst := rfl
@[simp] theorem State.setH_pending (s : State) (v : Big) :
    (s.setH v).pending = s.pending := rfl
@[simp] theorem State.setH_answer (s : State) (v : Big) :
    (s.setH v).answer = s.answer := rfl
@[simp] theorem State.setH_draws (s : State) (v : Big) :
    (s.setH v).draws = s.draws := rfl
@[simp] theorem State.getB_setH (s : State) (v : Big) (j : BReg) :
    (s.setH v).getB j = s.getB j := rfl
@[simp] theorem State.getI_setH (s : State) (v : Big) (j : IReg) :
    (s.setH v).getI j = s.getI j := rfl
@[simp] theorem State.getRk_setH (s : State) (v : Big) (j : Fin 32) :
    (s.setH v).getRk j = s.getRk j := rfl

/-! ## setZ -/

@[simp] theorem State.setZ_big (s : State) (v : Bool) :
    (s.setZ v).big = s.big := rfl
@[simp] theorem State.setZ_idx (s : State) (v : Bool) :
    (s.setZ v).idx = s.idx := rfl
@[simp] theorem State.setZ_zFlag (s : State) (v : Bool) :
    (s.setZ v).zFlag = v := rfl
@[simp] theorem State.setZ_tFlag (s : State) (v : Bool) :
    (s.setZ v).tFlag = s.tFlag := rfl
@[simp] theorem State.setZ_pc (s : State) (v : Bool) :
    (s.setZ v).pc = s.pc := rfl
@[simp] theorem State.setZ_hash (s : State) (v : Bool) :
    (s.setZ v).hash = s.hash := rfl
@[simp] theorem State.setZ_rk (s : State) (v : Bool) :
    (s.setZ v).rk = s.rk := rfl
@[simp] theorem State.setZ_imem (s : State) (v : Bool) :
    (s.setZ v).imem = s.imem := rfl
@[simp] theorem State.setZ_dmem (s : State) (v : Bool) :
    (s.setZ v).dmem = s.dmem := rfl
@[simp] theorem State.setZ_ctrl (s : State) (v : Bool) :
    (s.setZ v).ctrl = s.ctrl := rfl
@[simp] theorem State.setZ_status (s : State) (v : Bool) :
    (s.setZ v).status = s.status := rfl
@[simp] theorem State.setZ_fpc (s : State) (v : Bool) :
    (s.setZ v).fpc = s.fpc := rfl
@[simp] theorem State.setZ_finsn (s : State) (v : Bool) :
    (s.setZ v).finsn = s.finsn := rfl
@[simp] theorem State.setZ_rst (s : State) (v : Bool) :
    (s.setZ v).rst = s.rst := rfl
@[simp] theorem State.setZ_pending (s : State) (v : Bool) :
    (s.setZ v).pending = s.pending := rfl
@[simp] theorem State.setZ_answer (s : State) (v : Bool) :
    (s.setZ v).answer = s.answer := rfl
@[simp] theorem State.setZ_draws (s : State) (v : Bool) :
    (s.setZ v).draws = s.draws := rfl
@[simp] theorem State.getB_setZ (s : State) (v : Bool) (j : BReg) :
    (s.setZ v).getB j = s.getB j := rfl
@[simp] theorem State.getI_setZ (s : State) (v : Bool) (j : IReg) :
    (s.setZ v).getI j = s.getI j := rfl
@[simp] theorem State.getRk_setZ (s : State) (v : Bool) (j : Fin 32) :
    (s.setZ v).getRk j = s.getRk j := rfl

/-! ## setT -/

@[simp] theorem State.setT_big (s : State) (v : Bool) :
    (s.setT v).big = s.big := rfl
@[simp] theorem State.setT_idx (s : State) (v : Bool) :
    (s.setT v).idx = s.idx := rfl
@[simp] theorem State.setT_zFlag (s : State) (v : Bool) :
    (s.setT v).zFlag = s.zFlag := rfl
@[simp] theorem State.setT_tFlag (s : State) (v : Bool) :
    (s.setT v).tFlag = v := rfl
@[simp] theorem State.setT_pc (s : State) (v : Bool) :
    (s.setT v).pc = s.pc := rfl
@[simp] theorem State.setT_hash (s : State) (v : Bool) :
    (s.setT v).hash = s.hash := rfl
@[simp] theorem State.setT_rk (s : State) (v : Bool) :
    (s.setT v).rk = s.rk := rfl
@[simp] theorem State.setT_imem (s : State) (v : Bool) :
    (s.setT v).imem = s.imem := rfl
@[simp] theorem State.setT_dmem (s : State) (v : Bool) :
    (s.setT v).dmem = s.dmem := rfl
@[simp] theorem State.setT_ctrl (s : State) (v : Bool) :
    (s.setT v).ctrl = s.ctrl := rfl
@[simp] theorem State.setT_status (s : State) (v : Bool) :
    (s.setT v).status = s.status := rfl
@[simp] theorem State.setT_fpc (s : State) (v : Bool) :
    (s.setT v).fpc = s.fpc := rfl
@[simp] theorem State.setT_finsn (s : State) (v : Bool) :
    (s.setT v).finsn = s.finsn := rfl
@[simp] theorem State.setT_rst (s : State) (v : Bool) :
    (s.setT v).rst = s.rst := rfl
@[simp] theorem State.setT_pending (s : State) (v : Bool) :
    (s.setT v).pending = s.pending := rfl
@[simp] theorem State.setT_answer (s : State) (v : Bool) :
    (s.setT v).answer = s.answer := rfl
@[simp] theorem State.setT_draws (s : State) (v : Bool) :
    (s.setT v).draws = s.draws := rfl
@[simp] theorem State.getB_setT (s : State) (v : Bool) (j : BReg) :
    (s.setT v).getB j = s.getB j := rfl
@[simp] theorem State.getI_setT (s : State) (v : Bool) (j : IReg) :
    (s.setT v).getI j = s.getI j := rfl
@[simp] theorem State.getRk_setT (s : State) (v : Bool) (j : Fin 32) :
    (s.setT v).getRk j = s.getRk j := rfl

/-! ## setPc -/

@[simp] theorem State.setPc_big (s : State) (v : Pc) :
    (s.setPc v).big = s.big := rfl
@[simp] theorem State.setPc_idx (s : State) (v : Pc) :
    (s.setPc v).idx = s.idx := rfl
@[simp] theorem State.setPc_zFlag (s : State) (v : Pc) :
    (s.setPc v).zFlag = s.zFlag := rfl
@[simp] theorem State.setPc_tFlag (s : State) (v : Pc) :
    (s.setPc v).tFlag = s.tFlag := rfl
@[simp] theorem State.setPc_pc (s : State) (v : Pc) :
    (s.setPc v).pc = v := rfl
@[simp] theorem State.setPc_hash (s : State) (v : Pc) :
    (s.setPc v).hash = s.hash := rfl
@[simp] theorem State.setPc_rk (s : State) (v : Pc) :
    (s.setPc v).rk = s.rk := rfl
@[simp] theorem State.setPc_imem (s : State) (v : Pc) :
    (s.setPc v).imem = s.imem := rfl
@[simp] theorem State.setPc_dmem (s : State) (v : Pc) :
    (s.setPc v).dmem = s.dmem := rfl
@[simp] theorem State.setPc_ctrl (s : State) (v : Pc) :
    (s.setPc v).ctrl = s.ctrl := rfl
@[simp] theorem State.setPc_status (s : State) (v : Pc) :
    (s.setPc v).status = s.status := rfl
@[simp] theorem State.setPc_fpc (s : State) (v : Pc) :
    (s.setPc v).fpc = s.fpc := rfl
@[simp] theorem State.setPc_finsn (s : State) (v : Pc) :
    (s.setPc v).finsn = s.finsn := rfl
@[simp] theorem State.setPc_rst (s : State) (v : Pc) :
    (s.setPc v).rst = s.rst := rfl
@[simp] theorem State.setPc_pending (s : State) (v : Pc) :
    (s.setPc v).pending = s.pending := rfl
@[simp] theorem State.setPc_answer (s : State) (v : Pc) :
    (s.setPc v).answer = s.answer := rfl
@[simp] theorem State.setPc_draws (s : State) (v : Pc) :
    (s.setPc v).draws = s.draws := rfl
@[simp] theorem State.getB_setPc (s : State) (v : Pc) (j : BReg) :
    (s.setPc v).getB j = s.getB j := rfl
@[simp] theorem State.getI_setPc (s : State) (v : Pc) (j : IReg) :
    (s.setPc v).getI j = s.getI j := rfl
@[simp] theorem State.getRk_setPc (s : State) (v : Pc) (j : Fin 32) :
    (s.setPc v).getRk j = s.getRk j := rfl

/-! ## advance -/

@[simp] theorem State.advance_big (s : State) :
    (s.advance).big = s.big := rfl
@[simp] theorem State.advance_idx (s : State) :
    (s.advance).idx = s.idx := rfl
@[simp] theorem State.advance_zFlag (s : State) :
    (s.advance).zFlag = s.zFlag := rfl
@[simp] theorem State.advance_tFlag (s : State) :
    (s.advance).tFlag = s.tFlag := rfl
@[simp] theorem State.advance_pc (s : State) :
    (s.advance).pc = s.pc + 1 := rfl
@[simp] theorem State.advance_hash (s : State) :
    (s.advance).hash = s.hash := rfl
@[simp] theorem State.advance_rk (s : State) :
    (s.advance).rk = s.rk := rfl
@[simp] theorem State.advance_imem (s : State) :
    (s.advance).imem = s.imem := rfl
@[simp] theorem State.advance_dmem (s : State) :
    (s.advance).dmem = s.dmem := rfl
@[simp] theorem State.advance_ctrl (s : State) :
    (s.advance).ctrl = s.ctrl := rfl
@[simp] theorem State.advance_status (s : State) :
    (s.advance).status = s.status := rfl
@[simp] theorem State.advance_fpc (s : State) :
    (s.advance).fpc = s.fpc := rfl
@[simp] theorem State.advance_finsn (s : State) :
    (s.advance).finsn = s.finsn := rfl
@[simp] theorem State.advance_rst (s : State) :
    (s.advance).rst = s.rst := rfl
@[simp] theorem State.advance_pending (s : State) :
    (s.advance).pending = s.pending := rfl
@[simp] theorem State.advance_answer (s : State) :
    (s.advance).answer = s.answer := rfl
@[simp] theorem State.advance_draws (s : State) :
    (s.advance).draws = s.draws := rfl
@[simp] theorem State.getB_advance (s : State) (j : BReg) :
    (s.advance).getB j = s.getB j := rfl
@[simp] theorem State.getI_advance (s : State) (j : IReg) :
    (s.advance).getI j = s.getI j := rfl
@[simp] theorem State.getRk_advance (s : State) (j : Fin 32) :
    (s.advance).getRk j = s.getRk j := rfl

/-! ## jump -/

@[simp] theorem State.jump_big (s : State) (tgt : BitVec 8) :
    (s.jump tgt).big = s.big := rfl
@[simp] theorem State.jump_idx (s : State) (tgt : BitVec 8) :
    (s.jump tgt).idx = s.idx := rfl
@[simp] theorem State.jump_zFlag (s : State) (tgt : BitVec 8) :
    (s.jump tgt).zFlag = s.zFlag := rfl
@[simp] theorem State.jump_tFlag (s : State) (tgt : BitVec 8) :
    (s.jump tgt).tFlag = s.tFlag := rfl
@[simp] theorem State.jump_pc (s : State) (tgt : BitVec 8) :
    (s.jump tgt).pc = tgt.setWidth 9 := rfl
@[simp] theorem State.jump_hash (s : State) (tgt : BitVec 8) :
    (s.jump tgt).hash = s.hash := rfl
@[simp] theorem State.jump_rk (s : State) (tgt : BitVec 8) :
    (s.jump tgt).rk = s.rk := rfl
@[simp] theorem State.jump_imem (s : State) (tgt : BitVec 8) :
    (s.jump tgt).imem = s.imem := rfl
@[simp] theorem State.jump_dmem (s : State) (tgt : BitVec 8) :
    (s.jump tgt).dmem = s.dmem := rfl
@[simp] theorem State.jump_ctrl (s : State) (tgt : BitVec 8) :
    (s.jump tgt).ctrl = s.ctrl := rfl
@[simp] theorem State.jump_status (s : State) (tgt : BitVec 8) :
    (s.jump tgt).status = s.status := rfl
@[simp] theorem State.jump_fpc (s : State) (tgt : BitVec 8) :
    (s.jump tgt).fpc = s.fpc := rfl
@[simp] theorem State.jump_finsn (s : State) (tgt : BitVec 8) :
    (s.jump tgt).finsn = s.finsn := rfl
@[simp] theorem State.jump_rst (s : State) (tgt : BitVec 8) :
    (s.jump tgt).rst = s.rst := rfl
@[simp] theorem State.jump_pending (s : State) (tgt : BitVec 8) :
    (s.jump tgt).pending = s.pending := rfl
@[simp] theorem State.jump_answer (s : State) (tgt : BitVec 8) :
    (s.jump tgt).answer = s.answer := rfl
@[simp] theorem State.jump_draws (s : State) (tgt : BitVec 8) :
    (s.jump tgt).draws = s.draws := rfl
@[simp] theorem State.getB_jump (s : State) (tgt : BitVec 8) (j : BReg) :
    (s.jump tgt).getB j = s.getB j := rfl
@[simp] theorem State.getI_jump (s : State) (tgt : BitVec 8) (j : IReg) :
    (s.jump tgt).getI j = s.getI j := rfl
@[simp] theorem State.getRk_jump (s : State) (tgt : BitVec 8) (j : Fin 32) :
    (s.jump tgt).getRk j = s.getRk j := rfl

/-! ## branch -/

@[simp] theorem State.branch_big (s : State) (c : Bool) (tgt : BitVec 8) :
    (s.branch c tgt).big = s.big := by cases c <;> rfl
@[simp] theorem State.branch_idx (s : State) (c : Bool) (tgt : BitVec 8) :
    (s.branch c tgt).idx = s.idx := by cases c <;> rfl
@[simp] theorem State.branch_zFlag (s : State) (c : Bool) (tgt : BitVec 8) :
    (s.branch c tgt).zFlag = s.zFlag := by cases c <;> rfl
@[simp] theorem State.branch_tFlag (s : State) (c : Bool) (tgt : BitVec 8) :
    (s.branch c tgt).tFlag = s.tFlag := by cases c <;> rfl
@[simp] theorem State.branch_pc (s : State) (c : Bool) (tgt : BitVec 8) :
    (s.branch c tgt).pc = if c then tgt.setWidth 9 else s.pc + 1 := by cases c <;> rfl
@[simp] theorem State.branch_hash (s : State) (c : Bool) (tgt : BitVec 8) :
    (s.branch c tgt).hash = s.hash := by cases c <;> rfl
@[simp] theorem State.branch_rk (s : State) (c : Bool) (tgt : BitVec 8) :
    (s.branch c tgt).rk = s.rk := by cases c <;> rfl
@[simp] theorem State.branch_imem (s : State) (c : Bool) (tgt : BitVec 8) :
    (s.branch c tgt).imem = s.imem := by cases c <;> rfl
@[simp] theorem State.branch_dmem (s : State) (c : Bool) (tgt : BitVec 8) :
    (s.branch c tgt).dmem = s.dmem := by cases c <;> rfl
@[simp] theorem State.branch_ctrl (s : State) (c : Bool) (tgt : BitVec 8) :
    (s.branch c tgt).ctrl = s.ctrl := by cases c <;> rfl
@[simp] theorem State.branch_status (s : State) (c : Bool) (tgt : BitVec 8) :
    (s.branch c tgt).status = s.status := by cases c <;> rfl
@[simp] theorem State.branch_fpc (s : State) (c : Bool) (tgt : BitVec 8) :
    (s.branch c tgt).fpc = s.fpc := by cases c <;> rfl
@[simp] theorem State.branch_finsn (s : State) (c : Bool) (tgt : BitVec 8) :
    (s.branch c tgt).finsn = s.finsn := by cases c <;> rfl
@[simp] theorem State.branch_rst (s : State) (c : Bool) (tgt : BitVec 8) :
    (s.branch c tgt).rst = s.rst := by cases c <;> rfl
@[simp] theorem State.branch_pending (s : State) (c : Bool) (tgt : BitVec 8) :
    (s.branch c tgt).pending = s.pending := by cases c <;> rfl
@[simp] theorem State.branch_answer (s : State) (c : Bool) (tgt : BitVec 8) :
    (s.branch c tgt).answer = s.answer := by cases c <;> rfl
@[simp] theorem State.branch_draws (s : State) (c : Bool) (tgt : BitVec 8) :
    (s.branch c tgt).draws = s.draws := by cases c <;> rfl
@[simp] theorem State.getB_branch (s : State) (c : Bool) (tgt : BitVec 8) (j : BReg) :
    (s.branch c tgt).getB j = s.getB j := by cases c <;> rfl
@[simp] theorem State.getI_branch (s : State) (c : Bool) (tgt : BitVec 8) (j : IReg) :
    (s.branch c tgt).getI j = s.getI j := by cases c <;> rfl
@[simp] theorem State.getRk_branch (s : State) (c : Bool) (tgt : BitVec 8) (j : Fin 32) :
    (s.branch c tgt).getRk j = s.getRk j := by cases c <;> rfl

/-! ## memWrite -/

@[simp] theorem State.memWrite_big (s : State) (a n v : Nat) :
    (s.memWrite a n v).big = s.big := rfl
@[simp] theorem State.memWrite_idx (s : State) (a n v : Nat) :
    (s.memWrite a n v).idx = s.idx := rfl
@[simp] theorem State.memWrite_zFlag (s : State) (a n v : Nat) :
    (s.memWrite a n v).zFlag = s.zFlag := rfl
@[simp] theorem State.memWrite_tFlag (s : State) (a n v : Nat) :
    (s.memWrite a n v).tFlag = s.tFlag := rfl
@[simp] theorem State.memWrite_pc (s : State) (a n v : Nat) :
    (s.memWrite a n v).pc = s.pc := rfl
@[simp] theorem State.memWrite_hash (s : State) (a n v : Nat) :
    (s.memWrite a n v).hash = s.hash := rfl
@[simp] theorem State.memWrite_rk (s : State) (a n v : Nat) :
    (s.memWrite a n v).rk = s.rk := rfl
@[simp] theorem State.memWrite_imem (s : State) (a n v : Nat) :
    (s.memWrite a n v).imem = s.imem := rfl
@[simp] theorem State.memWrite_dmem (s : State) (a n v : Nat) :
    (s.memWrite a n v).dmem = Mem.setAll s.dmem a (bytesBE n v) := rfl
@[simp] theorem State.memWrite_ctrl (s : State) (a n v : Nat) :
    (s.memWrite a n v).ctrl = s.ctrl := rfl
@[simp] theorem State.memWrite_status (s : State) (a n v : Nat) :
    (s.memWrite a n v).status = s.status := rfl
@[simp] theorem State.memWrite_fpc (s : State) (a n v : Nat) :
    (s.memWrite a n v).fpc = s.fpc := rfl
@[simp] theorem State.memWrite_finsn (s : State) (a n v : Nat) :
    (s.memWrite a n v).finsn = s.finsn := rfl
@[simp] theorem State.memWrite_rst (s : State) (a n v : Nat) :
    (s.memWrite a n v).rst = s.rst := rfl
@[simp] theorem State.memWrite_pending (s : State) (a n v : Nat) :
    (s.memWrite a n v).pending = s.pending := rfl
@[simp] theorem State.memWrite_answer (s : State) (a n v : Nat) :
    (s.memWrite a n v).answer = s.answer := rfl
@[simp] theorem State.memWrite_draws (s : State) (a n v : Nat) :
    (s.memWrite a n v).draws = s.draws := rfl
@[simp] theorem State.getB_memWrite (s : State) (a n v : Nat) (j : BReg) :
    (s.memWrite a n v).getB j = s.getB j := rfl
@[simp] theorem State.getI_memWrite (s : State) (a n v : Nat) (j : IReg) :
    (s.memWrite a n v).getI j = s.getI j := rfl
@[simp] theorem State.getRk_memWrite (s : State) (a n v : Nat) (j : Fin 32) :
    (s.memWrite a n v).getRk j = s.getRk j := rfl

/-! ## stopDone -/

@[simp] theorem State.stopDone_big (s : State) (w : Word) :
    (s.stopDone w).big = s.big := rfl
@[simp] theorem State.stopDone_idx (s : State) (w : Word) :
    (s.stopDone w).idx = s.idx := rfl
@[simp] theorem State.stopDone_zFlag (s : State) (w : Word) :
    (s.stopDone w).zFlag = s.zFlag := rfl
@[simp] theorem State.stopDone_tFlag (s : State) (w : Word) :
    (s.stopDone w).tFlag = s.tFlag := rfl
@[simp] theorem State.stopDone_pc (s : State) (w : Word) :
    (s.stopDone w).pc = s.pc := rfl
@[simp] theorem State.stopDone_hash (s : State) (w : Word) :
    (s.stopDone w).hash = s.hash := rfl
@[simp] theorem State.stopDone_rk (s : State) (w : Word) :
    (s.stopDone w).rk = s.rk := rfl
@[simp] theorem State.stopDone_imem (s : State) (w : Word) :
    (s.stopDone w).imem = s.imem := rfl
@[simp] theorem State.stopDone_dmem (s : State) (w : Word) :
    (s.stopDone w).dmem = s.dmem := rfl
@[simp] theorem State.stopDone_ctrl (s : State) (w : Word) :
    (s.stopDone w).ctrl = s.ctrl := rfl
@[simp] theorem State.stopDone_status (s : State) (w : Word) :
    (s.stopDone w).status = { s.status with busy := false, done := true } := rfl
@[simp] theorem State.stopDone_fpc (s : State) (w : Word) :
    (s.stopDone w).fpc = s.pc := rfl
@[simp] theorem State.stopDone_finsn (s : State) (w : Word) :
    (s.stopDone w).finsn = w := rfl
@[simp] theorem State.stopDone_rst (s : State) (w : Word) :
    (s.stopDone w).rst = s.rst := rfl
@[simp] theorem State.stopDone_pending (s : State) (w : Word) :
    (s.stopDone w).pending = s.pending := rfl
@[simp] theorem State.stopDone_answer (s : State) (w : Word) :
    (s.stopDone w).answer = s.answer := rfl
@[simp] theorem State.stopDone_draws (s : State) (w : Word) :
    (s.stopDone w).draws = s.draws := rfl
@[simp] theorem State.getB_stopDone (s : State) (w : Word) (j : BReg) :
    (s.stopDone w).getB j = s.getB j := rfl
@[simp] theorem State.getI_stopDone (s : State) (w : Word) (j : IReg) :
    (s.stopDone w).getI j = s.getI j := rfl
@[simp] theorem State.getRk_stopDone (s : State) (w : Word) (j : Fin 32) :
    (s.stopDone w).getRk j = s.getRk j := rfl

/-! ## raise -/

@[simp] theorem State.raise_big (s : State) (c : Cause) (w : Word) :
    (s.raise c w).big = s.big := rfl
@[simp] theorem State.raise_idx (s : State) (c : Cause) (w : Word) :
    (s.raise c w).idx = s.idx := rfl
@[simp] theorem State.raise_zFlag (s : State) (c : Cause) (w : Word) :
    (s.raise c w).zFlag = s.zFlag := rfl
@[simp] theorem State.raise_tFlag (s : State) (c : Cause) (w : Word) :
    (s.raise c w).tFlag = s.tFlag := rfl
@[simp] theorem State.raise_pc (s : State) (c : Cause) (w : Word) :
    (s.raise c w).pc = s.pc := rfl
@[simp] theorem State.raise_hash (s : State) (c : Cause) (w : Word) :
    (s.raise c w).hash = s.hash := rfl
@[simp] theorem State.raise_rk (s : State) (c : Cause) (w : Word) :
    (s.raise c w).rk = s.rk := rfl
@[simp] theorem State.raise_imem (s : State) (c : Cause) (w : Word) :
    (s.raise c w).imem = s.imem := rfl
@[simp] theorem State.raise_dmem (s : State) (c : Cause) (w : Word) :
    (s.raise c w).dmem = s.dmem := rfl
@[simp] theorem State.raise_ctrl (s : State) (c : Cause) (w : Word) :
    (s.raise c w).ctrl = s.ctrl := rfl
@[simp] theorem State.raise_status (s : State) (c : Cause) (w : Word) :
    (s.raise c w).status = { s.status with busy := false, fault := true, cause := c } := rfl
@[simp] theorem State.raise_fpc (s : State) (c : Cause) (w : Word) :
    (s.raise c w).fpc = s.pc := rfl
@[simp] theorem State.raise_finsn (s : State) (c : Cause) (w : Word) :
    (s.raise c w).finsn = w := rfl
@[simp] theorem State.raise_rst (s : State) (c : Cause) (w : Word) :
    (s.raise c w).rst = s.rst := rfl
@[simp] theorem State.raise_pending (s : State) (c : Cause) (w : Word) :
    (s.raise c w).pending = s.pending := rfl
@[simp] theorem State.raise_answer (s : State) (c : Cause) (w : Word) :
    (s.raise c w).answer = s.answer := rfl
@[simp] theorem State.raise_draws (s : State) (c : Cause) (w : Word) :
    (s.raise c w).draws = s.draws := rfl
@[simp] theorem State.getB_raise (s : State) (c : Cause) (w : Word) (j : BReg) :
    (s.raise c w).getB j = s.getB j := rfl
@[simp] theorem State.getI_raise (s : State) (c : Cause) (w : Word) (j : IReg) :
    (s.raise c w).getI j = s.getI j := rfl
@[simp] theorem State.getRk_raise (s : State) (c : Cause) (w : Word) (j : Fin 32) :
    (s.raise c w).getRk j = s.getRk j := rfl

/-! ## start -/

@[simp] theorem State.start_big (s : State) (ie : Bool) (e : BitVec 8) :
    (s.start ie e).big = s.big := rfl
@[simp] theorem State.start_idx (s : State) (ie : Bool) (e : BitVec 8) :
    (s.start ie e).idx = s.idx := rfl
@[simp] theorem State.start_zFlag (s : State) (ie : Bool) (e : BitVec 8) :
    (s.start ie e).zFlag = s.zFlag := rfl
@[simp] theorem State.start_tFlag (s : State) (ie : Bool) (e : BitVec 8) :
    (s.start ie e).tFlag = s.tFlag := rfl
@[simp] theorem State.start_pc (s : State) (ie : Bool) (e : BitVec 8) :
    (s.start ie e).pc = e.setWidth 9 := rfl
@[simp] theorem State.start_hash (s : State) (ie : Bool) (e : BitVec 8) :
    (s.start ie e).hash = s.hash := rfl
@[simp] theorem State.start_rk (s : State) (ie : Bool) (e : BitVec 8) :
    (s.start ie e).rk = s.rk := rfl
@[simp] theorem State.start_imem (s : State) (ie : Bool) (e : BitVec 8) :
    (s.start ie e).imem = s.imem := rfl
@[simp] theorem State.start_dmem (s : State) (ie : Bool) (e : BitVec 8) :
    (s.start ie e).dmem = s.dmem := rfl
@[simp] theorem State.start_ctrl (s : State) (ie : Bool) (e : BitVec 8) :
    (s.start ie e).ctrl = ⟨ie, e⟩ := rfl
@[simp] theorem State.start_status (s : State) (ie : Bool) (e : BitVec 8) :
    (s.start ie e).status = ⟨true, false, false, s.status.herr, .none⟩ := rfl
@[simp] theorem State.start_fpc (s : State) (ie : Bool) (e : BitVec 8) :
    (s.start ie e).fpc = s.fpc := rfl
@[simp] theorem State.start_finsn (s : State) (ie : Bool) (e : BitVec 8) :
    (s.start ie e).finsn = s.finsn := rfl
@[simp] theorem State.start_rst (s : State) (ie : Bool) (e : BitVec 8) :
    (s.start ie e).rst = s.rst := rfl
@[simp] theorem State.start_pending (s : State) (ie : Bool) (e : BitVec 8) :
    (s.start ie e).pending = s.pending := rfl
@[simp] theorem State.start_answer (s : State) (ie : Bool) (e : BitVec 8) :
    (s.start ie e).answer = s.answer := rfl
@[simp] theorem State.start_draws (s : State) (ie : Bool) (e : BitVec 8) :
    (s.start ie e).draws = s.draws := rfl
@[simp] theorem State.getB_start (s : State) (ie : Bool) (e : BitVec 8) (j : BReg) :
    (s.start ie e).getB j = s.getB j := rfl
@[simp] theorem State.getI_start (s : State) (ie : Bool) (e : BitVec 8) (j : IReg) :
    (s.start ie e).getI j = s.getI j := rfl
@[simp] theorem State.getRk_start (s : State) (ie : Bool) (e : BitVec 8) (j : Fin 32) :
    (s.start ie e).getRk j = s.getRk j := rfl

/-! ## setHerr -/

@[simp] theorem State.setHerr_big (s : State) :
    (s.setHerr).big = s.big := rfl
@[simp] theorem State.setHerr_idx (s : State) :
    (s.setHerr).idx = s.idx := rfl
@[simp] theorem State.setHerr_zFlag (s : State) :
    (s.setHerr).zFlag = s.zFlag := rfl
@[simp] theorem State.setHerr_tFlag (s : State) :
    (s.setHerr).tFlag = s.tFlag := rfl
@[simp] theorem State.setHerr_pc (s : State) :
    (s.setHerr).pc = s.pc := rfl
@[simp] theorem State.setHerr_hash (s : State) :
    (s.setHerr).hash = s.hash := rfl
@[simp] theorem State.setHerr_rk (s : State) :
    (s.setHerr).rk = s.rk := rfl
@[simp] theorem State.setHerr_imem (s : State) :
    (s.setHerr).imem = s.imem := rfl
@[simp] theorem State.setHerr_dmem (s : State) :
    (s.setHerr).dmem = s.dmem := rfl
@[simp] theorem State.setHerr_ctrl (s : State) :
    (s.setHerr).ctrl = s.ctrl := rfl
@[simp] theorem State.setHerr_status (s : State) :
    (s.setHerr).status = { s.status with herr := true } := rfl
@[simp] theorem State.setHerr_fpc (s : State) :
    (s.setHerr).fpc = s.fpc := rfl
@[simp] theorem State.setHerr_finsn (s : State) :
    (s.setHerr).finsn = s.finsn := rfl
@[simp] theorem State.setHerr_rst (s : State) :
    (s.setHerr).rst = s.rst := rfl
@[simp] theorem State.setHerr_pending (s : State) :
    (s.setHerr).pending = s.pending := rfl
@[simp] theorem State.setHerr_answer (s : State) :
    (s.setHerr).answer = s.answer := rfl
@[simp] theorem State.setHerr_draws (s : State) :
    (s.setHerr).draws = s.draws := rfl
@[simp] theorem State.getB_setHerr (s : State) (j : BReg) :
    (s.setHerr).getB j = s.getB j := rfl
@[simp] theorem State.getI_setHerr (s : State) (j : IReg) :
    (s.setHerr).getI j = s.getI j := rfl
@[simp] theorem State.getRk_setHerr (s : State) (j : Fin 32) :
    (s.setHerr).getRk j = s.getRk j := rfl

/-! ## putModular -/

@[simp] theorem State.putModular_big (s : State) (r : BReg) (n : Nat) :
    (s.putModular r n).big = s.big.set r.val (BitVec.ofNat 256 n) r.isLt := rfl
@[simp] theorem State.putModular_idx (s : State) (r : BReg) (n : Nat) :
    (s.putModular r n).idx = s.idx := rfl
@[simp] theorem State.putModular_zFlag (s : State) (r : BReg) (n : Nat) :
    (s.putModular r n).zFlag = zeroFlag n := rfl
@[simp] theorem State.putModular_tFlag (s : State) (r : BReg) (n : Nat) :
    (s.putModular r n).tFlag = s.tFlag := rfl
@[simp] theorem State.putModular_pc (s : State) (r : BReg) (n : Nat) :
    (s.putModular r n).pc = s.pc + 1 := rfl
@[simp] theorem State.putModular_hash (s : State) (r : BReg) (n : Nat) :
    (s.putModular r n).hash = s.hash := rfl
@[simp] theorem State.putModular_rk (s : State) (r : BReg) (n : Nat) :
    (s.putModular r n).rk = s.rk := rfl
@[simp] theorem State.putModular_imem (s : State) (r : BReg) (n : Nat) :
    (s.putModular r n).imem = s.imem := rfl
@[simp] theorem State.putModular_dmem (s : State) (r : BReg) (n : Nat) :
    (s.putModular r n).dmem = s.dmem := rfl
@[simp] theorem State.putModular_ctrl (s : State) (r : BReg) (n : Nat) :
    (s.putModular r n).ctrl = s.ctrl := rfl
@[simp] theorem State.putModular_status (s : State) (r : BReg) (n : Nat) :
    (s.putModular r n).status = s.status := rfl
@[simp] theorem State.putModular_fpc (s : State) (r : BReg) (n : Nat) :
    (s.putModular r n).fpc = s.fpc := rfl
@[simp] theorem State.putModular_finsn (s : State) (r : BReg) (n : Nat) :
    (s.putModular r n).finsn = s.finsn := rfl
@[simp] theorem State.putModular_rst (s : State) (r : BReg) (n : Nat) :
    (s.putModular r n).rst = s.rst := rfl
@[simp] theorem State.putModular_pending (s : State) (r : BReg) (n : Nat) :
    (s.putModular r n).pending = s.pending := rfl
@[simp] theorem State.putModular_answer (s : State) (r : BReg) (n : Nat) :
    (s.putModular r n).answer = s.answer := rfl
@[simp] theorem State.putModular_draws (s : State) (r : BReg) (n : Nat) :
    (s.putModular r n).draws = s.draws := rfl
@[simp] theorem State.getI_putModular (s : State) (r : BReg) (n : Nat) (j : IReg) :
    (s.putModular r n).getI j = s.getI j := rfl
@[simp] theorem State.getRk_putModular (s : State) (r : BReg) (n : Nat) (j : Fin 32) :
    (s.putModular r n).getRk j = s.getRk j := rfl

/-! ## setSlot -/

@[simp] theorem State.setSlot_big (s : State) (k : Slot) (x y z : Big) :
    (s.setSlot k x y z).big = (((s.setB (slotX k) x).setB (slotY k) y).setB (slotZ k) z).big := rfl
@[simp] theorem State.setSlot_idx (s : State) (k : Slot) (x y z : Big) :
    (s.setSlot k x y z).idx = s.idx := rfl
@[simp] theorem State.setSlot_zFlag (s : State) (k : Slot) (x y z : Big) :
    (s.setSlot k x y z).zFlag = s.zFlag := rfl
@[simp] theorem State.setSlot_tFlag (s : State) (k : Slot) (x y z : Big) :
    (s.setSlot k x y z).tFlag = s.tFlag := rfl
@[simp] theorem State.setSlot_pc (s : State) (k : Slot) (x y z : Big) :
    (s.setSlot k x y z).pc = s.pc := rfl
@[simp] theorem State.setSlot_hash (s : State) (k : Slot) (x y z : Big) :
    (s.setSlot k x y z).hash = s.hash := rfl
@[simp] theorem State.setSlot_rk (s : State) (k : Slot) (x y z : Big) :
    (s.setSlot k x y z).rk = s.rk := rfl
@[simp] theorem State.setSlot_imem (s : State) (k : Slot) (x y z : Big) :
    (s.setSlot k x y z).imem = s.imem := rfl
@[simp] theorem State.setSlot_dmem (s : State) (k : Slot) (x y z : Big) :
    (s.setSlot k x y z).dmem = s.dmem := rfl
@[simp] theorem State.setSlot_ctrl (s : State) (k : Slot) (x y z : Big) :
    (s.setSlot k x y z).ctrl = s.ctrl := rfl
@[simp] theorem State.setSlot_status (s : State) (k : Slot) (x y z : Big) :
    (s.setSlot k x y z).status = s.status := rfl
@[simp] theorem State.setSlot_fpc (s : State) (k : Slot) (x y z : Big) :
    (s.setSlot k x y z).fpc = s.fpc := rfl
@[simp] theorem State.setSlot_finsn (s : State) (k : Slot) (x y z : Big) :
    (s.setSlot k x y z).finsn = s.finsn := rfl
@[simp] theorem State.setSlot_rst (s : State) (k : Slot) (x y z : Big) :
    (s.setSlot k x y z).rst = s.rst := rfl
@[simp] theorem State.setSlot_pending (s : State) (k : Slot) (x y z : Big) :
    (s.setSlot k x y z).pending = s.pending := rfl
@[simp] theorem State.setSlot_answer (s : State) (k : Slot) (x y z : Big) :
    (s.setSlot k x y z).answer = s.answer := rfl
@[simp] theorem State.setSlot_draws (s : State) (k : Slot) (x y z : Big) :
    (s.setSlot k x y z).draws = s.draws := rfl
@[simp] theorem State.getI_setSlot (s : State) (k : Slot) (x y z : Big) (j : IReg) :
    (s.setSlot k x y z).getI j = s.getI j := rfl
@[simp] theorem State.getRk_setSlot (s : State) (k : Slot) (x y z : Big) (j : Fin 32) :
    (s.setSlot k x y z).getRk j = s.getRk j := rfl

/-! ## putPoint -/

@[simp] theorem State.putPoint_idx (s : State) (k : Slot) (q : PointResult) :
    (s.putPoint k q).idx = s.idx := by cases q <;> rfl
@[simp] theorem State.putPoint_zFlag (s : State) (k : Slot) (q : PointResult) :
    (s.putPoint k q).zFlag = s.zFlag := by cases q <;> rfl
@[simp] theorem State.putPoint_tFlag (s : State) (k : Slot) (q : PointResult) :
    (s.putPoint k q).tFlag = s.tFlag := by cases q <;> rfl
@[simp] theorem State.putPoint_pc (s : State) (k : Slot) (q : PointResult) :
    (s.putPoint k q).pc = s.pc := by cases q <;> rfl
@[simp] theorem State.putPoint_hash (s : State) (k : Slot) (q : PointResult) :
    (s.putPoint k q).hash = s.hash := by cases q <;> rfl
@[simp] theorem State.putPoint_rk (s : State) (k : Slot) (q : PointResult) :
    (s.putPoint k q).rk = s.rk := by cases q <;> rfl
@[simp] theorem State.putPoint_imem (s : State) (k : Slot) (q : PointResult) :
    (s.putPoint k q).imem = s.imem := by cases q <;> rfl
@[simp] theorem State.putPoint_dmem (s : State) (k : Slot) (q : PointResult) :
    (s.putPoint k q).dmem = s.dmem := by cases q <;> rfl
@[simp] theorem State.putPoint_ctrl (s : State) (k : Slot) (q : PointResult) :
    (s.putPoint k q).ctrl = s.ctrl := by cases q <;> rfl
@[simp] theorem State.putPoint_status (s : State) (k : Slot) (q : PointResult) :
    (s.putPoint k q).status = s.status := by cases q <;> rfl
@[simp] theorem State.putPoint_fpc (s : State) (k : Slot) (q : PointResult) :
    (s.putPoint k q).fpc = s.fpc := by cases q <;> rfl
@[simp] theorem State.putPoint_finsn (s : State) (k : Slot) (q : PointResult) :
    (s.putPoint k q).finsn = s.finsn := by cases q <;> rfl
@[simp] theorem State.putPoint_rst (s : State) (k : Slot) (q : PointResult) :
    (s.putPoint k q).rst = s.rst := by cases q <;> rfl
@[simp] theorem State.putPoint_pending (s : State) (k : Slot) (q : PointResult) :
    (s.putPoint k q).pending = s.pending := by cases q <;> rfl
@[simp] theorem State.putPoint_answer (s : State) (k : Slot) (q : PointResult) :
    (s.putPoint k q).answer = s.answer := by cases q <;> rfl
@[simp] theorem State.putPoint_draws (s : State) (k : Slot) (q : PointResult) :
    (s.putPoint k q).draws = s.draws := by cases q <;> rfl
@[simp] theorem State.getI_putPoint (s : State) (k : Slot) (q : PointResult) (j : IReg) :
    (s.putPoint k q).getI j = s.getI j := by cases q <;> rfl
@[simp] theorem State.getRk_putPoint (s : State) (k : Slot) (q : PointResult) (j : Fin 32) :
    (s.putPoint k q).getRk j = s.getRk j := by cases q <;> rfl

/-! ## Registers after their own update -/

/-- A register reads what was written to it, and every other reads as before. -/
theorem State.getB_setB (s : State) (r x : BReg) (v : Big) :
    (s.setB r v).getB x = if x = r then v else s.getB x := by
  by_cases h : x = r
  · subst h; simp [State.getB, State.setB, Vector.get_eq_getElem]
  · have hv : r.val ≠ x.val := fun e => h (Fin.ext e.symm)
    simp [State.getB, State.setB, Vector.get_eq_getElem, h, hv]

@[simp] theorem State.getB_setB_self (s : State) (r : BReg) (v : Big) : (s.setB r v).getB r = v := by
  simp [State.getB_setB]

theorem State.getB_setB_ne (s : State) {r x : BReg} (v : Big) (h : x ≠ r) :
    (s.setB r v).getB x = s.getB x := by
  simp [State.getB_setB, h]

/-- An index register reads what was written to it, and every other reads as before. -/
theorem State.getI_setI (s : State) (k x : IReg) (v : Half) :
    (s.setI k v).getI x = if x = k then v else s.getI x := by
  by_cases h : x = k
  · subst h; simp [State.getI, State.setI, Vector.get_eq_getElem]
  · have hv : k.val ≠ x.val := fun e => h (Fin.ext e.symm)
    simp [State.getI, State.setI, Vector.get_eq_getElem, h, hv]

@[simp] theorem State.getI_setI_self (s : State) (k : IReg) (v : Half) : (s.setI k v).getI k = v := by
  simp [State.getI_setI]

/-- A round key reads what was written to it, and every other reads as before. -/
theorem State.getRk_setRk (s : State) (i x : Fin 32) (v : Word) :
    (s.setRk i v).getRk x = if x = i then v else s.getRk x := by
  by_cases h : x = i
  · subst h; simp [State.getRk, State.setRk, Vector.get_eq_getElem]
  · have hv : i.val ≠ x.val := fun e => h (Fin.ext e.symm)
    simp [State.getRk, State.setRk, Vector.get_eq_getElem, h, hv]

@[simp] theorem State.getRk_setRks (s : State) (v : Vector Word 32) (i : Fin 32) :
    (s.setRks v).getRk i = v.get i := rfl

/-- A modular result in the destination, and every other register as before (R93). -/
theorem State.getB_putModular (s : State) (r x : BReg) (n : Nat) :
    (s.putModular r n).getB x = if x = r then BitVec.ofNat 256 n else s.getB x :=
  State.getB_setB s r x _

/-! ## Point slots (R21) -/

@[simp] theorem slotX_val (k : Slot) : (slotX k).val = 4 * k.val := rfl
@[simp] theorem slotY_val (k : Slot) : (slotY k).val = 4 * k.val + 1 := rfl
@[simp] theorem slotZ_val (k : Slot) : (slotZ k).val = 4 * k.val + 2 := rfl

/-- The three registers of two slots are the same ones exactly where the slots are, and the coordinates
never share a register. -/
theorem slot_registers_distinct (j k : Slot) :
    slotX j ≠ slotY k ∧ slotX j ≠ slotZ k ∧ slotY j ≠ slotZ k
      ∧ (slotX j = slotX k ↔ j = k) ∧ (slotY j = slotY k ↔ j = k) ∧ (slotZ j = slotZ k ↔ j = k) := by
  simp only [ne_eq, Fin.ext_iff, slotX_val, slotY_val, slotZ_val]
  omega

@[simp] theorem slotX_ne_slotY (j k : Slot) : slotX j ≠ slotY k := (slot_registers_distinct j k).1
@[simp] theorem slotX_ne_slotZ (j k : Slot) : slotX j ≠ slotZ k := (slot_registers_distinct j k).2.1
@[simp] theorem slotY_ne_slotZ (j k : Slot) : slotY j ≠ slotZ k := (slot_registers_distinct j k).2.2.1

/-- What a slot holds after it is written, and that B[4k+3] and the other slots are as before. -/
theorem State.getB_setSlot (s : State) (k : Slot) (x y z : Big) (r : BReg) :
    (s.setSlot k x y z).getB r
      = if r = slotZ k then z else if r = slotY k then y else if r = slotX k then x else s.getB r := by
  simp only [State.setSlot, State.getB_setB]

@[simp] theorem State.getB_setSlot_slotX (s : State) (k : Slot) (x y z : Big) :
    (s.setSlot k x y z).getB (slotX k) = x := by
  simp [State.getB_setSlot]

@[simp] theorem State.getB_setSlot_slotY (s : State) (k : Slot) (x y z : Big) :
    (s.setSlot k x y z).getB (slotY k) = y := by
  simp [State.getB_setSlot]

@[simp] theorem State.getB_setSlot_slotZ (s : State) (k : Slot) (x y z : Big) :
    (s.setSlot k x y z).getB (slotZ k) = z := by
  simp [State.getB_setSlot]

/-- Writing a point leaves every register outside the slot as it was. -/
theorem State.getB_putPoint_of_ne (s : State) (k : Slot) (q : PointResult) (r : BReg)
    (hx : r ≠ slotX k) (hy : r ≠ slotY k) (hz : r ≠ slotZ k) :
    (s.putPoint k q).getB r = s.getB r := by
  cases q <;> simp [State.putPoint, State.getB_setSlot, hx, hy, hz]

end Sys2Proof.Machine
end

