-- ==== Sys2Proof/Laws/Ops.lean ====
section
/-! SUPPORT. What each shared operation can do, said once, and what any instruction can do to the state:
later proofs cite these and do not unfold the operations. -/

namespace Sys2Proof.Machine

/-! ## Shared operations -/

/-- A fetch gives the listed word and the same state, or a draw and a state that counts it (R48, R70). -/
theorem State.fetch_cases (s : State) :
    (∃ w, Mem.get? s.imem s.pc.toNat = some w ∧ s.fetch = (w, s)) ∨
    (Mem.get? s.imem s.pc.toNat = none
      ∧ s.fetch = (Config.freeWord s.draws, { s with draws := s.draws + 1 })) := by
  unfold State.fetch
  cases h : Mem.get? s.imem s.pc.toNat with
  | none => exact .inr ⟨rfl, rfl⟩
  | some w => exact .inl ⟨w, rfl, rfl⟩

/-- A read of DMEM changes the count of draws and nothing else. -/
theorem State.memRead_snd (s : State) (a n : Nat) :
    (s.memRead a n).2 = { s with draws := (Mem.readBytes s.dmem a s.draws n).2 } := rfl

/-- A load of `n` bytes: in bounds it writes the destination and counts draws, otherwise DADDR. -/
theorem loadBytes_cases (n : Nat) (i : Instr) (rd : BReg) (ea : Nat) (s : State) :
    (ea + n ≤ Config.dmemBytes ∧ loadBytes n i rd ea s
      = .next ((({ s with draws := (Mem.readBytes s.dmem ea s.draws n).2 } : State).setB rd
          (BitVec.ofNat 256 (natOfBytes (Mem.readBytes s.dmem ea s.draws n).1))).advance)) ∨
    (Config.dmemBytes < ea + n ∧ loadBytes n i rd ea s = .next (s.raise .daddr (encode i))) := by
  unfold loadBytes inBounds
  by_cases h : ea + n ≤ Config.dmemBytes
  · exact .inl ⟨h, by simp only [h, decide_true, if_true]; rfl⟩
  · exact .inr ⟨by omega, by simp [h]⟩

/-- A store of `n` bytes: in bounds it writes them, otherwise DADDR. -/
theorem storeBytes_cases (n : Nat) (i : Instr) (v ea : Nat) (s : State) :
    (ea + n ≤ Config.dmemBytes ∧ storeBytes n i v ea s = .next (s.memWrite ea n v).advance) ∨
    (Config.dmemBytes < ea + n ∧ storeBytes n i v ea s = .next (s.raise .daddr (encode i))) := by
  unfold storeBytes inBounds
  by_cases h : ea + n ≤ Config.dmemBytes
  · exact .inl ⟨h, by simp [h]⟩
  · exact .inr ⟨by omega, by simp [h]⟩

/-- The bytes a store leaves: its own `n`, and every other as before. -/
theorem State.get?_memWrite (s : State) (a n v b : Nat) :
    Mem.get? (s.memWrite a n v).dmem b
      = if a ≤ b ∧ b < a + n then some (BitVec.ofNat 8 (v / 256 ^ (n - 1 - (b - a))))
        else Mem.get? s.dmem b := by
  rw [State.memWrite_dmem, Mem.get?_setAll, bytesBE_length]
  split
  · exact bytesBE_getElem n v (b - a) (by omega)
  · rfl

/-- A load of what a store has just written: the value modulo its width, and no draw (R55). -/
theorem State.memRead_memWrite (s : State) (a n v : Nat) :
    (s.memWrite a n v).memRead a n = (v % 256 ^ n, s.memWrite a n v) := by
  have h := Mem.readBytes_setAll s.dmem a s.draws (bytesBE n v)
  rw [bytesBE_length] at h
  simp only [State.memRead, State.memWrite, h, natOfBytes_bytesBE]

/-- A modular instruction: in range it puts the result, otherwise RANGE. -/
theorem modularResult_cases (ok : Bool) (i : Instr) (rd : BReg) (r : Nat) (s : State) :
    (ok = true ∧ modularResult ok i rd r s = .next (s.putModular rd r)) ∨
    (ok = false ∧ modularResult ok i rd r s = .next (s.raise .range (encode i))) := by
  cases ok
  · exact .inr ⟨rfl, rfl⟩
  · exact .inl ⟨rfl, rfl⟩

theorem inRange_iff (m : Modulus) (v : Nat) : inRange m v = true ↔ v < modulusValue m := by
  simp [inRange]

theorem State.slotInRange_iff (s : State) (k : Slot) :
    s.slotInRange k = true ↔ s.getBNat (slotX k) < curveP ∧ s.getBNat (slotY k) < curveP
      ∧ s.getBNat (slotZ k) < curveP := by
  simp [State.slotInRange, inRange_iff, modulusValue, and_assoc]

/-- A constant has a value exactly where its number is not reserved (R85). -/
theorem constValue_cases (rd : BReg) (cid : ConstId) :
    ((Instr.const rd cid).wellFormed = true ∧ ∃ v, constValue cid = some v) ∨
    ((Instr.const rd cid).wellFormed = false ∧ constValue cid = none) := by
  revert cid
  have h : ∀ cid : ConstId, ((decide (cid.val ≤ 11)) = true ∧ (constValue cid).isSome = true) ∨
      ((decide (cid.val ≤ 11)) = false ∧ constValue cid = none) := by decide
  intro cid
  simpa only [Instr.wellFormed, Option.isSome_iff_exists] using h cid

/-! ## One instruction -/

/-- What an instruction can do that runs to its end without stopping the core: nothing to IMEM, the
control registers and the host's side; and each kind of state only where the instruction writes it. -/
structure Completes (i : Instr) (s t : State) : Prop where
  imem : t.imem = s.imem
  ctrl : t.ctrl = s.ctrl
  status : t.status = s.status
  fpc : t.fpc = s.fpc
  finsn : t.finsn = s.finsn
  rst : t.rst = s.rst
  pending : t.pending = s.pending
  answer : t.answer = s.answer
  idx : Instr.writesI i = false → t.idx = s.idx
  zFlag : Instr.writesZ i = false → t.zFlag = s.zFlag
  tFlag : Instr.writesT i = false → t.tFlag = s.tFlag
  hash : Instr.writesH i = false → t.hash = s.hash
  rk : Instr.writesRk i = false → t.rk = s.rk
  dmem : t.dmem = s.dmem ∨ (Instr.writesDmem i = true ∧ ∃ a bs, a + bs.length ≤ Config.dmemBytes
    ∧ t.dmem = Mem.setAll s.dmem a bs)
  pc : t.pc = s.pc + 1 ∨ ∃ tgt : BitVec 8, t.pc = tgt.setWidth 9

/-- What an instruction can do: complete, halt, or stop the core with a fault of its own and change
nothing else (R150, R151). -/
inductive Outcome (i : Instr) (s t : State) : Prop
  | completes (h : Completes i s t)
  | halts (hi : i = .halt) (ht : t = s.stopDone (encode i))
  | faults (c : Cause) (ht : t = s.raise c (encode i))
      (hc : (c = .range ∧ Instr.mayRange i = true) ∨ (c = .daddr ∧ Instr.mayDaddr i = true)
        ∨ (c = .illegal ∧ i.wellFormed = false))

/-- Moving past an instruction is all that most completing instructions do to the state besides their
result. -/
theorem completes_advance (i : Instr) (s : State) : Completes i s s.advance where
  imem := rfl
  ctrl := rfl
  status := rfl
  fpc := rfl
  finsn := rfl
  rst := rfl
  pending := rfl
  answer := rfl
  idx _ := rfl
  zFlag _ := rfl
  tFlag _ := rfl
  hash _ := rfl
  rk _ := rfl
  dmem := .inl rfl
  pc := .inl rfl

/-- A load completes or raises DADDR. -/
theorem loadBytes_outcome {n : Nat} {i : Instr} {rd : BReg} {ea : Nat} {s t : State}
    (hi : Instr.mayDaddr i = true) (h : loadBytes n i rd ea s = .next t) : Outcome i s t := by
  rcases loadBytes_cases n i rd ea s with ⟨_, he⟩ | ⟨_, he⟩
  · rw [he] at h
    cases h
    exact .completes { completes_advance i s with imem := rfl }
  · rw [he] at h
    cases h
    exact .faults .daddr rfl (.inr (.inl ⟨rfl, hi⟩))

/-- A store completes or raises DADDR. -/
theorem storeBytes_outcome {n : Nat} {i : Instr} {v ea : Nat} {s t : State}
    (hi : Instr.mayDaddr i = true) (hw : Instr.writesDmem i = true)
    (h : storeBytes n i v ea s = .next t) : Outcome i s t := by
  rcases storeBytes_cases n i v ea s with ⟨hb, he⟩ | ⟨_, he⟩
  · rw [he] at h
    cases h
    exact .completes { completes_advance i s with
      dmem := .inr ⟨hw, ea, bytesBE n v, by simpa using hb, rfl⟩ }
  · rw [he] at h
    cases h
    exact .faults .daddr rfl (.inr (.inl ⟨rfl, hi⟩))

/-- A modular result that is written completes its instruction. -/
theorem completes_putModular (i : Instr) (s : State) (rd : BReg) (r : Nat)
    (h : Instr.writesZ i = true) : Completes i s (s.putModular rd r) :=
  { completes_advance i s with zFlag := fun e => absurd e (by simp [h]) }

/-- A modular instruction completes or raises RANGE. -/
theorem modularResult_outcome {ok : Bool} {i : Instr} {rd : BReg} {r : Nat} {s t : State}
    (hi : Instr.mayRange i = true) (hz : Instr.writesZ i = true)
    (h : modularResult ok i rd r s = .next t) : Outcome i s t := by
  rcases modularResult_cases ok i rd r s with ⟨_, he⟩ | ⟨_, he⟩
  · rw [he] at h
    cases h
    exact .completes (completes_putModular i s rd r hz)
  · rw [he] at h
    cases h
    exact .faults .range rfl (.inl ⟨rfl, hi⟩)

/-- An instruction that writes one B register and advances completes. -/
theorem completes_setB (i : Instr) (s : State) (rd : BReg) (v : Big) :
    Completes i s (s.setB rd v).advance := { completes_advance i s with imem := rfl }

/-- An instruction that writes a point slot and advances completes. -/
theorem completes_putPoint (i : Instr) (s : State) (k : Slot) (q : PointResult) :
    Completes i s (s.putPoint k q).advance := by
  cases q <;> exact { completes_advance i s with imem := rfl }

/-- A branch completes whether or not it is taken. -/
theorem completes_branch (i : Instr) (s : State) (c : Bool) (tgt : BitVec 8) :
    Completes i s (s.branch c tgt) := by
  cases c
  · exact { completes_advance i s with imem := rfl }
  · exact { completes_advance i s with pc := .inr ⟨tgt, rfl⟩ }

/-- An instruction that writes T and advances completes. -/
theorem completes_setT (i : Instr) (s : State) (v : Bool) (h : Instr.writesT i = true) :
    Completes i s (s.setT v).advance := { completes_advance i s with tFlag := fun e => absurd e (by simp [h]) }

/-- An instruction that writes H and advances completes. -/
theorem completes_setH (i : Instr) (s : State) (v : Big) (h : Instr.writesH i = true) :
    Completes i s (s.setH v).advance := { completes_advance i s with hash := fun e => absurd e (by simp [h]) }

/-- An instruction that writes RK and advances completes. -/
theorem completes_setRks (i : Instr) (s : State) (v : Vector Word 32) (h : Instr.writesRk i = true) :
    Completes i s (s.setRks v).advance :=
  { completes_advance i s with rk := fun e => absurd e (by simp [h]) }

/-- An instruction that writes an index register completes, whatever it then does to the pc. -/
theorem completes_setI (i : Instr) (s t : State) (k : IReg) (v : Half) (h : Instr.writesI i = true)
    (ht : Completes i (s.setI k v) t) : Completes i s t := { ht with idx := fun e => absurd e (by simp [h]) }

/-- Every instruction completes, halts or faults. -/
theorem exec_outcome {i : Instr} {s t : State} (h : exec i s = .next t) : Outcome i s t := by
  cases i with
  | nop => cases h; exact .completes (completes_advance _ s)
  | halt => cases h; exact .halts rfl rfl
  | jmp tgt => cases h; exact .completes (completes_branch _ s true tgt)
  | bz tgt => cases h; exact .completes (completes_branch _ s s.zFlag tgt)
  | bnz tgt => cases h; exact .completes (completes_branch _ s (!s.zFlag) tgt)
  | bt tgt => cases h; exact .completes (completes_branch _ s s.tFlag tgt)
  | bnt tgt => cases h; exact .completes (completes_branch _ s (!s.tFlag) tgt)
  | dbra ix tgt =>
    cases h
    exact .completes (completes_setI _ s _ ix _ rfl (completes_branch _ _ _ tgt))
  | li ix imm =>
    cases h
    exact .completes (completes_setI _ s _ ix _ rfl (completes_branch _ _ false 0))
  | addi ix imm =>
    cases h
    exact .completes (completes_setI _ s _ ix _ rfl (completes_branch _ _ false 0))
  | btst rs1 ix => cases h; exact .completes (completes_setT _ s _ rfl)
  | mov rd rs1 => cases h; exact .completes (completes_setB _ s rd _)
  | const rd cid =>
    rcases constValue_cases rd cid with ⟨_, v, hv⟩ | ⟨hw, hv⟩
    · simp only [exec, execConst, hv] at h
      cases h
      exact .completes (completes_setB _ s rd _)
    · simp only [exec, execConst, hv] at h
      cases h
      exact .faults .illegal rfl (.inr (.inr ⟨rfl, hw⟩))
  | ldw rd imm ix => exact loadBytes_outcome rfl h
  | stw rd imm ix => exact storeBytes_outcome rfl rfl h
  | ldq rd imm ix => exact loadBytes_outcome rfl h
  | stq rd imm ix => exact storeBytes_outcome rfl rfl h
  | madd rd rs1 rs2 m => exact modularResult_outcome rfl rfl h
  | msub rd rs1 rs2 m => exact modularResult_outcome rfl rfl h
  | mmul rd rs1 rs2 m => exact modularResult_outcome rfl rfl h
  | minv rd rs1 m => exact modularResult_outcome rfl rfl h
  | mred rd rs1 m => cases h; exact .completes (completes_putModular _ s rd _ rfl)
  | tom rd rs1 m => exact modularResult_outcome rfl rfl h
  | fromm rd rs1 m => exact modularResult_outcome rfl rfl h
  | rchk rs1 m => cases h; exact .completes (completes_setT _ s _ rfl)
  | pgen sd => cases h; exact .completes (completes_putPoint _ s sd _)
  | pdbl sd ss1 =>
    simp only [exec, execPdbl] at h
    split at h <;> cases h
    · exact .completes (completes_putPoint _ s sd _)
    · exact .faults .range rfl (.inl ⟨rfl, rfl⟩)
  | padd sd ss1 ss2 =>
    simp only [exec, execPadd] at h
    split at h <;> cases h
    · exact .completes (completes_putPoint _ s sd _)
    · exact .faults .range rfl (.inl ⟨rfl, rfl⟩)
  | pchk ss1 =>
    simp only [exec, execPchk] at h
    split at h <;> cases h
    · exact .completes (completes_setT _ s _ rfl)
    · exact .faults .range rfl (.inl ⟨rfl, rfl⟩)
  | hinit => cases h; exact .completes (completes_setH _ s _ rfl)
  | hset rs1 => cases h; exact .completes (completes_setH _ s _ rfl)
  | hget rd => cases h; exact .completes (completes_setB _ s rd _)
  | hcomp rs1 rs2 => cases h; exact .completes (completes_setH _ s _ rfl)
  | hp0 rd rs1 => cases h; exact .completes (completes_setB _ s rd _)
  | hp1 rd rs1 => cases h; exact .completes (completes_setB _ s rd _)
  | kexp rs1 => cases h; exact .completes (completes_setRks _ s _ rfl)
  | enc rd rs1 => cases h; exact .completes (completes_setB _ s rd _)
  | dec rd rs1 => cases h; exact .completes (completes_setB _ s rd _)
  | sbox rd rs1 => cases h; exact .completes (completes_setB _ s rd _)
  | ldif rd rs1 => cases h; exact .completes (completes_setB _ s rd _)
  | lkey rd rs1 => cases h; exact .completes (completes_setB _ s rd _)

end Sys2Proof.Machine
end

