-- ==== Sys2Proof/Laws/PerInstr.lean ====
section
/-! SUPPORT. For every instruction: its word finds its row of the opcode map, meets the row's fixed bits,
and the row's fields give the instruction back (spec/30_encoding.md R65, R66). -/

namespace Sys2Proof.Laws.EncodedRow

open Sys2Proof

/-- The word of `i` finds one row by its opcode, has the row's fixed bits, and its fields make `i`. -/
def Statement (i : Instr) : Prop :=
  ∃ row, opcodeMap.find? (fun r => r.opcode == Field.op (encode i)) = some row
    ∧ encode i &&& row.mask = row.matchBits ∧ row.build (encode i) = i

/-- The statement from its four parts. -/
theorem of_row {i : Instr} {op : BitVec 6} {row : OpcodeRow} (hop : Field.op (encode i) = op)
    (hrow : opcodeMap.find? (fun r => r.opcode == op) = some row)
    (hmask : encode i &&& row.mask = row.matchBits) (hbuild : row.build (encode i) = i) : Statement i :=
  ⟨row, by rw [hop]; exact hrow, hmask, hbuild⟩

theorem nop : Statement .nop :=
  of_row (op_formatN 0x01) rfl
    ((formatN_and 0x01 0x3F 0x3ffffff).trans (by simp; rfl))
    (by simp)

theorem halt : Statement .halt :=
  of_row (op_formatN 0x02) rfl
    ((formatN_and 0x02 0x3F 0x3ffffff).trans (by simp; rfl))
    (by simp)

theorem jmp (tgt : BitVec 8) : Statement (.jmp tgt) :=
  of_row (op_formatJ 0x03 0 tgt) rfl
    ((formatJ_and 0x03 0x3F 0 0x3 tgt 0 0xff 0xff).trans (by simp; rfl))
    (by simp [encode])

theorem bz (tgt : BitVec 8) : Statement (.bz tgt) :=
  of_row (op_formatJ 0x04 0 tgt) rfl
    ((formatJ_and 0x04 0x3F 0 0x3 tgt 0 0xff 0xff).trans (by simp; rfl))
    (by simp [encode])

theorem bnz (tgt : BitVec 8) : Statement (.bnz tgt) :=
  of_row (op_formatJ 0x05 0 tgt) rfl
    ((formatJ_and 0x05 0x3F 0 0x3 tgt 0 0xff 0xff).trans (by simp; rfl))
    (by simp [encode])

theorem bt (tgt : BitVec 8) : Statement (.bt tgt) :=
  of_row (op_formatJ 0x06 0 tgt) rfl
    ((formatJ_and 0x06 0x3F 0 0x3 tgt 0 0xff 0xff).trans (by simp; rfl))
    (by simp [encode])

theorem bnt (tgt : BitVec 8) : Statement (.bnt tgt) :=
  of_row (op_formatJ 0x07 0 tgt) rfl
    ((formatJ_and 0x07 0x3F 0 0x3 tgt 0 0xff 0xff).trans (by simp; rfl))
    (by simp [encode])

theorem dbra (ix : IReg) (tgt : BitVec 8) : Statement (.dbra ix tgt) :=
  of_row (op_formatJ 0x08 (IReg.bits ix) tgt) rfl
    ((formatJ_and 0x08 0x3F (IReg.bits ix) 0 tgt 0 0xff 0xff).trans (by simp; rfl))
    (by simp [encode])

theorem li (ix : IReg) (imm : BitVec 16) : Statement (.li ix imm) :=
  of_row (op_formatX 0x09 (IReg.bits ix) imm) rfl
    ((formatX_and 0x09 0x3F (IReg.bits ix) 0 imm 0 0xff).trans (by simp; rfl))
    (by simp [encode])

theorem addi (ix : IReg) (imm : BitVec 16) : Statement (.addi ix imm) :=
  of_row (op_formatX 0x0A (IReg.bits ix) imm) rfl
    ((formatX_and 0x0A 0x3F (IReg.bits ix) 0 imm 0 0xff).trans (by simp; rfl))
    (by simp [encode])

theorem btst (rs1 : BReg) (ix : IReg) : Statement (.btst rs1 ix) :=
  of_row (op_formatT 0x0B (BReg.bits rs1) (IReg.bits ix)) rfl
    ((formatT_and 0x0B 0x3F (BReg.bits rs1) 0 (IReg.bits ix) 0 0xf 0xffff).trans (by simp; rfl))
    (by simp [encode])

theorem mov (rd rs1 : BReg) : Statement (.mov rd rs1) :=
  of_row (op_formatR 0x10 (BReg.bits rd) (BReg.bits rs1) 0 0) rfl
    ((formatR_and 0x10 0x3F (BReg.bits rd) 0 (BReg.bits rs1) 0 0 0xf 0 0x1 0x1fff).trans (by simp; rfl))
    (by simp [encode])

theorem const (rd : BReg) (cid : ConstId) : Statement (.const rd cid) :=
  of_row (op_formatC 0x11 (BReg.bits rd) (BReg.bits cid)) rfl
    ((formatC_and 0x11 0x3F (BReg.bits rd) 0 (BReg.bits cid) 0 0x3ffff).trans (by simp; rfl))
    (by simp [encode])

theorem ldw (rd : BReg) (imm : BitVec 12) (ix : IReg) : Statement (.ldw rd imm ix) :=
  of_row (op_formatM 0x12 (BReg.bits rd) (IReg.bits ix) imm) rfl
    ((formatM_and 0x12 0x3F (BReg.bits rd) 0 (IReg.bits ix) 0 imm 0 0xf 0xf).trans (by simp; rfl))
    (by simp [encode])

theorem stw (rd : BReg) (imm : BitVec 12) (ix : IReg) : Statement (.stw rd imm ix) :=
  of_row (op_formatM 0x13 (BReg.bits rd) (IReg.bits ix) imm) rfl
    ((formatM_and 0x13 0x3F (BReg.bits rd) 0 (IReg.bits ix) 0 imm 0 0xf 0xf).trans (by simp; rfl))
    (by simp [encode])

theorem ldq (rd : BReg) (imm : BitVec 12) (ix : IReg) : Statement (.ldq rd imm ix) :=
  of_row (op_formatM 0x14 (BReg.bits rd) (IReg.bits ix) imm) rfl
    ((formatM_and 0x14 0x3F (BReg.bits rd) 0 (IReg.bits ix) 0 imm 0 0xf 0xf).trans (by simp; rfl))
    (by simp [encode])

theorem stq (rd : BReg) (imm : BitVec 12) (ix : IReg) : Statement (.stq rd imm ix) :=
  of_row (op_formatM 0x15 (BReg.bits rd) (IReg.bits ix) imm) rfl
    ((formatM_and 0x15 0x3F (BReg.bits rd) 0 (IReg.bits ix) 0 imm 0 0xf 0xf).trans (by simp; rfl))
    (by simp [encode])

theorem madd (rd rs1 rs2 : BReg) (m : Modulus) : Statement (.madd rd rs1 rs2 m) :=
  of_row (op_formatR 0x18 (BReg.bits rd) (BReg.bits rs1) (BReg.bits rs2) m.bit) rfl
    ((formatR_and 0x18 0x3F (BReg.bits rd) 0 (BReg.bits rs1) 0 (BReg.bits rs2) 0 m.bit 0 0x1fff).trans (by simp; rfl))
    (by simp [encode])

theorem msub (rd rs1 rs2 : BReg) (m : Modulus) : Statement (.msub rd rs1 rs2 m) :=
  of_row (op_formatR 0x19 (BReg.bits rd) (BReg.bits rs1) (BReg.bits rs2) m.bit) rfl
    ((formatR_and 0x19 0x3F (BReg.bits rd) 0 (BReg.bits rs1) 0 (BReg.bits rs2) 0 m.bit 0 0x1fff).trans (by simp; rfl))
    (by simp [encode])

theorem mmul (rd rs1 rs2 : BReg) (m : Modulus) : Statement (.mmul rd rs1 rs2 m) :=
  of_row (op_formatR 0x1A (BReg.bits rd) (BReg.bits rs1) (BReg.bits rs2) m.bit) rfl
    ((formatR_and 0x1A 0x3F (BReg.bits rd) 0 (BReg.bits rs1) 0 (BReg.bits rs2) 0 m.bit 0 0x1fff).trans (by simp; rfl))
    (by simp [encode])

theorem minv (rd rs1 : BReg) (m : Modulus) : Statement (.minv rd rs1 m) :=
  of_row (op_formatR 0x1B (BReg.bits rd) (BReg.bits rs1) 0 m.bit) rfl
    ((formatR_and 0x1B 0x3F (BReg.bits rd) 0 (BReg.bits rs1) 0 0 0xf m.bit 0 0x1fff).trans (by simp; rfl))
    (by simp [encode])

theorem mred (rd rs1 : BReg) (m : Modulus) : Statement (.mred rd rs1 m) :=
  of_row (op_formatR 0x1C (BReg.bits rd) (BReg.bits rs1) 0 m.bit) rfl
    ((formatR_and 0x1C 0x3F (BReg.bits rd) 0 (BReg.bits rs1) 0 0 0xf m.bit 0 0x1fff).trans (by simp; rfl))
    (by simp [encode])

theorem tom (rd rs1 : BReg) (m : Modulus) : Statement (.tom rd rs1 m) :=
  of_row (op_formatR 0x1D (BReg.bits rd) (BReg.bits rs1) 0 m.bit) rfl
    ((formatR_and 0x1D 0x3F (BReg.bits rd) 0 (BReg.bits rs1) 0 0 0xf m.bit 0 0x1fff).trans (by simp; rfl))
    (by simp [encode])

theorem fromm (rd rs1 : BReg) (m : Modulus) : Statement (.fromm rd rs1 m) :=
  of_row (op_formatR 0x1E (BReg.bits rd) (BReg.bits rs1) 0 m.bit) rfl
    ((formatR_and 0x1E 0x3F (BReg.bits rd) 0 (BReg.bits rs1) 0 0 0xf m.bit 0 0x1fff).trans (by simp; rfl))
    (by simp [encode])

theorem rchk (rs1 : BReg) (m : Modulus) : Statement (.rchk rs1 m) :=
  of_row (op_formatR 0x1F 0 (BReg.bits rs1) 0 m.bit) rfl
    ((formatR_and 0x1F 0x3F 0 0xf (BReg.bits rs1) 0 0 0xf m.bit 0 0x1fff).trans (by simp; rfl))
    (by simp [encode])

theorem pgen (sd : Slot) : Statement (.pgen sd) :=
  of_row (op_formatS 0x20 (Slot.bits sd) 0 0) rfl
    ((formatS_and 0x20 0x3F (Slot.bits sd) 0 0 0x3 0 0x3 0x3 0x3 0xffff).trans (by simp; rfl))
    (by simp [encode])

theorem pdbl (sd ss1 : Slot) : Statement (.pdbl sd ss1) :=
  of_row (op_formatS 0x21 (Slot.bits sd) (Slot.bits ss1) 0) rfl
    ((formatS_and 0x21 0x3F (Slot.bits sd) 0 (Slot.bits ss1) 0 0 0x3 0x3 0x3 0xffff).trans (by simp; rfl))
    (by simp [encode])

theorem padd (sd ss1 ss2 : Slot) : Statement (.padd sd ss1 ss2) :=
  of_row (op_formatS 0x22 (Slot.bits sd) (Slot.bits ss1) (Slot.bits ss2)) rfl
    ((formatS_and 0x22 0x3F (Slot.bits sd) 0 (Slot.bits ss1) 0 (Slot.bits ss2) 0 0x3 0x3 0xffff).trans (by simp; rfl))
    (by simp [encode])

theorem pchk (ss1 : Slot) : Statement (.pchk ss1) :=
  of_row (op_formatS 0x23 0 (Slot.bits ss1) 0) rfl
    ((formatS_and 0x23 0x3F 0 0x3 (Slot.bits ss1) 0 0 0x3 0x3 0x3 0xffff).trans (by simp; rfl))
    (by simp [encode])

theorem hinit : Statement .hinit :=
  of_row (op_formatN 0x28) rfl
    ((formatN_and 0x28 0x3F 0x3ffffff).trans (by simp; rfl))
    (by simp)

theorem hset (rs1 : BReg) : Statement (.hset rs1) :=
  of_row (op_formatR 0x29 0 (BReg.bits rs1) 0 0) rfl
    ((formatR_and 0x29 0x3F 0 0xf (BReg.bits rs1) 0 0 0xf 0 0x1 0x1fff).trans (by simp; rfl))
    (by simp [encode])

theorem hget (rd : BReg) : Statement (.hget rd) :=
  of_row (op_formatR 0x2A (BReg.bits rd) 0 0 0) rfl
    ((formatR_and 0x2A 0x3F (BReg.bits rd) 0 0 0xf 0 0xf 0 0x1 0x1fff).trans (by simp; rfl))
    (by simp [encode])

theorem hcomp (rs1 rs2 : BReg) : Statement (.hcomp rs1 rs2) :=
  of_row (op_formatR 0x2B 0 (BReg.bits rs1) (BReg.bits rs2) 0) rfl
    ((formatR_and 0x2B 0x3F 0 0xf (BReg.bits rs1) 0 (BReg.bits rs2) 0 0 0x1 0x1fff).trans (by simp; rfl))
    (by simp [encode])

theorem hp0 (rd rs1 : BReg) : Statement (.hp0 rd rs1) :=
  of_row (op_formatR 0x2C (BReg.bits rd) (BReg.bits rs1) 0 0) rfl
    ((formatR_and 0x2C 0x3F (BReg.bits rd) 0 (BReg.bits rs1) 0 0 0xf 0 0x1 0x1fff).trans (by simp; rfl))
    (by simp [encode])

theorem hp1 (rd rs1 : BReg) : Statement (.hp1 rd rs1) :=
  of_row (op_formatR 0x2D (BReg.bits rd) (BReg.bits rs1) 0 0) rfl
    ((formatR_and 0x2D 0x3F (BReg.bits rd) 0 (BReg.bits rs1) 0 0 0xf 0 0x1 0x1fff).trans (by simp; rfl))
    (by simp [encode])

theorem kexp (rs1 : BReg) : Statement (.kexp rs1) :=
  of_row (op_formatR 0x30 0 (BReg.bits rs1) 0 0) rfl
    ((formatR_and 0x30 0x3F 0 0xf (BReg.bits rs1) 0 0 0xf 0 0x1 0x1fff).trans (by simp; rfl))
    (by simp [encode])

theorem enc (rd rs1 : BReg) : Statement (.enc rd rs1) :=
  of_row (op_formatR 0x31 (BReg.bits rd) (BReg.bits rs1) 0 0) rfl
    ((formatR_and 0x31 0x3F (BReg.bits rd) 0 (BReg.bits rs1) 0 0 0xf 0 0x1 0x1fff).trans (by simp; rfl))
    (by simp [encode])

theorem dec (rd rs1 : BReg) : Statement (.dec rd rs1) :=
  of_row (op_formatR 0x32 (BReg.bits rd) (BReg.bits rs1) 0 0) rfl
    ((formatR_and 0x32 0x3F (BReg.bits rd) 0 (BReg.bits rs1) 0 0 0xf 0 0x1 0x1fff).trans (by simp; rfl))
    (by simp [encode])

theorem sbox (rd rs1 : BReg) : Statement (.sbox rd rs1) :=
  of_row (op_formatR 0x33 (BReg.bits rd) (BReg.bits rs1) 0 0) rfl
    ((formatR_and 0x33 0x3F (BReg.bits rd) 0 (BReg.bits rs1) 0 0 0xf 0 0x1 0x1fff).trans (by simp; rfl))
    (by simp [encode])

theorem ldif (rd rs1 : BReg) : Statement (.ldif rd rs1) :=
  of_row (op_formatR 0x34 (BReg.bits rd) (BReg.bits rs1) 0 0) rfl
    ((formatR_and 0x34 0x3F (BReg.bits rd) 0 (BReg.bits rs1) 0 0 0xf 0 0x1 0x1fff).trans (by simp; rfl))
    (by simp [encode])

theorem lkey (rd rs1 : BReg) : Statement (.lkey rd rs1) :=
  of_row (op_formatR 0x35 (BReg.bits rd) (BReg.bits rs1) 0 0) rfl
    ((formatR_and 0x35 0x3F (BReg.bits rd) 0 (BReg.bits rs1) 0 0 0xf 0 0x1 0x1fff).trans (by simp; rfl))
    (by simp [encode])

end Sys2Proof.Laws.EncodedRow
end

