-- ==== Sys2Proof/Laws/Procedures.lean ====
section
/-! SUPPORT. The point procedures in a form the kernel evaluates quickly: every number is evaluated before it
is passed on. Each `…Then` form is equal to the definition it stands for, so a test rewrites with its
equation and decides. -/

namespace Sys2Proof.Laws

open Sys2Proof Sys2Proof.Machine

/-- `f n`, with `n` evaluated first. -/
def withValue {α : Type} (n : Nat) (f : Nat → α) : α := Nat.rec (f 0) (fun m _ => f (m + 1)) n

theorem withValue_eq {α : Type} (n : Nat) (f : Nat → α) : withValue n f = f n := by cases n <;> rfl

/-- Double (R109), then `k`. -/
def doubleThen {α : Type} (q : Jacobian) (k : Jacobian → α) : α :=
  if q.z = 0 then k ⟨1, 1, 0⟩
  else
    withValue (fsq q.z) fun delta => withValue (fsq q.y) fun gamma =>
    withValue (fmul q.x gamma) fun beta =>
    withValue (fmul 3 (fmul (fsub q.x delta) (fadd q.x delta))) fun alpha =>
    withValue (fsub (fsq alpha) (fmul 8 beta)) fun x3 =>
    withValue (fsub (fsub (fsq (fadd q.y q.z)) gamma) delta) fun z3 =>
    withValue (fsub (fmul alpha (fsub (fmul 4 beta) x3)) (fmul 8 (fsq gamma))) fun y3 =>
    if z3 = 0 then k ⟨1, 1, 0⟩ else k ⟨x3, y3, z3⟩

theorem doubleThen_eq {α : Type} (q : Jacobian) (k : Jacobian → α) :
    doubleThen q k = k (pointDouble q).toJacobian := by
  simp only [doubleThen, withValue_eq, pointDouble]
  split
  · rfl
  · split <;> rfl

/-- Add (R110), then `k`. -/
def addThen {α : Type} (p q : Jacobian) (k : Jacobian → α) : α :=
  if p.z = 0 then (if q.z = 0 then k ⟨1, 1, 0⟩ else k q)
  else if q.z = 0 then k p
  else
    withValue (fsq p.z) fun z1z1 => withValue (fsq q.z) fun z2z2 =>
    withValue (fmul p.x z2z2) fun u1 => withValue (fmul q.x z1z1) fun u2 =>
    withValue (fmul (fmul p.y q.z) z2z2) fun s1 => withValue (fmul (fmul q.y p.z) z1z1) fun s2 =>
    withValue (fsub u2 u1) fun h => withValue (fmul 2 (fsub s2 s1)) fun r =>
    if h = 0 then (if r = 0 then doubleThen p k else k ⟨1, 1, 0⟩)
    else
      withValue (fsq (fmul 2 h)) fun i => withValue (fmul h i) fun j => withValue (fmul u1 i) fun v =>
      withValue (fsub (fsub (fsq r) j) (fmul 2 v)) fun x3 =>
      withValue (fsub (fmul r (fsub v x3)) (fmul 2 (fmul s1 j))) fun y3 =>
      withValue (fmul (fsub (fsub (fsq (fadd p.z q.z)) z1z1) z2z2) h) fun z3 => k ⟨x3, y3, z3⟩

theorem addThen_eq {α : Type} (p q : Jacobian) (k : Jacobian → α) :
    addThen p q k = k (pointAdd p q).toJacobian := by
  simp only [addThen, withValue_eq, doubleThen_eq, pointAdd]
  split
  · split <;> rfl
  · split
    · rfl
    · split
      · split <;> rfl
      · rfl

/-- Double and add (R113), then `f`. -/
def mulThen {α : Type} (k : Nat) (q : Jacobian) : Nat → Jacobian → (Jacobian → α) → α
  | 0, acc, f => f acc
  | n + 1, acc, f =>
    doubleThen acc fun d => if k.testBit n then addThen d q fun a => mulThen k q n a f else mulThen k q n d f

theorem mulThen_eq {α : Type} (k : Nat) (q : Jacobian) (f : Jacobian → α) (n : Nat) (acc : Jacobian) :
    mulThen k q n acc f = f (scalarMulFrom k q n acc) := by
  induction n generalizing acc with
  | zero => rfl
  | succ n ih =>
    simp only [mulThen, doubleThen_eq, addThen_eq, scalarMulFrom, ih]
    split <;> rfl

/-- k·Q (R113), then `f`. -/
def scalarThen {α : Type} (k : Nat) (q : Jacobian) (f : Jacobian → α) : α := mulThen k q 256 ⟨1, 1, 0⟩ f

theorem scalarThen_eq {α : Type} (k : Nat) (q : Jacobian) (f : Jacobian → α) :
    scalarThen k q f = f (scalarMul k q) := mulThen_eq k q f 256 _

/-- Euclid's algorithm, then `k`. -/
def euclidThen {α : Type} (M : Nat) (k : Nat → α) : Nat → Nat → Nat → Nat → Nat → α
  | 0, _, s0, _, _ => k s0
  | fuel + 1, r0, s0, r1, s1 =>
    if r1 = 0 then k s0
    else
      withValue (r0 % r1) fun r =>
      withValue ((s0 + r0 / r1 * (M - s1)) % M) fun s => euclidThen M k fuel r1 s1 r s

theorem euclidThen_eq {α : Type} (M : Nat) (k : Nat → α) (fuel r0 s0 r1 s1 : Nat) :
    euclidThen M k fuel r0 s0 r1 s1 = k (euclid M fuel r0 s0 r1 s1) := by
  induction fuel generalizing r0 s0 r1 s1 with
  | zero => rfl
  | succ n ih =>
    simp only [euclidThen, withValue_eq, euclid, ih]
    split <;> rfl

/-- The inverse (R94), then `k`. -/
def inverseThen {α : Type} (M a : Nat) (k : Nat → α) : α := euclidThen M k 520 M 0 a 1

theorem inverseThen_eq {α : Type} (M a : Nat) (k : Nat → α) : inverseThen M a k = k (modInv M a) :=
  euclidThen_eq M k 520 M 0 a 1

/-- Affine conversion (R112), then `k`. -/
def affineThen {α : Type} (q : Jacobian) (k : Nat → Nat → α) : α :=
  inverseThen curveP q.z fun zi => withValue (fsq zi) fun zz => withValue (fmul q.x zz) fun x =>
    withValue (fmul q.y (fmul zz zi)) fun y => k x y

theorem affineThen_eq {α : Type} (q : Jacobian) (k : Nat → Nat → α) :
    affineThen q k = k (affineX q) (affineY q) := by
  simp only [affineThen, inverseThen_eq, withValue_eq, affineX, affineY]

theorem publicKey_eq (d : Nat) :
    publicKey d = scalarThen d generator fun q => affineThen q Prod.mk := by
  simp only [scalarThen_eq, affineThen_eq]; rfl

theorem signDigest_eq (d k e : Nat) :
    signDigest d k e = scalarThen k generator fun q => affineThen q fun x _ =>
      if k < curveN ∧ d < curveN ∧ (k = 0 ∨ d = 0 ∨ d = curveN - 1) then .outside
      else
        withValue (modAdd curveN (e % curveN) (x % curveN)) fun r =>
        if r = 0 then .resample
        else if curveN ≤ k then .range
        else if modAdd curveN r k = 0 then .resample
        else if curveN ≤ d then .range
        else
          inverseThen curveN (modAdd curveN 1 d) fun inv =>
          withValue (modMul curveN inv (modSub curveN k (modMul curveN r d))) fun s =>
          if s = 0 then .resample else .accepted r s := by
  simp only [scalarThen_eq, affineThen_eq, inverseThen_eq, withValue_eq]; rfl

theorem verifyDigest_eq (r s e x y : Nat) :
    verifyDigest r s e x y =
      if r = 0 || curveN ≤ r || s = 0 || curveN ≤ s then false
      else
        withValue (modAdd curveN r s) fun t =>
        if t = 0 then false
        else if !onCurve ⟨x % curveP, y % curveP, 1⟩ then false
        else
          scalarThen s generator fun a => scalarThen t ⟨x % curveP, y % curveP, 1⟩ fun b =>
          addThen a b fun sum => if sum.z = 0 then false
            else affineThen sum fun x1 _ => modAdd curveN (e % curveN) (x1 % curveN) == r := by
  simp only [scalarThen_eq, affineThen_eq, addThen_eq, withValue_eq]; rfl

/-- What one pass of the signing loop accepts: nonce, key, r and s in their ranges (R146). -/
theorem signDigest_accepted {d k e r s : Nat} (h : signDigest d k e = .accepted r s) :
    0 < k ∧ k < curveN ∧ 0 < d ∧ d < curveN - 1 ∧ 0 < r ∧ r < curveN ∧ 0 < s ∧ s < curveN
      ∧ r = (e % curveN + affineX (scalarMul k generator) % curveN) % curveN ∧ (r + k) % curveN ≠ 0
      ∧ s = modMul curveN (modInv curveN (modAdd curveN 1 d)) (modSub curveN k (modMul curveN r d)) := by
  simp only [signDigest] at h
  split at h
  · cases h
  next h0 =>
  split at h
  · cases h
  next h1 =>
  split at h
  · cases h
  next h2 =>
  split at h
  · cases h
  next h3 =>
  split at h
  · cases h
  next h4 =>
  split at h
  · cases h
  next h5 =>
  cases h
  have hN : 0 < curveN := by decide
  refine ⟨by omega, by omega, by omega, by omega, Nat.pos_of_ne_zero h1, Nat.mod_lt _ hN,
    Nat.pos_of_ne_zero h5, Nat.mod_lt _ hN, rfl, h3, rfl⟩

/-- When a pass is outside the contract (log 14). -/
theorem signDigest_outside_iff (d k e : Nat) :
    signDigest d k e = .outside ↔ k < curveN ∧ d < curveN ∧ (k = 0 ∨ d = 0 ∨ d = curveN - 1) := by
  refine ⟨fun h => ?_, fun h => if_pos h⟩
  by_contra hn
  simp only [signDigest, if_neg hn] at h
  split_ifs at h

/-- `verifyOwn` is verification of the signature that signing gives (R148). -/
theorem verifyOwn_of_sign {ident msg sig : List Byte} {d : Nat} {rands : List Nat}
    (h : sign ident msg d rands = .signature sig) :
    verifyOwn ident msg d rands = some (verify ident msg sig (publicKey d).1 (publicKey d).2) := by
  rw [verifyOwn, h]

/-- A nonce is in the contract's range (R146). -/
theorem nonceFromRandom_range (rand : Nat) : 0 < nonceFromRandom rand ∧ nonceFromRandom rand < curveN := by
  have := Nat.mod_lt rand (show curveN - 1 > 0 by decide)
  unfold nonceFromRandom
  omega

/-- A private key is in the contract's range (R145). -/
theorem keyFromRandom_range (rand : Nat) : 0 < keyFromRandom rand ∧ keyFromRandom rand < curveN - 1 := by
  have := Nat.mod_lt rand (show curveN - 2 > 0 by decide)
  unfold keyFromRandom
  omega

/-- What the signing loop answers with a signature: one of the host's draws was accepted (R146). -/
theorem signLoop_signature {d e : Nat} {rands : List Nat} {sig : List Byte}
    (h : signLoop d e rands = .signature sig) :
    ∃ rand ∈ rands, ∃ r s, signDigest d (nonceFromRandom rand) e = .accepted r s ∧ sig = encodeSignature (r, s) := by
  induction rands with
  | nil => cases h
  | cons rand rest ih =>
    simp only [signLoop] at h
    split at h
    next r s hs => cases h; exact ⟨rand, .head _, r, s, hs, rfl⟩
    · obtain ⟨a, ha, hr⟩ := ih h
      exact ⟨a, .tail _ ha, hr⟩
    · cases h
    · cases h

/-- N·G is the point at infinity (R103). -/
theorem order_mul_generator : (scalarMul curveN generator).z = 0 := by
  rw [← scalarThen_eq curveN generator Jacobian.z]
  decide +kernel

end Sys2Proof.Laws
end

