-- ==== Sys2Proof/Laws/Primes.lean ====
section
/-! SUPPORT. P and N are prime (spec/43_point.md R103; R94 and R98 rest on it): Pratt certificates, checked
with Lucas's test. The factorisations of p − 1 were found outside Lean; the kernel checks them. -/

namespace Sys2Proof.Laws

open Sys2Proof Sys2Proof.Machine

/-- Square and multiply modulo `p` over the bits `n-1 .. 0` of `e`, from `acc`. -/
def powModFrom (a e p : Nat) : Nat → Nat → Nat
  | 0, acc => acc
  | n + 1, acc => withValue (acc * acc * (if e.testBit n then a else 1) % p) fun acc' => powModFrom a e p n acc'

theorem powModFrom_eq (a e p n acc : Nat) (h : (acc : ZMod p) = (a : ZMod p) ^ (e / 2 ^ n)) :
    (powModFrom a e p n acc : ZMod p) = (a : ZMod p) ^ e := by
  induction n generalizing acc with
  | zero => simpa [powModFrom] using h
  | succ n ih =>
    rw [powModFrom, withValue_eq]
    refine ih _ ?_
    have hb : e / 2 ^ n = 2 * (e / 2 ^ (n + 1)) + (e / 2 ^ n) % 2 := by
      rw [pow_succ, ← Nat.div_div_eq_div_mul]; omega
    rw [hb, Nat.testBit_eq_decide_div_mod_eq]
    rcases Nat.mod_two_eq_zero_or_one (e / 2 ^ n) with h2 | h2 <;>
      simp [h2, h, pow_add, two_mul, ← sq, pow_right_comm]

/-- `a ^ e mod p`, for `e` of at most 256 bits. -/
def powMod (a e p : Nat) : Nat := powModFrom a e p 256 1

theorem powMod_eq {a e p : Nat} (h : e < 2 ^ 256) : (powMod a e p : ZMod p) = (a : ZMod p) ^ e :=
  powModFrom_eq a e p 256 1 (by rw [Nat.div_eq_of_lt h, pow_zero, Nat.cast_one])

/-- Lucas's test with the prime factors of `p − 1` listed. -/
theorem prime_of_certificate (p a : Nat) (factors : List Nat) (hq : ∀ q ∈ factors, q.Prime)
    (hp : factors.prod = p - 1 ∧ 1 < p ∧ p < 2 ^ 256) (h1 : powMod a (p - 1) p = 1)
    (hd : ∀ q ∈ factors, powMod a ((p - 1) / q) p % p ≠ 1) : p.Prime := by
  obtain ⟨hprod, hp1, hp2⟩ := hp
  refine lucas_primality p (a : ZMod p) ?_ fun q hqp hqd h => ?_
  · rw [← powMod_eq (by omega), h1, Nat.cast_one]
  · rw [← hprod, hqp.prime.dvd_prod_iff] at hqd
    obtain ⟨f, hf, hqf⟩ := hqd
    have e := (Nat.prime_dvd_prime_iff_eq hqp (hq f hf)).1 hqf
    subst e
    refine hd q hf ?_
    rw [← powMod_eq (lt_of_le_of_lt (Nat.div_le_self _ _) (by omega))] at h
    have h' := (ZMod.natCast_eq_natCast_iff (powMod a ((p - 1) / q) p) 1 p).1 (h.trans Nat.cast_one.symm)
    rwa [Nat.ModEq, Nat.mod_eq_of_lt hp1] at h'

/-- A Pratt certificate: a number, a witness, and the prime factors of the number less one. -/
structure Certificate where
  p : Nat
  a : Nat
  factors : List Nat

/-- No `d' ≥ d` with `d' * d' ≤ q` divides `q`, found within `fuel` trials. -/
def noDivisorFrom (q : Nat) : Nat → Nat → Bool
  | 0, _ => false
  | fuel + 1, d => q < d * d || (q % d != 0 && noDivisorFrom q fuel (d + 1))

theorem noDivisorFrom_sound {q fuel d : Nat} (h : noDivisorFrom q fuel d = true) (m : Nat) (hm : d ≤ m)
    (hq : m * m ≤ q) : ¬ m ∣ q := by
  induction fuel generalizing d with
  | zero => cases h
  | succ fuel ih =>
    simp only [noDivisorFrom, Bool.or_eq_true, decide_eq_true_eq, Bool.and_eq_true, bne_iff_ne] at h
    rcases h with h | ⟨hd, h⟩
    · exact absurd (Nat.mul_le_mul hm hm) (by omega)
    · rcases Nat.eq_or_lt_of_le hm with rfl | hlt
      · exact fun hdvd => hd (Nat.mod_eq_zero_of_dvd hdvd)
      · exact ih h hlt

/-- `q` is prime, by trial division below 1000. -/
def smallPrime (q : Nat) : Bool := 2 ≤ q && noDivisorFrom q 1000 2

theorem smallPrime_sound {q : Nat} (h : smallPrime q = true) : q.Prime := by
  simp only [smallPrime, Bool.and_eq_true, decide_eq_true_eq] at h
  exact Nat.prime_def_le_sqrt.2 ⟨h.1, fun m h2 hm => noDivisorFrom_sound h.2 m h2 (Nat.le_sqrt.1 hm)⟩

/-- Every certificate holds, its factors being small or among the numbers `known` before it. -/
def checkCertificates (known : List Nat) : List Certificate → Bool
  | [] => true
  | c :: cs =>
    c.factors.all (fun q => known.contains q || smallPrime q)
      && (decide (c.factors.prod = c.p - 1 ∧ 1 < c.p ∧ c.p < 2 ^ 256) && powMod c.a (c.p - 1) c.p == 1)
      && c.factors.all (fun q => powMod c.a ((c.p - 1) / q) c.p % c.p != 1)
      && checkCertificates (c.p :: known) cs

theorem checkCertificates_sound {cs : List Certificate} {known : List Nat} (hk : ∀ q ∈ known, q.Prime)
    (h : checkCertificates known cs = true) : ∀ c ∈ cs, c.p.Prime := by
  induction cs generalizing known with
  | nil => exact fun _ hc => nomatch hc
  | cons c cs ih =>
    simp only [checkCertificates, Bool.and_eq_true, List.all_eq_true, Bool.or_eq_true, decide_eq_true_eq,
      beq_iff_eq, bne_iff_ne, List.contains_iff_mem] at h
    obtain ⟨⟨⟨hf, hp, h1⟩, hd⟩, ht⟩ := h
    have hc : c.p.Prime := prime_of_certificate c.p c.a c.factors
      (fun q hq => (hf q hq).elim (hk q) smallPrime_sound) hp h1 hd
    exact List.forall_mem_cons.2 ⟨hc, ih (List.forall_mem_cons.2 ⟨hc, hk⟩) ht⟩

/-- The certificates, each after those of its large factors. -/
def certificates : List Certificate := [
  ⟨3079049, 3, [2, 2, 2, 7, 54983]⟩,
  ⟨6158099, 2, [2, 3079049]⟩,
  ⟨4773264379806847, 3, [2, 3, 7, 11, 823, 34511, 363761]⟩,
  ⟨66013261729388519804782124120027, 2, [2, 13, 1213, 71209, 6158099, 4773264379806847]⟩,
  ⟨3017783777, 3, [2, 2, 2, 2, 2, 7, 7, 337, 5711]⟩,
  ⟨4641351449027, 2, [2, 769, 3017783777]⟩,
  ⟨8214737, 3, [2, 2, 2, 2, 67, 79, 97]⟩,
  ⟨417514796639753, 3, [2, 2, 2, 7, 367, 2473, 8214737]⟩,
  ⟨348253387243, 3, [2, 3, 61, 5303, 179429]⟩,
  ⟨curveP, 13, [2, 43, 30223, 348253387243, 4641351449027, 417514796639753, 66013261729388519804782124120027]⟩,
  ⟨10042883, 2, [2, 1013, 4957]⟩,
  ⟨2368433183657, 3, [2, 2, 2, 41, 719, 10042883]⟩] ++ [
  ⟨3258964060712033, 3, [2, 2, 2, 2, 2, 43, 2368433183657]⟩,
  ⟨17965699, 2, [2, 3, 71, 181, 233]⟩,
  ⟨107615843, 2, [2, 43, 103, 12149]⟩,
  ⟨9061163, 2, [2, 11, 71, 5801]⟩,
  ⟨5636460199499, 2, [2, 31, 79, 127, 9061163]⟩,
  ⟨101456283590983, 3, [2, 3, 3, 5636460199499]⟩,
  ⟨2566129871, 7, [2, 5, 3049, 84163]⟩,
  ⟨18120927127286907576013935251791662753637, 6, [2, 2, 3, 3, 17965699, 107615843, 2566129871, 101456283590983]⟩,
  ⟨125197554539772723432468576818475380947471091418362477724521, 3, [2, 2, 2, 5, 53, 3258964060712033, 18120927127286907576013935251791662753637]⟩,
  ⟨117774739, 2, [2, 3, 3, 59, 110899]⟩,
  ⟨1413296869, 6, [2, 2, 3, 117774739]⟩,
  ⟨curveN, 3, [2, 3, 7759, 14057, 1413296869, 125197554539772723432468576818475380947471091418362477724521]⟩]

theorem certificates_hold : ∀ c ∈ certificates, c.p.Prime :=
  checkCertificates_sound (known := []) (fun _ h => nomatch h) (by decide +kernel)

/-- P is prime. -/
theorem curveP_prime : curveP.Prime :=
  certificates_hold _ (List.mem_of_getElem? (i := 9) rfl)

/-- N is prime. -/
theorem curveN_prime : curveN.Prime :=
  certificates_hold _ (List.mem_of_getElem? (i := 23) rfl)

/-- Both moduli are prime. -/
theorem modulusValue_prime (m : Modulus) : (modulusValue m).Prime := by
  cases m
  · exact curveP_prime
  · exact curveN_prime

end Sys2Proof.Laws
end

