-- ==== Sys2Proof/Laws/Window.lean ====
section
/-! SUPPORT. The invariant as a proposition, and what a host access can do to the state. -/

namespace Sys2Proof.Machine

/-! ## The invariant -/

/-- The parts of the invariant. -/
theorem State.inv_iff (s : State) :
    s.inv = true ↔ (Mem.wf 256 s.imem = true ∧ Mem.wf 4096 s.dmem = true) ∧ s.pc.toNat ≤ 256
      ∧ s.fpc.toNat ≤ 256 ∧ s.status.consistent = true := by
  simp only [State.inv, State.memoryWf, Bool.and_eq_true, decide_eq_true_eq]
  simp only [Config.imemWords, Config.dmemBytes, and_assoc]

/-- The parts of the consistency of STATUS (R31). -/
theorem Status.consistent_iff (st : Status) :
    st.consistent = true ↔ (st.done = true → st.fault = false ∧ st.cause = .none)
      ∧ (st.busy = true → st.done = false ∧ st.fault = false ∧ st.cause = .none)
      ∧ (st.fault = true → st.cause ≠ .none) := by
  obtain ⟨b, d, f, h, c⟩ := st
  cases b <;> cases d <;> cases f <;> cases c <;> simp [Status.consistent]

/-- Setting HERR keeps the invariant. -/
theorem State.inv_setHerr (s : State) : s.setHerr.inv = s.inv := rfl

/-! ## The window map (R36) -/

theorem windowMap_index (w : Nat) (k : IReg) (h : w = 8 + k.val) : windowMap w = .index k := by
  have hk := k.isLt
  unfold windowMap
  rw [if_neg (by omega), if_neg (by omega), if_neg (by omega), if_neg (by omega), if_neg (by omega),
    if_neg (by omega), dif_pos (by omega)]
  exact congrArg WindowWord.index (Fin.ext (by simp only; omega))

theorem windowMap_big (w : Nat) (r : BReg) (j : Fin 8) (h : w = 64 + 8 * r.val + j.val) :
    windowMap w = .big r j := by
  have hr := r.isLt
  have hj := j.isLt
  unfold windowMap
  rw [if_neg (by omega), if_neg (by omega), if_neg (by omega), if_neg (by omega), if_neg (by omega),
    if_neg (by omega), dif_neg (by omega), dif_pos (by omega)]
  exact congrArg₂ WindowWord.big (Fin.ext (by simp only; omega)) (Fin.ext (by simp only; omega))

theorem windowMap_hash (w : Nat) (j : Fin 8) (h : w = 192 + j.val) : windowMap w = .hash j := by
  have hj := j.isLt
  unfold windowMap
  rw [if_neg (by omega), if_neg (by omega), if_neg (by omega), if_neg (by omega), if_neg (by omega),
    if_neg (by omega), dif_neg (by omega), dif_neg (by omega), dif_pos (by omega)]
  exact congrArg WindowWord.hash (Fin.ext (by simp only; omega))

theorem windowMap_roundKey (w : Nat) (i : Fin 32) (h : w = 224 + i.val) : windowMap w = .roundKey i := by
  have hi := i.isLt
  unfold windowMap
  rw [if_neg (by omega), if_neg (by omega), if_neg (by omega), if_neg (by omega), if_neg (by omega),
    if_neg (by omega), dif_neg (by omega), dif_neg (by omega), dif_neg (by omega), dif_pos (by omega)]
  exact congrArg WindowWord.roundKey (Fin.ext (by simp only; omega))

theorem windowMap_imem (w : Nat) (a : Fin 256) (h : w = 256 + a.val) : windowMap w = .imem a := by
  have ha := a.isLt
  unfold windowMap
  rw [if_neg (by omega), if_neg (by omega), if_neg (by omega), if_neg (by omega), if_neg (by omega),
    if_neg (by omega), dif_neg (by omega), dif_neg (by omega), dif_neg (by omega), dif_neg (by omega),
    dif_pos (by omega)]
  exact congrArg WindowWord.imem (Fin.ext (by simp only; omega))

theorem windowMap_dmem (w : Nat) (a : Fin 1024) (h : w = 1024 + a.val) : windowMap w = .dmem a := by
  have ha := a.isLt
  unfold windowMap
  rw [if_neg (by omega), if_neg (by omega), if_neg (by omega), if_neg (by omega), if_neg (by omega),
    if_neg (by omega), dif_neg (by omega), dif_neg (by omega), dif_neg (by omega), dif_neg (by omega),
    dif_neg (by omega), dif_pos (by omega)]
  exact congrArg WindowWord.dmem (Fin.ext (by simp only; omega))

theorem windowMap_reserved (w : Nat) (h : (6 ≤ w ∧ w < 8) ∨ (12 ≤ w ∧ w < 64) ∨ (200 ≤ w ∧ w < 224)
    ∨ (512 ≤ w ∧ w < 1024) ∨ 2048 ≤ w) : windowMap w = .reserved := by
  unfold windowMap
  rw [if_neg (by omega), if_neg (by omega), if_neg (by omega), if_neg (by omega), if_neg (by omega),
    if_neg (by omega), dif_neg (by omega), dif_neg (by omega), dif_neg (by omega), dif_neg (by omega),
    dif_neg (by omega), dif_neg (by omega)]

/-- Every word index is one of the map's rows. -/
theorem windowMap_cases (w : Nat) :
    (w = 0 ∧ windowMap w = .id) ∨ (w = 1 ∧ windowMap w = .ctrl) ∨ (w = 2 ∧ windowMap w = .status) ∨
    (w = 3 ∧ windowMap w = .fpc) ∨ (w = 4 ∧ windowMap w = .finsn) ∨ (w = 5 ∧ windowMap w = .flags) ∨
    (∃ k : IReg, w = 8 + k.val ∧ windowMap w = .index k) ∨
    (∃ (r : BReg) (j : Fin 8), w = 64 + 8 * r.val + j.val ∧ windowMap w = .big r j) ∨
    (∃ j : Fin 8, w = 192 + j.val ∧ windowMap w = .hash j) ∨
    (∃ i : Fin 32, w = 224 + i.val ∧ windowMap w = .roundKey i) ∨
    (∃ a : Fin 256, w = 256 + a.val ∧ windowMap w = .imem a) ∨
    (∃ a : Fin 1024, w = 1024 + a.val ∧ windowMap w = .dmem a) ∨
    (((6 ≤ w ∧ w < 8) ∨ (12 ≤ w ∧ w < 64) ∨ (200 ≤ w ∧ w < 224) ∨ (512 ≤ w ∧ w < 1024) ∨ 2048 ≤ w)
      ∧ windowMap w = .reserved) := by
  by_cases h6 : w < 6
  · interval_cases w <;> simp [windowMap]
  by_cases h8 : 8 ≤ w ∧ w < 12
  · exact .inr (.inr (.inr (.inr (.inr (.inr (.inl
      ⟨⟨w - 8, by omega⟩, by simp only; omega, windowMap_index _ _ (by simp only; omega)⟩))))))
  by_cases h64 : 64 ≤ w ∧ w < 192
  · exact .inr (.inr (.inr (.inr (.inr (.inr (.inr (.inl
      ⟨⟨(w - 64) / 8, by omega⟩, ⟨(w - 64) % 8, by omega⟩, by simp only; omega,
        windowMap_big _ _ _ (by simp only; omega)⟩)))))))
  by_cases h192 : 192 ≤ w ∧ w < 200
  · exact .inr (.inr (.inr (.inr (.inr (.inr (.inr (.inr (.inl
      ⟨⟨w - 192, by omega⟩, by simp only; omega, windowMap_hash _ _ (by simp only; omega)⟩))))))))
  by_cases h224 : 224 ≤ w ∧ w < 256
  · exact .inr (.inr (.inr (.inr (.inr (.inr (.inr (.inr (.inr (.inl
      ⟨⟨w - 224, by omega⟩, by simp only; omega, windowMap_roundKey _ _ (by simp only; omega)⟩)))))))))
  by_cases h256 : 256 ≤ w ∧ w < 512
  · exact .inr (.inr (.inr (.inr (.inr (.inr (.inr (.inr (.inr (.inr (.inl
      ⟨⟨w - 256, by omega⟩, by simp only; omega, windowMap_imem _ _ (by simp only; omega)⟩))))))))))
  by_cases h1024 : 1024 ≤ w ∧ w < 2048
  · exact .inr (.inr (.inr (.inr (.inr (.inr (.inr (.inr (.inr (.inr (.inr (.inl
      ⟨⟨w - 1024, by omega⟩, by simp only; omega, windowMap_dmem _ _ (by simp only; omega)⟩)))))))))))
  · have h : (6 ≤ w ∧ w < 8) ∨ (12 ≤ w ∧ w < 64) ∨ (200 ≤ w ∧ w < 224) ∨ (512 ≤ w ∧ w < 1024) ∨ 2048 ≤ w := by
      omega
    exact .inr (.inr (.inr (.inr (.inr (.inr (.inr (.inr (.inr (.inr (.inr (.inr
      ⟨h, windowMap_reserved w h⟩)))))))))))

/-! ## Host accesses -/

/-- A read changes at most the count of draws (R47, R48). -/
theorem State.windowRead_eq (s : State) (w : WindowWord) :
    ∃ v d, s.draws ≤ d ∧ s.windowRead w = (v, { s with draws := d }) := by
  cases w with
  | imem a =>
    simp only [State.windowRead]
    split
    · exact ⟨_, s.draws, Nat.le_refl _, rfl⟩
    · exact ⟨_, s.draws + 1, Nat.le_succ _, rfl⟩
  | dmem w => exact ⟨_, _, Mem.readBytes_draws_le .., rfl⟩
  | id | ctrl | status | fpc | finsn | flags | index | big | hash | roundKey | reserved =>
    exact ⟨_, s.draws, Nat.le_refl _, rfl⟩

/-- A host read: an answered word, or 0 and HERR. -/
theorem State.hostRead_cases (s : State) (o : Offset) :
    (s.reachable (windowWord o) = true ∧ s.hostRead o = s.windowRead (windowWord o)) ∨
    (s.reachable (windowWord o) = false ∧ s.hostRead o = (0, s.setHerr)) := by
  unfold State.hostRead
  cases s.reachable (windowWord o)
  · exact .inr ⟨rfl, rfl⟩
  · exact .inl ⟨rfl, rfl⟩

/-- A host write: the word's write, or HERR alone. -/
theorem State.hostWrite_cases (s : State) (o : Offset) (d : Word) :
    (s.reachable (windowWord o) = true ∧ s.hostWrite o d = s.windowWrite d (windowWord o)) ∨
    (s.reachable (windowWord o) = false ∧ s.hostWrite o d = s.setHerr) := by
  unfold State.hostWrite
  cases s.reachable (windowWord o)
  · exact .inr ⟨rfl, rfl⟩
  · exact .inl ⟨rfl, rfl⟩

/-- A write of CTRL: a start, IE alone with or without HERR, or IE and ENTRY (R29, R30, R53). -/
theorem State.writeCtrl_cases (s : State) (d : Word) :
    (s.status.busy = true ∧ d.getLsbD 0 = true
      ∧ s.writeCtrl d = State.setHerr { s with ctrl := { s.ctrl with ie := d.getLsbD 1 } }) ∨
    (s.status.busy = true ∧ d.getLsbD 0 = false
      ∧ s.writeCtrl d = { s with ctrl := { s.ctrl with ie := d.getLsbD 1 } }) ∨
    (s.status.busy = false ∧ d.getLsbD 0 = true
      ∧ s.writeCtrl d = s.start (d.getLsbD 1) (ctrlEntry d)) ∨
    (s.status.busy = false ∧ d.getLsbD 0 = false
      ∧ s.writeCtrl d = { s with ctrl := { ie := d.getLsbD 1, entry := ctrlEntry d } }) := by
  unfold State.writeCtrl
  cases s.status.busy <;> cases d.getLsbD 0 <;> simp

/-! ## The end of a run (R170) -/

/-- A run that a step stops has the observation of the state it left. -/
theorem State.runEnd_stop {s t : State} (n : Nat) (hb : s.status.busy = true) (hr : s.rst = false)
    (h : step s = .next t) (ht : t.status.busy = false) : State.runEnd (n + 1) s = t.observation := by
  cases n <;> simp [State.runEnd, hb, hr, h, ht]

/-- A step that does not stop the run leaves its end to the steps after it. -/
theorem State.runEnd_step {s t : State} (n : Nat) (hb : s.status.busy = true) (hr : s.rst = false)
    (h : step s = .next t) : State.runEnd (n + 1) s = State.runEnd n t := by
  simp [State.runEnd, hb, hr, h]

/-- A block that is still Running has no observation. -/
theorem State.observation_busy {s : State} (hb : s.status.busy = true) : s.observation = none := by
  simp [State.observation, hb]

end Sys2Proof.Machine
end

