-- ==== Sys2Proof/Tests/Slice0.lean ====
section
/-! SUPPORT. Tests of the model against the spec's own encodings, examples and vectors
(spec/30_encoding.md R63 to R67, the examples of the instruction rules, spec/95_test_vectors.md §2), and one
witness for the hypotheses of each statement. Every expected value is the spec's. -/

namespace Sys2Proof.Tests

open Sys2Proof Sys2Proof.Machine

/-! ## Helpers -/

/-- Reset with some B registers set. -/
def withB (l : List (BReg × Nat)) : State :=
  l.foldl (fun s rv => s.setB rv.1 (BitVec.ofNat 256 rv.2)) State.reset

/-- The next state after decoding and executing the word `w` meets `p`. -/
def afterWord (w : Word) (s : State) (p : State → Bool) : Bool :=
  match runWord w s with
  | .next t => p t
  | _ => false

/-- The next state after one step meets `p`. -/
def afterStep (s : State) (p : State → Bool) : Bool :=
  match step s with
  | .next t => p t
  | _ => false

/-- A state Running at `pc` with `w` there. -/
def running (pc : Pc) (w : Word) : State :=
  { State.reset with
    status := { State.reset.status with busy := true }, pc := pc, imem := [(pc.toNat, w)] }

/-- An Idle state with these host events to come. -/
def idleHost (l : List HostEvent) : State := { State.reset with pending := l }

/-- A Running state with these host events to come. -/
def busyHost (l : List HostEvent) : State := { running 0 0x04000000 with pending := l }

/-- The next state has CAUSE `c`, stopped, at FPC 0 with FINSN `w`. -/
def faulted (c : Cause) (w : Word) (t : State) : Bool :=
  !t.status.busy && t.status.fault && t.status.cause == c && t.fpc == 0 && t.finsn == w

/-! ## WellFormed -/

theorem test_wellFormed_refuses_reserved_constant :
    (Instr.const 0 12).wellFormed = false ∧ (Instr.const 7 15).wellFormed = false
      ∧ (Instr.const 7 11).wellFormed = true := by decide

/-! ## Decoding: each constructor's word, written from its format (R63) and opcode (R65) -/

theorem test_decode_control :
    decode 0b00000100000000000000000000000000#32 = .instr .nop ∧
    decode 0b00001000000000000000000000000000#32 = .instr .halt ∧
    decode 0b00001100000000000000000000000101#32 = .instr (.jmp 5) ∧
    decode 0b00010000000000000000000000000111#32 = .instr (.bz 7) ∧
    decode 0b00010100000000000000000000000111#32 = .instr (.bnz 7) ∧
    decode 0b00011000000000000000000000001100#32 = .instr (.bt 12) ∧
    decode 0b00011100000000000000000000001001#32 = .instr (.bnt 9) ∧
    decode 0b00100000000000110000000010000000#32 = .instr (.dbra 3 128) ∧
    decode 0b00100100000000101010101111001101#32 = .instr (.li 2 0xABCD) ∧
    decode 0b00101000000000010000000001000000#32 = .instr (.addi 1 64) ∧
    decode 0b00101100000011000000000000000000#32 = .instr (.btst 3 0) := by decide

theorem test_decode_move :
    decode 0b01000000010010000000000000000000#32 = .instr (.mov 1 2) ∧
    decode 0b01000100110110000000000000000000#32 = .instr (.const 3 6) ∧
    decode 0b01001000000000110000111111111111#32 = .instr (.ldw 0 0xFFF 3) ∧
    decode 0b01001100100000000000000001000000#32 = .instr (.stw 2 64 0) ∧
    decode 0b01010000100000000000111111110000#32 = .instr (.ldq 2 0xFF0 0) ∧
    decode 0b01010100100000000000000000100000#32 = .instr (.stq 2 32 0) := by decide

theorem test_decode_modular :
    decode 0b01100001000101011000000000000000#32 = .instr (.madd 4 5 6 .p) ∧
    decode 0b01100101000101011010000000000000#32 = .instr (.msub 4 5 6 .n) ∧
    decode 0b01101001000101011000000000000000#32 = .instr (.mmul 4 5 6 .p) ∧
    decode 0b01101110011010000010000000000000#32 = .instr (.minv 9 10 .n) ∧
    decode 0b01110000100010000010000000000000#32 = .instr (.mred 2 2 .n) ∧
    decode 0b01110101010001000010000000000000#32 = .instr (.tom 5 1 .n) ∧
    decode 0b01111001100101000000000000000000#32 = .instr (.fromm 6 5 .p) ∧
    decode 0b01111100000011000010000000000000#32 = .instr (.rchk 3 .n) := by decide

theorem test_decode_point :
    decode 0b10000010000000000000000000000000#32 = .instr (.pgen 2) ∧
    decode 0b10000101000000000000000000000000#32 = .instr (.pdbl 1 0) ∧
    decode 0b10001010000100110000000000000000#32 = .instr (.padd 2 1 3) ∧
    decode 0b10001100000100000000000000000000#32 = .instr (.pchk 1) := by decide

theorem test_decode_hash :
    decode 0b10100000000000000000000000000000#32 = .instr .hinit ∧
    decode 0b10100100000011000000000000000000#32 = .instr (.hset 3) ∧
    decode 0b10101000100000000000000000000000#32 = .instr (.hget 2) ∧
    decode 0b10101100000000000100000000000000#32 = .instr (.hcomp 0 1) ∧
    decode 0b10110000100011000000000000000000#32 = .instr (.hp0 2 3) ∧
    decode 0b10110100100011000000000000000000#32 = .instr (.hp1 2 3) := by decide

theorem test_decode_cipher :
    decode 0b11000000000101000000000000000000#32 = .instr (.kexp 5) ∧
    decode 0b11000100100001000000000000000000#32 = .instr (.enc 2 1) ∧
    decode 0b11001000110010000000000000000000#32 = .instr (.dec 3 2) ∧
    decode 0b11001100100011000000000000000000#32 = .instr (.sbox 2 3) ∧
    decode 0b11010000100011000000000000000000#32 = .instr (.ldif 2 3) ∧
    decode 0b11010100100011000000000000000000#32 = .instr (.lkey 2 3) := by decide

/-- V-C13a to V-C13e. -/
theorem test_decode_refuses :
    decode 0x00000000#32 = .illegal .reservedOpcode ∧ decode 0xFC000000#32 = .illegal .reservedOpcode ∧
    decode 0x04000001#32 = .illegal .reservedBit ∧ decode 0x44300000#32 = .illegal .reservedConstant ∧
    decode 0x08000100#32 = .illegal .reservedBit := by decide

/-- The table's numbering: one 32-bit word, bit 0 least significant. -/
theorem test_decodeTableWord :
    decodeTableWord 32 0x89100000 = some (.padd 1 1 0) ∧ decodeTableWord 32 0x04000001 = none := by decide

/-! ## Control -/

/-- V-C12: NOP at index 255 completes with pc = 256. -/
theorem test_nop_at_end : afterStep (running 255 0x04000000) (fun t => t.pc == 256 && t.status.busy) = true := by
  decide

/-- R73's example. -/
theorem test_halt : afterStep (running 6 0x08000000)
    (fun t => statusRead t.status == 2 && t.fpc == 6 && t.pc == 6 && t.finsn == 0x08000000) = true := by decide

/-- V-C3. -/
theorem test_jmp : afterWord 0x0C000005 State.reset (fun t => t.pc == 5) = true := by decide

/-- V-C4a and V-C4b. -/
theorem test_bz : afterWord 0x10000003 (State.reset.setZ true) (fun t => t.pc == 3) = true
    ∧ afterWord 0x10000003 State.reset (fun t => t.pc == 1) = true := by decide

/-- V-C5a and V-C5b. -/
theorem test_bnz : afterWord 0x14000003 State.reset (fun t => t.pc == 3) = true
    ∧ afterWord 0x14000003 (State.reset.setZ true) (fun t => t.pc == 1) = true := by decide

/-- V-C6a and V-C6b. -/
theorem test_bt : afterWord 0x18000003 (State.reset.setT true) (fun t => t.pc == 3) = true
    ∧ afterWord 0x18000003 State.reset (fun t => t.pc == 1) = true := by decide

/-- V-C7a and V-C7b. -/
theorem test_bnt : afterWord 0x1C000003 State.reset (fun t => t.pc == 3) = true
    ∧ afterWord 0x1C000003 (State.reset.setT true) (fun t => t.pc == 1) = true := by decide

/-- V-C8b and V-C8c. -/
theorem test_dbra :
    afterWord 0x20000003 (State.reset.setI 0 1) (fun t => t.getI 0 == 0 && t.pc == 3) = true
    ∧ afterWord 0x20000003 State.reset (fun t => t.getI 0 == 0xFFFF && t.pc == 1) = true := by decide

/-- V-C9. -/
theorem test_li : afterWord 0x2402ABCD State.reset (fun t => t.getI 2 == 0xABCD && t.pc == 1) = true := by
  decide

/-- V-C10c. -/
theorem test_addi_wraps : afterWord 0x28010001 (State.reset.setI 1 0xFFFF) (fun t => t.getI 1 == 0) = true := by
  decide

/-- V-C11c and V-C11d: only the low byte of the index counts. -/
theorem test_btst :
    afterWord 0x2C0C0000 ((withB [(3, 2 ^ 255)]).setI 0 0xFFFF) (fun t => t.tFlag) = true
    ∧ afterWord 0x2C0C0000 ((withB [(3, 1)]).setI 0 0x0100) (fun t => t.tFlag) = true := by decide

/-! ## Data movement -/

/-- V-D1. -/
theorem test_mov : afterWord 0x40400000 (withB [(0, 0x1234), (1, 5)])
    (fun t => t.getBNat 1 == 0x1234 && t.getBNat 0 == 0x1234) = true := by decide

/-- V-D2.6. -/
theorem test_const : afterWord 0x45D80000 State.reset (fun t => t.getB 7
    == 0x32C4AE2C1F1981195F9904466A39C9948FE30BBFF2660BE1715A4589334C74C7) = true := by decide

/-- A DMEM whose 32 bytes from `a` are those of `v`. -/
def holding (a v : Nat) : State := State.reset.memWrite a 32 v

/-- V-D3b, and V-D3d: the address sum does not wrap. -/
theorem test_ldw :
    afterWord 0x48000FE0 (holding 4064 0xE0E1E2E3E4E5E6E7E8E9EAEBECEDEEEFF0F1F2F3F4F5F6F7F8F9FAFBFCFDFEFF)
      (fun t => t.getBNat 0 == 0xE0E1E2E3E4E5E6E7E8E9EAEBECEDEEEFF0F1F2F3F4F5F6F7F8F9FAFBFCFDFEFF) = true
    ∧ afterWord 0x48030FFF (State.reset.setI 3 0xFFFF) (faulted .daddr 0x48030FFF) = true := by decide

/-- V-D4. -/
theorem test_stw : afterWord 0x4C410003
    ((withB [(1, 0x0102030405060708090A0B0C0D0E0F101112131415161718191A1B1C1D1E1F20)]).setI 1 0x10)
    (fun t => Mem.get? t.dmem 18 == none && Mem.get? t.dmem 19 == some 1#8 && Mem.get? t.dmem 50 == some 0x20#8
      && Mem.get? t.dmem 51 == none) = true := by decide

/-- V-D5a and V-D5b. -/
theorem test_ldq :
    afterWord 0x50800FF0 (holding 4064 0xE0E1E2E3E4E5E6E7E8E9EAEBECEDEEEFF0F1F2F3F4F5F6F7F8F9FAFBFCFDFEFF)
      (fun t => t.getBNat 2 == 0xF0F1F2F3F4F5F6F7F8F9FAFBFCFDFEFF) = true
    ∧ afterWord 0x50800FF1 State.reset (faulted .daddr 0x50800FF1) = true := by decide

/-- V-D6. -/
theorem test_stq : afterWord 0x54800000
    (withB [(2, 0xA0A1A2A3A4A5A6A7A8A9AAABACADAEAFB0B1B2B3B4B5B6B7B8B9BABBBCBDBEBF)])
    (fun t => Mem.get? t.dmem 0 == some 0xB0#8 && Mem.get? t.dmem 15 == some 0xBF#8
      && Mem.get? t.dmem 16 == none) = true := by decide

/-! ## Modular unit -/

/-- V-M1, and V-M19: a faulting instruction writes nothing. -/
theorem test_madd :
    afterWord 0x60048000 (withB [(1, curveP - 1), (2, 1)]) (fun t => t.getBNat 0 == 0 && t.zFlag) = true
    ∧ afterWord 0x60048000 (withB [(0, 7), (1, curveP)])
      (fun t => faulted .range 0x60048000 t && t.getBNat 0 == 7 && !t.zFlag && t.pc == 0) = true := by decide

/-- V-M3. -/
theorem test_msub_below_zero : afterWord 0x6404A000 (withB [(2, 1)])
    (fun t => t.getB 0 == 0xFFFFFFFEFFFFFFFFFFFFFFFFFFFFFFFF7203DF6B21C6052B53BBF40939D54122
      && !t.zFlag) = true := by decide

/-- V-M7, and V-M23: a source that is also the destination. -/
theorem test_mmul :
    afterWord 0x6804A000 (withB [(1, 2), (2, 3)])
      (fun t => t.getB 0 == 0x9B56731C76063B4BF0A5C68D21351606C15829FB39F7D215CFFF800DFAACC136) = true
    ∧ afterWord 0x68444000 (withB [(1, 0x0000000200000000000000000000000000000001FFFFFFFE0000000000000002)])
      (fun t => t.getB 1 == 0x0000000400000000000000000000000000000003FFFFFFFC0000000000000004) = true := by
  decide

/-- V-M8. -/
theorem test_minv_zero : afterWord 0x6C040000 (withB [(0, 9)]) (fun t => t.getBNat 0 == 0 && t.zFlag) = true := by
  decide

/-- V-M10: the inverse of mont(2). -/
theorem test_minv_two : afterWord 0x6C040000
    (withB [(1, 0x0000000200000000000000000000000000000001FFFFFFFE0000000000000002)])
    (fun t => t.getB 0 == 0x8000000000000000000000000000000000000000000000000000000000000000) = true := by
  decide +kernel

/-- V-M12. -/
theorem test_mred : afterWord 0x70042000 (withB [(1, 2 ^ 256 - 1)])
    (fun t => t.getB 0 == 0x000000010000000000000000000000008DFC2094DE39FAD4AC440BF6C62ABEDC
      && !t.zFlag) = true := by decide

/-- V-M14. -/
theorem test_tom : afterWord 0x74040000 (withB [(1, 1)])
    (fun t => t.getB 0 == 0x0000000100000000000000000000000000000000FFFFFFFF0000000000000001) = true := by
  decide

/-- V-M15, and V-M22: P − 1 is not below N. -/
theorem test_fromm :
    afterWord 0x78040000 (withB [(1, 0x0000000100000000000000000000000000000000FFFFFFFF0000000000000001)])
      (fun t => t.getBNat 0 == 1) = true
    ∧ afterWord 0x78042000 (withB [(1, curveP - 1)]) (faulted .range 0x78042000) = true := by decide

/-- V-M17d and V-M18. -/
theorem test_rchk :
    afterWord 0x7C042000 ((withB [(1, curveN)]).setT true) (fun t => !t.tFlag) = true
    ∧ afterWord 0x7C040000 (withB [(1, curveN)]) (fun t => t.tFlag) = true := by decide

/-! ## Point unit -/

/-- The generator's registers (V-P1). -/
def genX : Nat := 0x91167A5EE1C13B05D6A1ED99AC24C3C33E7981EDDCA6C05061328990F418029E
/-- The generator's registers (V-P1). -/
def genY : Nat := 0x63CD65D481D735BD8D4CFB066E2A48F8C1F5E5788D3295FAC1354E593C2D0DDD

/-- V-P1. -/
theorem test_pgen : afterWord 0x82000000 (withB [(11, 3)])
    (fun t => t.getBNat 8 == genX && t.getBNat 9 == genY && t.getBNat 10 == rModP && t.getBNat 11 == 3) = true := by
  decide

/-- V-P2, and V-P17: an input off the curve with Y = 0. -/
theorem test_pdbl :
    afterWord 0x85000000 (withB [(0, genX), (1, genY), (2, rModP)])
      (fun t => t.getB 4 == 0x398874C476A3B1F77AEF3E862601440903243D78D5B614A62EDA8381E63C48D6
        && t.getB 5 == 0x1FBBDFDDDAF4FD475A86A7AE64921D4829F04A88F6CF4DC128385681C1A73E40
        && t.getB 6 == 0xC79ACBA903AE6B7B1A99F60CDC5491F183EBCAF11A652BF5826A9CB2785A1BBA) = true
    ∧ afterWord 0x85000000 (withB [(0, rModP), (2, rModP)])
      (fun t => t.getBNat 4 == rModP && t.getBNat 5 == rModP && t.getBNat 6 == 0) = true := by decide

/-- V-P9, and V-P7: a finite operand is copied unchanged, even off the curve. -/
theorem test_padd :
    afterWord 0x8A010000
      (withB [(0, genX), (1, genY), (2, rModP), (4, genX), (5, genY), (6, rModP)])
      (fun t => t.getB 8 == 0x398874C476A3B1F77AEF3E862601440903243D78D5B614A62EDA8381E63C48D6
        && t.getB 10 == 0xC79ACBA903AE6B7B1A99F60CDC5491F183EBCAF11A652BF5826A9CB2785A1BBA) = true
    ∧ afterWord 0x89020000 (withB [(0, 7), (1, 8), (2, 9), (8, 5), (9, 6)])
      (fun t => t.getBNat 4 == 7 && t.getBNat 5 == 8 && t.getBNat 6 == 9) = true := by decide

/-- V-P11 and V-P12. -/
theorem test_pchk :
    afterWord 0x8C000000 (withB [(0, genX), (1, genY), (2, rModP)]) (fun t => t.tFlag) = true
    ∧ afterWord 0x8C000000 ((withB [(0, rModP), (1, rModP)]).setT true) (fun t => !t.tFlag) = true := by decide

/-! ## Hash unit -/

/-- V-H1. -/
theorem test_hinit : afterWord 0xA0000000 State.reset (fun t => t.hash
    == 0x7380166F4914B2B9172442D7DA8A0600A96F30BC163138AAE38DEE4DB0FB0E4E) = true := by decide

/-- V-H2. -/
theorem test_hset : afterWord 0xA4140000
    (withB [(5, 0x00112233445566778899AABBCCDDEEFF00112233445566778899AABBCCDDEEFF)])
    (fun t => t.hash == 0x00112233445566778899AABBCCDDEEFF00112233445566778899AABBCCDDEEFF) = true := by decide

/-- V-H3. -/
theorem test_hget : afterWord 0xA9800000
    (State.reset.setH 0x0123456702468ACE0369D035048D159C05B05B0306D3A06A07F6E5D1091A2B38)
    (fun t => t.getB 6 == 0x0123456702468ACE0369D035048D159C05B05B0306D3A06A07F6E5D1091A2B38) = true := by
  decide

/-- V-H8. -/
theorem test_hcomp : afterWord 0xAC004000 (withB [(0, 1), (1, 2)])
    (fun t => t.hash == 0x7C25ADFA77BED21D425FED94CB7E55A8E93ACEF8CFFAF73DC01CC5201234EB5E) = true := by
  decide +kernel

/-- B3 of V-H6. -/
def laneInput : Nat := 0x8000000000000001FFFFFFFF1234567800000000000000000000000000000000

/-- V-H6. -/
theorem test_hp0 : afterWord 0xB08C0000 (withB [(3, laneInput)])
    (fun t => t.getB 2 == 0x8001010000020201FFFFFFFFD668823400000000000000000000000000000000) = true := by
  decide

/-- V-H7. -/
theorem test_hp1 : afterWord 0xB48C0000 (withB [(3, laneInput)])
    (fun t => t.getB 2 == 0x8040400000808001FFFFFFFF0501454900000000000000000000000000000000) = true := by
  decide

/-! ## Cipher unit -/

/-- V-K1's key. -/
def sampleKey : Nat := 0x0123456789ABCDEFFEDCBA9876543210

/-- V-K1: the upper half of B0 is ignored. -/
theorem test_kexp : afterWord 0xC0000000 (withB [(0, 2 ^ 200 + sampleKey)])
    (fun t => t.getRk 0 == 0xF12186F9 && t.getRk 1 == 0x41662B61 && t.getRk 31 == 0x9124A012) = true := by
  decide +kernel

/-- V-K2: the round keys of V-K1. -/
theorem test_enc : afterWord 0xC4840000
    ((withB [(1, 2 ^ 255 + sampleKey)]).setRks (expandKey (BitVec.ofNat 128 sampleKey)))
    (fun t => t.getB 2 == 0x681EDF34D206965E86B3E94F536E4246) = true := by decide +kernel

/-- V-K3: the round keys of V-K1. -/
theorem test_dec : afterWord 0xC8C80000
    ((withB [(2, 0x681EDF34D206965E86B3E94F536E4246)]).setRks (expandKey (BitVec.ofNat 128 sampleKey)))
    (fun t => t.getBNat 3 == sampleKey) = true := by decide +kernel

/-- V-K6. -/
theorem test_sbox : afterWord 0xCC8C0000
    (withB [(3, 0x00FF104000000000000000000000000000000000000000000000000000000000)])
    (fun t => t.getB 2 == 0xD6482B47D6D6D6D6D6D6D6D6D6D6D6D6D6D6D6D6D6D6D6D6D6D6D6D6D6D6D6D6) = true := by
  decide

/-- V-K7. -/
theorem test_ldif : afterWord 0xD08C0000 (withB [(3, laneInput)])
    (fun t => t.getB 2 == 0x8082020201040405FFFFFFFFAA4E935700000000000000000000000000000000) = true := by
  decide

/-- V-K8. -/
theorem test_lkey : afterWord 0xD48C0000 (withB [(3, laneInput)])
    (fun t => t.getB 2 == 0x8040100000802001FFFFFFFFA4F24E1500000000000000000000000000000000) = true := by
  decide

/-! ## The host window and the step -/

/-- V-W7: START with ENTRY = 5 and IE. -/
theorem test_start : afterStep (idleHost [.write 4 0x503])
    (fun t => t.status.busy && t.pc == 5 && ctrlRead t.ctrl == 0x502 && !t.status.done) = true := by decide

/-- V-W8: a refused write. -/
theorem test_refused_write : afterStep (busyHost [.write 0x1000 0xAABBCCDD])
    (fun t => statusRead t.status == 9 && t.dmem == []) = true := by decide

/-- V-W5: offset bits 1:0 are ignored, and a DMEM word is big-endian. -/
theorem test_dmem_read : afterStep
    ({ State.reset with dmem := [(4, 4), (5, 5), (6, 6), (7, 7)], pending := [.read 0x1007] } : State)
    (fun t => t.answer == some 0x04050607) = true := by decide

/-- V-W14: STATUS and irq after a fault with IE. -/
theorem test_irq_after_fault : afterStep
    ({ running 9 0x7C040000 with
        imem := [(9, 0x60000000#32)], big := Vector.replicate 16 (BitVec.allOnes 256), ctrl := ⟨true, 0⟩ } : State)
    (fun t => statusRead t.status == 0x24 && t.fpc == 9 && t.irq) = true := by decide

/-- V-C12: the fetch at 256. -/
theorem test_fetch_fault : afterStep (running 256 0)
    (fun t => t.status.cause == .fetch && t.fpc == 256 && t.finsn == 0) = true := by decide

/-- R68, R69: a label, a comment, hexadecimal, letter case, a pseudo-instruction of three words. -/
theorem test_assemble :
    assemble "PINF S1 ; canonical O\nloop: stw b2, 0x40(I0)\nDBRA i0, LOOP2\nB loop\nLOOP2: HALT" = some [
      .const 4 8, .const 5 8, .const 6 0, .stw 2 64 0, .dbra 0 6, .jmp 3, .halt]
    ∧ assemble "MOV B16, B0" = none := by decide +kernel

/-- A word placed where the next step fetches is what it runs, right after reset. -/
theorem test_withFetchWord : afterStep (State.reset.withFetchWord 32 0x2402ABCD)
    (fun t => t.getI 2 == 0xABCD && t.pc == 1 && t.status.busy) = true := by decide

/-- R170: the run of a HALT ends within one step and its observation is what it left; a loop has none, and
nor has a run that a reset ends before its HALT; a reset after the HALT comes too late. -/
theorem test_observation :
    (State.runEnd 5 (running 6 0x08000000)).map (fun o => (o.kind, o.fpc, o.finsn, o.dmem))
      = some (.done, 6, 0x08000000, []) ∧
    State.runEnd 5 (running 3 0x0C000003) = none ∧ State.reset.observation = none ∧
    State.runEnd 5 { running 6 0x08000000 with pending := [.assertReset, .releaseReset] } = none ∧
    (State.runEnd 5 { running 6 0x08000000 with pending := [.write 4 2, .coreTurn, .assertReset] }).map (·.kind)
      = some .done := by decide

/-! ## Procedures: the cases of programs P5 to P7 (95_test_vectors.md §1 S5, §3) -/

section Procedures

/- One theorem at a time: each is a long evaluation in the kernel, and many at once need much memory. -/
set_option Elab.async false

/-- The bytes of an ASCII text. -/
def asciiBytes (t : String) : List Byte := t.toList.map fun c => BitVec.ofNat 8 c.toNat

/-- S5: the identity. -/
def annexId : List Byte := asciiBytes "1234567812345678"
/-- S5: the message. -/
def annexMsg : List Byte := asciiBytes "message digest"
/-- S5: the private key D. -/
def annexD : Nat := 0x3945208F7B2144B13F36E38AC6D39F95889393692860B51A42FB81EF4DF7C5B8
/-- S5: the nonce k. -/
def annexK : Nat := 0x59276E27D506861A16680F3AD9C02DCCEF3CC1FA3CDBE4CE6D54B80DEAC1BC21
/-- S5: the public key X. -/
def annexX : Nat := 0x09F9DF311E5421A150DD7D161E4BC5C672179FAD1833FC076BB08FF356F35020
/-- S5: the public key Y. -/
def annexY : Nat := 0xCCEA490CE26775A52DC6EA718CC1AA600AED05FBF35E084A6632F6072DA9AD13
/-- P6: Z. -/
def annexZ : Big := 0xB2E14C5C79C6DF5B85F4FE7ED8DB7A262B9DA7E07CCB0EA9F4747B8CCDA8A4F3#256
/-- P6: e. -/
def annexE : Nat := 0xF0B43E94BA45ACCAACE692ED534382EB17E6AB5A19CE7B31F4486FDFC0D28640
/-- S5: r. -/
def annexR : Nat := 0xF5A03B0648D2C4630EEAC513E1BB81A15944DA3827D5B74143AC7EACEEE720B3
/-- S5: s. -/
def annexS : Nat := 0xB1B6AA29DF212FD8763182BC0D421CA1BB9038FD1F7F42D4840B69C485BBC1AA

/-- P5. -/
theorem test_publicKey : publicKey annexD = (annexX, annexY) := by
  rw [Laws.publicKey_eq]; decide +kernel

/-- P6: Z and e. -/
theorem test_digests : identityDigest annexId annexX annexY = some annexZ
    ∧ messageDigest annexZ annexMsg = annexE := by decide +kernel

/-- P6: r and s. -/
theorem test_signDigest : signDigest annexD annexK annexE = .accepted annexR annexS := by
  rw [Laws.signDigest_eq]; decide +kernel

/-- P6, whole: the host's one draw gives k. -/
theorem test_sign : sign annexId annexMsg annexD [annexK - 1] = .signature (encodeSignature (annexR, annexS)) := by
  have hk : nonceFromRandom (annexK - 1) = annexK := by decide
  simp only [sign, test_publicKey, test_digests.1, test_digests.2, signLoop, hk, test_signDigest]

/-- R146, P6: D or k not below N is a RANGE failure, and k = 0 gives no signature. -/
theorem test_signDigest_refuses : signDigest annexD 0 annexE = .outside
    ∧ signDigest annexD curveN annexE = .range ∧ signDigest curveN 1 annexE = .range
    ∧ signDigest curveN 0 annexE = .range := by
  refine ⟨rfl, ?_, ?_, ?_⟩ <;> rw [Laws.signDigest_eq] <;> decide +kernel

/-- For the tuple's r, s and key the sum s·G + t·Q has one x-coordinate, whatever e is (R147, step 5). -/
theorem verifyDigest_annex (e : Nat) : verifyDigest annexR annexS e annexX annexY
    = (modAdd curveN (e % curveN) (modSub curveN annexR annexE) == annexR) := by
  have h := Laws.verifyDigest_eq annexR annexS e annexX annexY
  rw [h]
  have hx : ∀ k : Nat → Bool,
      (Laws.scalarThen annexS generator fun a =>
        Laws.scalarThen (modAdd curveN annexR annexS) ⟨annexX % curveP, annexY % curveP, 1⟩ fun b =>
        Laws.addThen a b fun sum => if sum.z = 0 then false else Laws.affineThen sum fun x1 _ => k (x1 % curveN))
      = k (modSub curveN annexR annexE) := by
    intro k
    have hv : (Laws.scalarThen annexS generator fun a =>
        Laws.scalarThen (modAdd curveN annexR annexS) ⟨annexX % curveP, annexY % curveP, 1⟩ fun b =>
        Laws.addThen a b fun sum => if sum.z = 0 then none else Laws.affineThen sum fun x1 _ => some (x1 % curveN))
        = some (modSub curveN annexR annexE) := by decide +kernel
    simp only [Laws.scalarThen_eq, Laws.addThen_eq, Laws.affineThen_eq] at hv ⊢
    split at hv
    · cases hv
    next hz => rw [if_neg hz, Option.some.inj hv]
  rw [if_neg (by decide), Laws.withValue_eq, if_neg (by decide), if_neg (by decide)]
  exact hx fun x => modAdd curveN (e % curveN) x == annexR

/-- P7, case good. -/
theorem test_verify_good : verify annexId annexMsg (encodeSignature (annexR, annexS)) annexX annexY = true := by
  have hr : natOfBytes ((encodeSignature (annexR, annexS)).take 32) = annexR := by decide
  have hs : natOfBytes ((encodeSignature (annexR, annexS)).drop 32) = annexS := by decide
  rw [verify, if_neg (by decide), test_digests.1]
  simp only [hr, hs, verifyDigest_annex, test_digests.2]
  decide

/-- P7, case bad-id: the identity's last byte '8' becomes '9'. -/
theorem test_verify_bad_id :
    verify (asciiBytes "1234567812345679") annexMsg (encodeSignature (annexR, annexS)) annexX annexY = false := by
  have hr : natOfBytes ((encodeSignature (annexR, annexS)).take 32) = annexR := by decide
  have hs : natOfBytes ((encodeSignature (annexR, annexS)).drop 32) = annexS := by decide
  rw [verify, if_neg (by decide)]
  simp only [hr, hs, verifyDigest_annex]
  decide +kernel

/-- P7, case bad-msg: the message's last byte 't' becomes 'u'. -/
theorem test_verify_bad_msg :
    verify annexId (asciiBytes "message digesu") (encodeSignature (annexR, annexS)) annexX annexY = false := by
  have hr : natOfBytes ((encodeSignature (annexR, annexS)).take 32) = annexR := by decide
  have hs : natOfBytes ((encodeSignature (annexR, annexS)).drop 32) = annexS := by decide
  rw [verify, if_neg (by decide), test_digests.1]
  simp only [hr, hs, verifyDigest_annex]
  decide +kernel

/-- P7, case bad-s: the last byte of s is XORed with 0x01: 0xAA becomes 0xAB. -/
theorem test_verify_bad_s :
    verify annexId annexMsg (encodeSignature (annexR, annexS + 1)) annexX annexY = false := by
  have hr : natOfBytes ((encodeSignature (annexR, annexS + 1)).take 32) = annexR := by decide
  have hs : natOfBytes ((encodeSignature (annexR, annexS + 1)).drop 32) = annexS + 1 := by decide
  rw [verify, if_neg (by decide), test_digests.1]
  simp only [hr, hs, test_digests.2, Laws.verifyDigest_eq]
  decide +kernel

/-- R148, on the vectors: the signature of P6 verifies, and the cases bad-id, bad-msg and bad-s, which flip bit 0
of the last byte, do not. -/
theorem test_procedure_properties :
    verifyOwn annexId annexMsg annexD [annexK - 1] = some true
      ∧ verifyFlipped .identity 120 annexId annexMsg (encodeSignature (annexR, annexS)) annexX annexY = false
      ∧ verifyFlipped .message 104 annexId annexMsg (encodeSignature (annexR, annexS)) annexX annexY = false
      ∧ verifyFlipped .signature 504 annexId annexMsg (encodeSignature (annexR, annexS)) annexX annexY = false := by
  have hi : flipBit 120 annexId = asciiBytes "1234567812345679" := by decide
  have hm : flipBit 104 annexMsg = asciiBytes "message digesu" := by decide
  have hs : flipBit 504 (encodeSignature (annexR, annexS)) = encodeSignature (annexR, annexS + 1) := by decide
  refine ⟨?_, ?_, ?_, ?_⟩
  · rw [Laws.verifyOwn_of_sign test_sign, test_publicKey, test_verify_good]
  · rw [verifyFlipped, hi, test_verify_bad_id]
  · rw [verifyFlipped, hm, test_verify_bad_msg]
  · rw [verifyFlipped, hs, test_verify_bad_s]

/-- P7, cases r=0 and s=N. -/
theorem test_verify_bounds :
    verify annexId annexMsg (encodeSignature (0, annexS)) annexX annexY = false
      ∧ verify annexId annexMsg (encodeSignature (annexR, curveN)) annexX annexY = false := by
  constructor <;> rw [verify, if_neg (by decide), test_digests.1] <;> decide +kernel

end Procedures

/-! ## Witnesses: for each statement with hypotheses, data that meets them -/

/-- Reset asserted, with these host events to come. -/
def inReset (l : List HostEvent) : State := { State.reset with rst := true, pending := l }

theorem witness_ResetAbandonsAndRestores :
    (busyHost [.assertReset, .coreTurn]).pending = .assertReset :: [.coreTurn] ∧
    (busyHost [.assertReset, .coreTurn]).status.busy = true ∧
    ((inReset [.read 0]).rst = true ∧ (inReset [.read 0]).pending = .read 0 :: []
      ∧ (HostEvent.read 0) ≠ .releaseReset) ∧
    ((inReset []).rst = true ∧ (inReset []).pending = []) ∧
    (inReset [.releaseReset]).pending = .releaseReset :: [] := by decide

theorem witness_EncodeThenDecodeGivesInstruction :
    (Instr.const 15 11).wellFormed = true ∧ (Instr.padd 3 3 3).wellFormed = true := by decide

theorem witness_DecodeThenEncodeGivesWord : decode 0xFC000000#32 ≠ .instr .nop
    ∧ decode 0xD7FC0000#32 = .instr (.lkey 15 15) := by decide

/-- The NOP row, and the CONST row, as the map has them. -/
theorem witness_ReservedWordsAreIllegal :
    (∃ row, row ∈ opcodeMap ∧ row.opcode = Field.op 0x04000001#32 ∧ 0x04000001#32 &&& row.mask ≠ row.matchBits) ∧
    (∃ row, row ∈ opcodeMap ∧ row.opcode = Field.op 0x44300000#32
      ∧ 0x44300000#32 &&& row.mask = row.matchBits ∧ row.opcode = 0x11#6
      ∧ 11 < ((0x44300000#32).extractLsb' 18 4).toNat) ∧
    (∃ row, row ∈ opcodeMap ∧ row.opcode = Field.op 0x442C0000#32
      ∧ 0x442C0000#32 &&& row.mask = row.matchBits
      ∧ (row.opcode ≠ 0x11#6 ∨ ((0x442C0000#32).extractLsb' 18 4).toNat ≤ 11)) ∧
    12 ≤ (12 : ConstId).val ∧ 12 ≤ (15 : ConstId).val := by
  refine ⟨⟨_, .head _, ?_⟩, ⟨moveRows[1], ?_, ?_⟩, ⟨moveRows[1], ?_, ?_⟩, by decide, by decide⟩
  · decide
  · exact List.mem_append_left _ (List.mem_append_left _ (List.mem_append_left _ (List.mem_append_left _
      (List.mem_append_right _ (List.getElem_mem _)))))
  · decide
  · exact List.mem_append_left _ (List.mem_append_left _ (List.mem_append_left _ (List.mem_append_left _
      (List.mem_append_right _ (List.getElem_mem _)))))
  · decide

/-- At the first and the last index, in both turns; and an unlisted word. -/
theorem witness_StepRunsDecodedInstruction :
    ((running 255 0x08000000).pending = [] ∧ (running 255 0x08000000).rst = false
      ∧ (running 255 0x08000000).status.busy = true ∧ (running 255 0x08000000).pc.toNat < 256
      ∧ decode (running 255 0x08000000).fetch.1 = .instr .halt) ∧
    ((busyHost [.coreTurn]).pending = .coreTurn :: [] ∧ (busyHost [.coreTurn]).rst = false
      ∧ (busyHost [.coreTurn]).status.busy = true ∧ (busyHost [.coreTurn]).pc.toNat < 256
      ∧ decode (busyHost [.coreTurn]).fetch.1 = .instr .nop) ∧
    Mem.get? (running 0 7).imem (running 0 7).pc.toNat = some 7#32 ∧
    Mem.get? State.reset.imem State.reset.pc.toNat = none ∧
    (State.reset.pending = [] ∧ State.reset.status.busy = false) ∧
    (idleHost [.coreTurn]).pending = .coreTurn :: [] ∧ (idleHost [.coreTurn]).status.busy = false := by decide

theorem witness_FetchAndDecodeFaultsStop :
    ((running 256 0).pending = [] ∧ (running 256 0).rst = false ∧ (running 256 0).status.busy = true
      ∧ 256 ≤ (running 256 0).pc.toNat) ∧
    ((running 255 0).pc.toNat < 256 ∧ decode (running 255 0).fetch.1 = .illegal .reservedOpcode) ∧
    decode (running 255 0x04000001).fetch.1 = .illegal .reservedBit ∧
    decode (running 255 0x443C0000).fetch.1 = .illegal .reservedConstant := by decide

/-- A run's step from an invariant state. -/
theorem witness_StepKeepsInvariant :
    (running 255 0x04000000).inv = true ∧ ∃ t, step (running 255 0x04000000) = .next t :=
  ⟨by decide, _, rfl⟩

/-- Reset with B1 not below P or N, for the faults. -/
def tooBig : State := withB [(1, curveP)]

theorem witness_FaultsArePrecise :
    ∃ t, exec (.madd 0 1 1 .p) tooBig = .next t ∧ tooBig.status.fault = false ∧ t.status.fault = true
      ∧ tooBig.status.done = false :=
  ⟨tooBig.raise .range (encode (.madd 0 1 1 .p)), by rfl, by decide, by rfl, by decide⟩

/-- One fault of each cause an instruction raises. -/
theorem witness_OnlyListedInstructionsFault : 12 ≤ (12 : ConstId).val ∧
    (∃ t, exec (.pchk 0) (withB [(0, curveP)]) = .next t ∧ t.status.fault = true ∧ t.status.cause = .range) ∧
    (∃ t, exec (.ldq 0 0xFF1 0) State.reset = .next t ∧ t.status.fault = true ∧ t.status.cause = .daddr) ∧
    (∃ t, exec (.const 0 12) State.reset = .next t ∧ t.status.fault = true ∧ t.status.cause = .illegal) :=
  ⟨by decide, ⟨_, rfl, rfl, rfl⟩, ⟨_, rfl, rfl, rfl⟩, ⟨_, rfl, rfl, rfl⟩⟩

theorem witness_FlagsWrittenOnlyByTheirInstructions :
    (∃ t, exec .hinit State.reset = .next t) ∧ Instr.writesZ .hinit = false ∧ Instr.writesT .hinit = false
      ∧ ∃ t, exec (.madd 0 1 1 .p) tooBig = .next t ∧ tooBig.status.fault = false ∧ t.status.fault = true :=
  ⟨⟨_, rfl⟩, rfl, rfl, _, rfl, rfl, rfl⟩

theorem witness_EachStateHasItsWriters :
    (∃ t, exec (.mred 0 1 .p) State.reset = .next t) ∧ Instr.writesI (.mred 0 1 .p) = false
      ∧ Instr.writesH (.mred 0 1 .p) = false ∧ Instr.writesRk (.mred 0 1 .p) = false
      ∧ Instr.writesDmem (.mred 0 1 .p) = false :=
  ⟨⟨_, rfl⟩, rfl, rfl, rfl, rfl⟩

/-- A completing instruction while Running, and one that faults. -/
theorem witness_OnlyHaltActsOnRunState :
    (∃ t, exec .hinit (running 0 0) = .next t ∧ Instr.hinit ≠ .halt ∧ (running 0 0).status.busy = true
      ∧ t.status.busy = true) ∧
    (∃ t, exec (.const 0 12) (running 0 0) = .next t ∧ t.status ≠ (running 0 0).status) :=
  ⟨⟨_, rfl, by decide, rfl, rfl⟩, _, rfl, by decide⟩

theorem witness_StartBeginsRun :
    (busyHost [.write 7 0xFF01]).pending = .write 7 0xFF01 :: [] ∧ (busyHost [.write 7 0xFF01]).rst = false
      ∧ (busyHost [.write 7 0xFF01]).status.busy = true
      ∧ (idleHost [.write 7 0xFF01]).rst = false ∧ (idleHost [.write 7 0xFF01]).status.busy = false
      ∧ (idleHost [.write 7 0xFF01]).pending = .write 7 0xFF01 :: [] ∧ (7 : Offset).toNat / 4 = 1
      ∧ (0xFF01#32).getLsbD 0 = true
      ∧ (idleHost [.write 4 0xFF02]).pending = .write 4 0xFF02 :: [] ∧ (4 : Offset).toNat / 4 = 1
      ∧ (0xFF02#32).getLsbD 0 = false := by decide

/-- Both ends of each refused range. -/
theorem witness_RunningBlockRefusesState :
    ([0x14#13, 0x17#13, 0x20#13, 0x2F#13, 0x100#13, 0x31F#13, 0x380#13, 0x7FF#13, 0x1000#13, 0x1FFF#13].all (fun o => decide ((0x14 ≤ o.toNat ∧ o.toNat < 0x18) ∨ (0x20 ≤ o.toNat ∧ o.toNat < 0x30)
        ∨ (0x100 ≤ o.toNat ∧ o.toNat < 0x320) ∨ (0x380 ≤ o.toNat ∧ o.toNat < 0x800) ∨ 0x1000 ≤ o.toNat)) = true) ∧
    (∀ e : HostEvent, (busyHost [e]).rst = false ∧ (busyHost [e]).status.busy = true
      ∧ (busyHost [e]).pending = e :: []) :=
  ⟨by decide, fun _ => ⟨rfl, rfl, rfl⟩⟩

/-- Both ends of each range, and a CTRL write, a STATUS write and a read, while Running. -/
theorem witness_RunningBlockAnswersControl :
    ([0x0#13, 0x3#13, 0xC#13, 0x13#13, 0x18#13, 0x1F#13, 0x30#13, 0xFF#13, 0x320#13, 0x37F#13, 0x800#13,
        0xFFF#13].all (fun o => decide (o.toNat < 4 ∨ (0xC ≤ o.toNat ∧ o.toNat < 0x14) ∨ (0x18 ≤ o.toNat ∧ o.toNat < 0x20)
        ∨ (0x30 ≤ o.toNat ∧ o.toNat < 0x100) ∨ (0x320 ≤ o.toNat ∧ o.toNat < 0x380)
        ∨ (0x800 ≤ o.toNat ∧ o.toNat < 0x1000))) = true) ∧
    ((4 : Offset).toNat / 4 = 1 ∧ (0xB : Offset).toNat / 4 = 2 ∧ (0x13 : Offset).toNat < 0x14) ∧
    (∀ e : HostEvent, (busyHost [e]).rst = false ∧ (busyHost [e]).status.busy = true
      ∧ (busyHost [e]).pending = e :: []) :=
  ⟨by decide, by decide, fun _ => ⟨rfl, rfl, rfl⟩⟩

theorem witness_HostCannotChangeRun :
    (∃ t, step (busyHost [.write 4 3]) = .next t) ∧ (∃ t, step (busyHost [.read 0x1FFF]) = .next t) ∧
    (busyHost [.write 4 3]).rst = false ∧ (busyHost [.write 4 3]).status.busy = true :=
  ⟨⟨_, rfl⟩, ⟨_, rfl⟩, rfl, rfl⟩

/-- The first and the last word of each part of the map, and memory there. -/
theorem witness_IdleReadsFollowWindowMap :
    (∀ o : Offset, (idleHost [.read o]).rst = false ∧ (idleHost [.read o]).status.busy = false
      ∧ (idleHost [.read o]).pending = .read o :: []) ∧
    ((0x17 : Offset).toNat / 4 = 0x14 / 4 ∧ (0x2F : Offset).toNat / 4 = (0x20 + 4 * (3 : IReg).val) / 4
      ∧ (0x2FF : Offset).toNat / 4 = (0x100 + 32 * (15 : BReg).val + 4 * (7 : Fin 8).val) / 4
      ∧ (0x31F : Offset).toNat / 4 = (0x300 + 4 * (7 : Fin 8).val) / 4
      ∧ (0x3FF : Offset).toNat / 4 = (0x380 + 4 * (31 : Fin 32).val) / 4
      ∧ (0x7FF : Offset).toNat / 4 = (0x400 + 4 * (255 : Fin 256).val) / 4
      ∧ (0x1FFF : Offset).toNat / 4 = (0x1000 + 4 * (1023 : Fin 1024).val) / 4) ∧
    Mem.get? (running 255 7).imem (255 : Fin 256).val = some 7#32 ∧
    Mem.get? (idleHost []).imem (255 : Fin 256).val = none ∧
    (∀ j : Fin 4, Mem.get? (State.reset.memWrite 4092 4 0).dmem (4 * (1023 : Fin 1024).val + j.val) = some 0#8) ∧
    (Mem.get? (State.reset.memWrite 4092 2 0).dmem (4 * (1023 : Fin 1024).val + 1) = some 0#8
      ∧ Mem.get? (State.reset.memWrite 4092 2 0).dmem (4 * (1023 : Fin 1024).val + 2) = none
      ∧ Mem.get? (State.reset.memWrite 4092 2 0).dmem (4 * (1023 : Fin 1024).val + 3) = none) :=
  ⟨fun _ => ⟨rfl, rfl, rfl⟩, by decide, by decide, by decide, by decide, by decide⟩

/-- Both ends of each range, two offsets of one word, and for each range another word of it. -/
theorem witness_IdleWriteThenReadGivesWord :
    (∀ o o' : Offset, (idleHost [.write o 5, .read o']).rst = false
      ∧ (idleHost [.write o 5, .read o']).status.busy = false
      ∧ (idleHost [.write o 5, .read o']).pending = .write o 5 :: .read o' :: []) ∧
    (0x1FFF : Offset).toNat / 4 = (0x1FFC : Offset).toNat / 4 ∧
    ([0x100#13, 0x31F#13, 0x380#13, 0x7FF#13, 0x1000#13, 0x1FFF#13].all (fun o => decide ((0x100 ≤ o.toNat ∧ o.toNat < 0x320) ∨ (0x380 ≤ o.toNat ∧ o.toNat < 0x800) ∨ 0x1000 ≤ o.toNat)) = true) ∧
    ([0x20#13, 0x2F#13].all (fun o => decide (0x20 ≤ o.toNat ∧ o.toNat < 0x30)) = true) ∧ (0x17 : Offset).toNat / 4 = 5 ∧
    ((0x100 ≤ (0x2FF : Offset).toNat ∧ (0x2FF : Offset).toNat < 0x300
        ∧ (0x100 + 32 * (15 : BReg).val + 4 * (6 : Fin 8).val) / 4 ≠ (0x2FF : Offset).toNat / 4)
      ∧ (0x300 ≤ (0x300 : Offset).toNat ∧ (0x31F : Offset).toNat < 0x320
        ∧ (0x300 + 4 * (6 : Fin 8).val) / 4 ≠ (0x31F : Offset).toNat / 4)
      ∧ (0x380 ≤ (0x3FF : Offset).toNat ∧ (0x3FF : Offset).toNat < 0x400
        ∧ (0x380 + 4 * (30 : Fin 32).val) / 4 ≠ (0x3FF : Offset).toNat / 4)
      ∧ (0x400 ≤ (0x7FF : Offset).toNat ∧ (0x7FF : Offset).toNat < 0x800
        ∧ (0x400 + 4 * 254) / 4 ≠ (0x7FF : Offset).toNat / 4)
      ∧ (0x1000 ≤ (0x1FFF : Offset).toNat ∧ (0x1000 + 4091) / 4 ≠ (0x1FFF : Offset).toNat / 4)
      ∧ (0x20 + 4 * (2 : IReg).val) / 4 ≠ (0x2F : Offset).toNat / 4) :=
  ⟨fun _ _ => ⟨rfl, rfl, rfl⟩, by decide, by decide, by decide, by decide, by decide⟩

theorem witness_ReadOnlyAndReservedIgnoreWrites :
    (∀ e : HostEvent, (idleHost [e]).rst = false ∧ (idleHost [e]).status.busy = false
      ∧ (idleHost [e]).pending = e :: []) ∧
    ([0x0#13, 0x3#13, 0xC#13, 0x13#13].all (fun o => decide (o.toNat < 4 ∨ (0xC ≤ o.toNat ∧ o.toNat < 0x14))) = true) ∧
    ([0x18#13, 0x1F#13, 0x30#13, 0xFF#13, 0x320#13, 0x37F#13, 0x800#13, 0xFFF#13].all (fun o => decide ((0x18 ≤ o.toNat ∧ o.toNat < 0x20) ∨ (0x30 ≤ o.toNat ∧ o.toNat < 0x100)
        ∨ (0x320 ≤ o.toNat ∧ o.toNat < 0x380) ∨ (0x800 ≤ o.toNat ∧ o.toNat < 0x1000))) = true) ∧
    (0x8 : Offset).toNat / 4 = 2 ∧ (0xB : Offset).toNat / 4 = 2 :=
  ⟨fun _ => ⟨rfl, rfl, rfl⟩, by decide, by decide, by decide⟩

/-- Idle after a stop Done with IE, as V-W12 leaves it. -/
def doneHost (l : List HostEvent) : State :=
  { State.reset with
    pending := l, ctrl := { ie := true, entry := 0 }, status := { State.reset.status with done := true } }

/-- The stops HALT, ILLEGAL and FETCH, and NOP, which does not stop; V-W13's write of STATUS; a write of CTRL
while Idle and while Running; both ends of each refused range. -/
theorem witness_InterruptFollowsStops :
    (∀ w ∈ [0x08000000#32, 0#32, 0x04000000#32], (running 5 w).pending = [] ∧ (running 5 w).rst = false
      ∧ (running 5 w).status.busy = true) ∧
    (afterStep (running 5 0x08000000) (fun t => !t.status.busy) = true
      ∧ afterStep (running 5 0) (fun t => !t.status.busy) = true
      ∧ afterStep (running 256 0) (fun t => !t.status.busy) = true
      ∧ afterStep (running 5 0x04000000) (fun t => t.status.busy) = true) ∧
    (∃ t, exec (.madd 0 1 1 .p) tooBig = .next t ∧ tooBig.status.fault = false ∧ t.status.fault = true) ∧
    ((doneHost [.write 8 2]).rst = false ∧ (doneHost [.write 8 2]).pending = .write 8 2 :: []
      ∧ (8 : Offset).toNat / 4 = 2 ∧ (doneHost [.write 8 2]).status.fault = false ∧ (2#32).getLsbD 1 = true
      ∧ (doneHost [.write 8 2]).irq = true ∧ State.reset.status.done = false ∧ (4#32).getLsbD 2 = true) ∧
    ((4 : Offset).toNat / 4 = 1 ∧ (doneHost [.write 4 1]).status.busy = false ∧ (1#32).getLsbD 0 = true
      ∧ (1#32).getLsbD 1 = false) ∧
    (∀ e : HostEvent, (busyHost [e]).rst = false ∧ (busyHost [e]).status.busy = true
      ∧ (busyHost [e]).pending = e :: []) :=
  ⟨fun _ _ => ⟨rfl, rfl, rfl⟩, by decide, ⟨_, rfl, rfl, rfl⟩, by decide, by decide, fun _ => ⟨rfl, rfl, rfl⟩⟩

theorem witness_ConditionalBranchesFollowFlags :
    (State.reset.setZ true).zFlag = true ∧ State.reset.zFlag = false ∧ (State.reset.setT true).tFlag = true
      ∧ State.reset.tFlag = false := by decide

theorem witness_DbraCountsDown : State.reset.getI 3 = 0 ∧ (State.reset.setI 3 1).getI 3 ≠ 0 := by decide

theorem witness_ConstWritesTable : (11 : ConstId).val ≤ 11 ∧ 12 ≤ (12 : ConstId).val := by decide

/-- The last address in bounds of each width, with the byte listed and not. -/
theorem witness_LoadsReadBytes :
    4064 = (State.reset.getI 0).toNat + (0xFE0#12).toNat ∧ 4064 + 32 ≤ 4096 ∧
    4080 = (State.reset.getI 0).toNat + (0xFF0#12).toNat ∧ 4080 + 16 ≤ 4096 ∧
    Mem.get? (holding 4064 1).dmem (4064 + 31) = some 1#8 ∧ Mem.get? State.reset.dmem (4064 + 31) = none := by
  decide

theorem witness_StoresWriteBytes :
    State.reset.ea 0xFE0 0 + 32 = 4096 ∧ State.reset.ea 0xFF0 0 + 16 = 4096 := by decide

/-- The last address in bounds of each width. -/
theorem witness_LoadAfterStoreGivesValue :
    State.reset.ea 0xFE0 3 + 32 ≤ 4096 ∧ State.reset.ea 0xFF0 3 + 16 ≤ 4096 := by decide

/-- The first address out of bounds of each width. -/
theorem witness_OutOfBoundsRaisesDaddr :
    4096 < (State.reset.getI 0).toNat + (0xFE1#12).toNat + 32 ∧
    4096 < (State.reset.getI 0).toNat + (0xFF1#12).toNat + 16 := by decide

/-- B1 and B2 at the largest values below N, and so below P. -/
def inRangeMax : State := withB [(1, curveN - 1), (2, curveN - 1)]

theorem witness_AddAndSubAreModular (m : Modulus) :
    inRangeMax.getBNat 1 < modulusValue m ∧ inRangeMax.getBNat 2 < modulusValue m := by
  cases m <;> decide

theorem witness_MmulIsMontgomeryProduct :
    inRangeMax.getBNat 1 < modulusValue .n ∧ inRangeMax.getBNat 2 < modulusValue .n
      ∧ radixInverse .n * 2 ^ 256 % modulusValue .n = 1 ∧ radixInverse .p * 2 ^ 256 % modulusValue .p = 1 := by
  decide

/-- Zero, and N − 1, which is its own inverse. -/
theorem witness_MinvIsMontgomeryInverse :
    State.reset.getBNat 1 = 0 ∧ State.reset.getBNat 1 < modulusValue .p
      ∧ inRangeMax.getBNat 1 < modulusValue .n
      ∧ inRangeMax.getBNat 1 * (curveN - 1) % modulusValue .n = 1 := by decide

theorem witness_TomAndFrommConvert :
    (withB [(1, 5), (2, r2ModP), (3, 1)]).getBNat 1 < modulusValue .p
      ∧ (withB [(1, 5), (2, r2ModP), (3, 1)]).getBNat 2 = 2 ^ 256 * 2 ^ 256 % modulusValue .p
      ∧ (withB [(1, 5), (2, r2ModP), (3, 1)]).getBNat 3 = 1
      ∧ radixInverse .p * 2 ^ 256 % modulusValue .p = 1 := by decide

/-- The least value out of range. -/
theorem witness_OutOfRangeRaisesRange :
    modulusValue .p ≤ (withB [(1, curveP)]).getBNat 1 ∧ modulusValue .n ≤ (withB [(2, curveN)]).getBNat 2 := by
  decide

/-- The residue whose Montgomery form is the register value `k·RP`. -/
theorem cast_montgomery {M : Nat} (k v : Nat) (h : v % M = 2 ^ 256 * k % M) :
    ((v : Nat) : ZMod M) = 2 ^ 256 * (k : ZMod M) := by
  have e := (ZMod.natCast_eq_natCast_iff v (2 ^ 256 * k) M).2 h
  rw [Nat.cast_mul, Nat.cast_pow] at e
  exact e

theorem cast_ne_zero (k : Nat) (h : k % curveP ≠ 0) : ((k : Nat) : ZMod curveP) ≠ 0 := fun e =>
  h (Nat.mod_eq_zero_of_dvd ((ZMod.natCast_eq_zero_iff k curveP).1 e))

/-- Slot 0 with Montgomery forms of small numbers. -/
def smallPoint (x y z : Nat) : State := withB [(0, mont .p x), (1, mont .p y), (2, mont .p z)]

/-- (1, 1, 1): the finite case; its Z3 is 2. And Z = 0, and (1, 0, 1) with Z3 = 0. -/
theorem witness_PdblFollowsFormulas :
    ((smallPoint 1 1 1).getBNat (slotX 0) < curveP ∧ (smallPoint 1 1 1).getBNat (slotY 0) < curveP
      ∧ (smallPoint 1 1 1).getBNat (slotZ 0) < curveP) ∧
    (((smallPoint 1 1 1).getBNat (slotX 0) : ZMod curveP) = 2 ^ 256 * ((1 : Nat) : ZMod curveP)
      ∧ ((smallPoint 1 1 1).getBNat (slotY 0) : ZMod curveP) = 2 ^ 256 * ((1 : Nat) : ZMod curveP)
      ∧ ((smallPoint 1 1 1).getBNat (slotZ 0) : ZMod curveP) = 2 ^ 256 * ((1 : Nat) : ZMod curveP)
      ∧ ((1 : Nat) : ZMod curveP) ≠ 0
      ∧ (((1 : Nat) : ZMod curveP) + ((1 : Nat) : ZMod curveP)) ^ 2 - ((1 : Nat) : ZMod curveP) ^ 2
        - ((1 : Nat) : ZMod curveP) ^ 2 ≠ 0) ∧
    ((smallPoint 1 1 0).getBNat (slotZ 0) : ZMod curveP) = 2 ^ 256 * ((0 : Nat) : ZMod curveP) ∧
    (((0 : Nat) : ZMod curveP) + ((1 : Nat) : ZMod curveP)) ^ 2 - ((0 : Nat) : ZMod curveP) ^ 2
        - ((1 : Nat) : ZMod curveP) ^ 2 = 0 := by
  refine ⟨by decide, ⟨cast_montgomery _ _ (by decide), cast_montgomery _ _ (by decide),
    cast_montgomery _ _ (by decide), cast_ne_zero 1 (by decide), ?_⟩, cast_montgomery _ _ (by decide), ?_⟩
  · have h := cast_ne_zero 2 (by decide)
    intro e
    apply h
    push_cast at e ⊢
    linear_combination e
  · push_cast
    ring

/-- Slots 0 and 1 with Montgomery forms of small numbers. -/
def smallPoints (x y z x' y' z' : Nat) : State :=
  withB [(0, mont .p x), (1, mont .p y), (2, mont .p z), (4, mont .p x'), (5, mont .p y'), (6, mont .p z')]

/-- The registers of both slots are in range and hold these numbers. -/
def Holds (x y z x' y' z' : Nat) : Prop :=
  let s := smallPoints x y z x' y' z'
  (s.getBNat (slotX 0) < curveP ∧ s.getBNat (slotY 0) < curveP ∧ s.getBNat (slotZ 0) < curveP
    ∧ s.getBNat (slotX 1) < curveP ∧ s.getBNat (slotY 1) < curveP ∧ s.getBNat (slotZ 1) < curveP) ∧
  (s.getBNat (slotX 0) : ZMod curveP) = 2 ^ 256 * (x : ZMod curveP) ∧
  (s.getBNat (slotY 0) : ZMod curveP) = 2 ^ 256 * (y : ZMod curveP) ∧
  (s.getBNat (slotZ 0) : ZMod curveP) = 2 ^ 256 * (z : ZMod curveP) ∧
  (s.getBNat (slotX 1) : ZMod curveP) = 2 ^ 256 * (x' : ZMod curveP) ∧
  (s.getBNat (slotY 1) : ZMod curveP) = 2 ^ 256 * (y' : ZMod curveP) ∧
  (s.getBNat (slotZ 1) : ZMod curveP) = 2 ^ 256 * (z' : ZMod curveP)

/-- With Z1 = Z2 = 1: H is X2 − X1 and r is 2(Y2 − Y1). The four finite cases, and the three with a Z of
0. -/
theorem witness_PaddFollowsFormulas :
    Holds 1 1 1 1 1 1 ∧ Holds 1 1 1 1 2 1 ∧ Holds 1 1 1 2 1 1 ∧
    (((2 : Nat) : ZMod curveP) - (1 : Nat) ≠ 0 ∧ 2 * (((2 : Nat) : ZMod curveP) - (1 : Nat)) ≠ 0) ∧
    ((smallPoints 1 1 0 1 1 0).getBNat (slotZ 0) = 0 ∧ (smallPoints 1 1 0 1 1 0).getBNat (slotZ 1) = 0
      ∧ (smallPoints 1 1 0 1 1 1).getBNat (slotZ 1) ≠ 0 ∧ (smallPoints 1 1 1 1 1 0).getBNat (slotZ 0) ≠ 0) := by
  have h1 := cast_ne_zero 1 (by decide)
  have h2 := cast_ne_zero 2 (by decide)
  refine ⟨?_, ?_, ?_, ⟨fun e => h1 ?_, fun e => h2 ?_⟩, by decide⟩
  · exact ⟨by decide, cast_montgomery _ _ (by decide), cast_montgomery _ _ (by decide),
      cast_montgomery _ _ (by decide), cast_montgomery _ _ (by decide), cast_montgomery _ _ (by decide),
      cast_montgomery _ _ (by decide)⟩
  · exact ⟨by decide, cast_montgomery _ _ (by decide), cast_montgomery _ _ (by decide),
      cast_montgomery _ _ (by decide), cast_montgomery _ _ (by decide), cast_montgomery _ _ (by decide),
      cast_montgomery _ _ (by decide)⟩
  · exact ⟨by decide, cast_montgomery _ _ (by decide), cast_montgomery _ _ (by decide),
      cast_montgomery _ _ (by decide), cast_montgomery _ _ (by decide), cast_montgomery _ _ (by decide),
      cast_montgomery _ _ (by decide)⟩
  · push_cast at e ⊢; linear_combination e
  · push_cast at e ⊢; linear_combination e

/-- A point of the curve, and one that is not. -/
theorem witness_PchkTestsCurve :
    ((smallPoint curveGx curveGy 1).getBNat (slotX 0) < curveP
      ∧ (smallPoint curveGx curveGy 1).getBNat (slotY 0) < curveP
      ∧ (smallPoint curveGx curveGy 1).getBNat (slotZ 0) < curveP) ∧
    ((smallPoint curveGx curveGy 1).getBNat (slotX 0) : ZMod curveP) = 2 ^ 256 * (curveGx : ZMod curveP) ∧
    ((smallPoint curveGx curveGy 1).getBNat (slotY 0) : ZMod curveP) = 2 ^ 256 * (curveGy : ZMod curveP) ∧
    ((smallPoint curveGx curveGy 1).getBNat (slotZ 0) : ZMod curveP) = 2 ^ 256 * ((1 : Nat) : ZMod curveP) :=
  ⟨by decide, cast_montgomery _ _ (by decide), cast_montgomery _ _ (by decide), cast_montgomery _ _ (by decide)⟩

/-- Each coordinate at the least value out of range. -/
theorem witness_PointOutOfRangeRaisesRange :
    curveP ≤ (withB [(12, curveP)]).getBNat (slotX 3) ∧ curveP ≤ (withB [(13, curveP)]).getBNat (slotY 3)
      ∧ curveP ≤ (withB [(14, curveP)]).getBNat (slotZ 3) := by decide

/-- The generator is in range and on the curve. -/
theorem witness_DoublingKeepsCurve :
    (smallPoint curveGx curveGy 1).slotInRange 0 = true ∧
    ∃ c, exec (.pchk 0) (smallPoint curveGx curveGy 1) = .next c ∧ c.tFlag = true :=
  ⟨by decide, _, rfl, by decide⟩

/-- A later state whose B2 is the digest that HGET left there. -/
theorem witness_HashRegisterMoves :
    ∃ t, exec (.hget 2) State.reset = .next t ∧ (withB [(2, 0)]).getB 2 = t.getB 2 :=
  ⟨_, rfl, by decide⟩

/-- The expanded words and the working registers of one compression, as functions of the index. -/
theorem witness_HcompCompresses : ∃ (s : State) (W : Nat → Word) (V : Nat → HashRegs),
    (∀ j < 8, W j = wordOf (s.getB 0) j ∧ W (j + 8) = wordOf (s.getB 1) j) ∧
    (∀ i < 52, ∀ x, x = W i ^^^ W (i + 7) ^^^ (W (i + 13)).rotateLeft 15 →
      W (i + 16) = x ^^^ x.rotateLeft 15 ^^^ x.rotateLeft 23 ^^^ (W (i + 3)).rotateLeft 7
        ^^^ W (i + 10)) ∧
    V 0 = ⟨wordOf s.hash 0, wordOf s.hash 1, wordOf s.hash 2, wordOf s.hash 3,
      wordOf s.hash 4, wordOf s.hash 5, wordOf s.hash 6, wordOf s.hash 7⟩ ∧
    (∀ j < 64, ∀ (tj ss1 ss2 tt1 tt2 : Word),
      tj = (if j ≤ 15 then 0x79CC4519#32 else 0x7A879D8A#32) →
      ss1 = ((V j).a.rotateLeft 12 + (V j).e + tj.rotateLeft (j % 32)).rotateLeft 7 →
      ss2 = ss1 ^^^ (V j).a.rotateLeft 12 →
      tt1 = (if j ≤ 15 then (V j).a ^^^ (V j).b ^^^ (V j).c
          else ((V j).a &&& (V j).b) ||| ((V j).a &&& (V j).c) ||| ((V j).b &&& (V j).c))
        + (V j).d + ss2 + (W j ^^^ W (j + 4)) →
      tt2 = (if j ≤ 15 then (V j).e ^^^ (V j).f ^^^ (V j).g
          else ((V j).e &&& (V j).f) ||| (~~~(V j).e &&& (V j).g))
        + (V j).h + ss1 + W j →
      V (j + 1) = ⟨tt1, (V j).a, (V j).b.rotateLeft 9, (V j).c,
        tt2 ^^^ tt2.rotateLeft 9 ^^^ tt2.rotateLeft 17, (V j).e, (V j).f.rotateLeft 19, (V j).g⟩) := by
  refine ⟨State.reset, fun j => (expandedWords 0 0).getD j 0,
    hashRounds (expandedWords 0 0) (HashRegs.load 0), by decide +kernel, ?_, by decide +kernel, ?_⟩
  · intro i hi x hx
    subst hx
    revert i
    decide +kernel
  · intro j hj tj ss1 ss2 tt1 tt2 h1 h2 h3 h4 h5
    subst h1 h2 h3 h4 h5
    revert j
    decide +kernel

theorem witness_KexpFollowsRecurrence : ∃ (s : State) (k CK : Nat → Word),
        (∀ i < 32, ∀ j < 4, byteOf (CK i) j = BitVec.ofNat 8 ((4 * i + j) * 7 % 256)) ∧
        k 0 = (s.getB 0).extractLsb' 96 32 ^^^ 0xA3B1BAC6#32 ∧
        k 1 = (s.getB 0).extractLsb' 64 32 ^^^ 0x56AA3350#32 ∧
        k 2 = (s.getB 0).extractLsb' 32 32 ^^^ 0x677D9197#32 ∧
        k 3 = (s.getB 0).extractLsb' 0 32 ^^^ 0xB27022DC#32 ∧
        (∀ i < 32, ∀ x, x = tau (k (i + 1) ^^^ k (i + 2) ^^^ k (i + 3) ^^^ CK i) →
          k (i + 4) = k i ^^^ (x ^^^ x.rotateLeft 13 ^^^ x.rotateLeft 23)) := by
  refine ⟨State.reset, fun n => (keyQuad 0 n).x0, cipherCK, by decide +kernel, by decide, by decide, by decide,
    by decide, ?_⟩
  intro i hi x hx
  subst hx
  revert i
  decide +kernel

/-- The quads of the cipher recurrence under a list of round keys. -/
def cipherQuad (keys : List Word) (q : Quad) : Nat → Quad
  | 0 => q
  | n + 1 => (cipherQuad keys q n).next roundT (keys.getD n 0)

/-- The state of V-K2 and V-K3. -/
def keyed : State := (withB [(1, sampleKey)]).setRks (expandKey (BitVec.ofNat 128 sampleKey))

/-- The words of both recurrences from V-K2's state. -/
theorem witness_CipherFollowsRecurrence : ∃ X Y : Nat → Word,
    (X 0 = (keyed.getB 1).extractLsb' 96 32 ∧ X 1 = (keyed.getB 1).extractLsb' 64 32 ∧
      X 2 = (keyed.getB 1).extractLsb' 32 32 ∧ X 3 = (keyed.getB 1).extractLsb' 0 32) ∧
    (∀ i : Fin 32, ∀ x, x = tau (X (i.val + 1) ^^^ X (i.val + 2) ^^^ X (i.val + 3) ^^^ keyed.getRk i) →
      X (i.val + 4) = X i.val
        ^^^ (x ^^^ x.rotateLeft 2 ^^^ x.rotateLeft 10 ^^^ x.rotateLeft 18 ^^^ x.rotateLeft 24)) ∧
    (Y 0 = (keyed.getB 1).extractLsb' 96 32 ∧ Y 1 = (keyed.getB 1).extractLsb' 64 32 ∧
      Y 2 = (keyed.getB 1).extractLsb' 32 32 ∧ Y 3 = (keyed.getB 1).extractLsb' 0 32) ∧
    (∀ i : Fin 32, ∀ x,
      x = tau (Y (i.val + 1) ^^^ Y (i.val + 2) ^^^ Y (i.val + 3) ^^^ keyed.getRk (Fin.rev i)) →
      Y (i.val + 4) = Y i.val
        ^^^ (x ^^^ x.rotateLeft 2 ^^^ x.rotateLeft 10 ^^^ x.rotateLeft 18 ^^^ x.rotateLeft 24)) := by
  refine ⟨fun n => (cipherQuad keyed.rk.toList (Quad.load (lowBlock (keyed.getB 1))) n).x0,
    fun n => (cipherQuad keyed.rk.toList.reverse (Quad.load (lowBlock (keyed.getB 1))) n).x0,
    by decide +kernel, ?_, by decide +kernel, ?_⟩
  all_goals
    intro i x hx
    subst hx
    revert i
    decide +kernel

theorem witness_TablesGiveRoundFunctions : ∃ T T' : Nat → Byte → Word,
    (∀ i < 4, ∀ b, T i b = diffuse ((sbox b).setWidth 32 <<< (24 - 8 * i))) ∧
    (∀ i < 4, ∀ b, T' i b = diffuseKey ((sbox b).setWidth 32 <<< (24 - 8 * i))) :=
  ⟨fun i b => diffuse ((sbox b).setWidth 32 <<< (24 - 8 * i)),
    fun i b => diffuseKey ((sbox b).setWidth 32 <<< (24 - 8 * i)), fun _ _ _ => rfl, fun _ _ _ => rfl⟩

/-- The longest identity, and each way to be rejected: (r, s) of 64 bytes out of range; r + s = N; the off-curve point (0, 0); and, for
the public point G, s = 1 and r = N − 2, so that t = N − 1 and s·G + t·G = O. -/
theorem witness_IdentityInputAndVerifyBounds :
    ¬ 0xFFFF < 8 * (List.replicate 8191 (0 : Byte)).length ∧ 0xFFFF < 8 * (List.replicate 8192 (0 : Byte)).length ∧
    (∃ bs, identityInput [] 1 2 = some bs) ∧ ([] : List Byte).length ≠ 64 ∧
    (curveN ≤ curveN ∧ curveN < 2 ^ 256 ∧ (encodeSignature (1, curveN)).length = 64) ∧
    (1 + (curveN - 1)) % curveN = 0 ∧
    (((0 : Nat) : ZMod curveP) ^ 2 ≠ ((0 : Nat) : ZMod curveP) ^ 3 + (curveP - 3) * ((0 : Nat) : ZMod curveP) + curveB) ∧
    (pointAdd (scalarMul 1 generator)
      (scalarMul ((curveN - 2 + 1) % curveN) ⟨curveGx % curveP, curveGy % curveP, 1⟩)).toJacobian.z = 0 := by
  refine ⟨by rw [List.length_replicate]; decide, by rw [List.length_replicate]; decide, ⟨_, rfl⟩, by decide,
    by decide, by decide, ?_, ?_⟩
  · rw [Nat.cast_zero, zero_pow two_ne_zero, zero_pow three_ne_zero, mul_zero, zero_add, zero_add]
    exact (cast_ne_zero curveB (by decide)).symm
  · have h : (Laws.scalarThen 1 generator fun a =>
        Laws.scalarThen ((curveN - 2 + 1) % curveN) ⟨curveGx % curveP, curveGy % curveP, 1⟩ fun b =>
        Laws.addThen a b Jacobian.z) = 0 := by decide +kernel
    simpa only [Laws.scalarThen_eq, Laws.addThen_eq] using h

theorem witness_VerifyAcceptsOwnSignatures : 1 ≤ annexD ∧ annexD ≤ curveN - 2 ∧
    sign annexId annexMsg annexD [annexK - 1] = .signature (encodeSignature (annexR, annexS)) :=
  ⟨by decide, by decide, test_sign⟩

end Sys2Proof.Tests
end

section
/-! SUPPORT. The proofs of the statements about the state (spec/10_state.md): first what a host access is as one
step, what each operation does to the invariant, where each word stands in the window and what it reads after a
write; then the statements, by tier. -/

namespace Sys2Proof.Machine

/-! ## One event of the host -/

section
variable {s : State} {o : Offset} {d : Word} {w : WindowWord} {rest : List HostEvent}

/-- A host write outside reset is one step (R51). -/
theorem step_write (hr : s.rst = false) (hp : s.pending = .write o d :: rest) :
    step s = .next (({ s with pending := rest } : State).hostWrite o d) := by
  simp [step, hp, hostEvent, hr]

/-- A host read outside reset is one step, and its word is the answer (R51). -/
theorem step_read (hr : s.rst = false) (hp : s.pending = .read o :: rest) :
    step s = .next { (({ s with pending := rest } : State).hostRead o).2 with
      answer := some (({ s with pending := rest } : State).hostRead o).1 } := by
  simp [step, hp, hostEvent, hr]

/-- CTRL is written in every state, since it is open while Running (R53). -/
theorem step_write_ctrl (hr : s.rst = false) (hp : s.pending = .write o d :: rest) (ho : o.toNat / 4 = 1) :
    step s = .next (({ s with pending := rest } : State).writeCtrl d) := by
  have hw : windowWord o = .ctrl := by simp [windowWord, windowMap, ho]
  rw [step_write hr hp]
  simp [State.hostWrite, State.reachable, hw, WindowWord.open, State.windowWrite]

/-- While Idle no write is refused (R52). -/
theorem step_write_idle (hr : s.rst = false) (hb : s.status.busy = false)
    (hp : s.pending = .write o d :: rest) (hw : windowWord o = w) :
    step s = .next (({ s with pending := rest } : State).windowWrite d w) := by
  rw [step_write hr hp]
  simp [State.hostWrite, State.reachable, hb, hw]

/-- While Idle no read is refused (R52). -/
theorem step_read_idle (hr : s.rst = false) (hb : s.status.busy = false)
    (hp : s.pending = .read o :: rest) (hw : windowWord o = w) :
    step s = .next { (({ s with pending := rest } : State).windowRead w).2 with
      answer := some (({ s with pending := rest } : State).windowRead w).1 } := by
  rw [step_read hr hp]
  simp [State.hostRead, State.reachable, hb, hw]

end

/-! ## The invariant under the operations of the state -/

section
variable {s t : State}

/-- Taking a fault while Running keeps the invariant: DONE is 0 there (R31), and the cause is recorded with
FAULT (R151). -/
theorem State.inv_raise (c : Cause) (w : Word) (hc : c ≠ .none) (hb : s.status.busy = true) (hs : s.inv = true) :
    (s.raise c w).inv = true := by
  obtain ⟨hmem, hpc, -, hst⟩ := s.inv_iff.1 hs
  obtain ⟨-, hbusy, -⟩ := s.status.consistent_iff.1 hst
  obtain ⟨hdone, -, -⟩ := hbusy hb
  refine (State.inv_iff _).2 ⟨hmem, hpc, hpc, (Status.consistent_iff _).2 ?_⟩
  simp [hdone, hc]

/-- The stop Done while Running keeps the invariant: FAULT and CAUSE are 0 there (R31). -/
theorem State.inv_stopDone (w : Word) (hb : s.status.busy = true) (hs : s.inv = true) :
    (s.stopDone w).inv = true := by
  obtain ⟨hmem, hpc, -, hst⟩ := s.inv_iff.1 hs
  obtain ⟨-, hbusy, -⟩ := s.status.consistent_iff.1 hst
  obtain ⟨-, hfault, hcause⟩ := hbusy hb
  refine (State.inv_iff _).2 ⟨hmem, hpc, hpc, (Status.consistent_iff _).2 ?_⟩
  simp [hfault, hcause]

/-- START keeps the invariant: ENTRY is an IMEM index, and the record of the last run is cleared (R30). -/
theorem State.inv_start (ie : Bool) (entry : BitVec 8) (hs : s.inv = true) : (s.start ie entry).inv = true := by
  obtain ⟨hmem, -, hfpc, -⟩ := s.inv_iff.1 hs
  refine (State.inv_iff _).2 ⟨hmem, ?_, hfpc, (Status.consistent_iff _).2 (by simp)⟩
  rw [State.start_pc, BitVec.toNat_setWidth]
  have hentry := entry.isLt
  omega

/-- A write of CTRL keeps the invariant. -/
theorem State.inv_writeCtrl (d : Word) (hs : s.inv = true) : (s.writeCtrl d).inv = true := by
  rcases s.writeCtrl_cases d with ⟨-, -, h⟩ | ⟨-, -, h⟩ | ⟨-, -, h⟩ | ⟨-, -, h⟩ <;> rw [h]
  · exact hs
  · exact hs
  · exact State.inv_start _ _ hs
  · exact hs

/-- Clearing bits of STATUS keeps the invariant: DONE and FAULT only go to 0, and BUSY and CAUSE stay (R31). -/
theorem State.inv_clearStatus (d : Word) (hs : s.inv = true) : (s.clearStatus d).inv = true := by
  obtain ⟨hmem, hpc, hfpc, hst⟩ := s.inv_iff.1 hs
  obtain ⟨hdone, hbusy, hfault⟩ := s.status.consistent_iff.1 hst
  refine (State.inv_iff _).2 ⟨hmem, hpc, hfpc, (Status.consistent_iff _).2 ?_⟩
  simp only [State.clearStatus, Bool.and_eq_true, Bool.and_eq_false_iff]
  refine ⟨fun ⟨hd, _⟩ => ?_, fun hb => ?_, fun ⟨hf, _⟩ => hfault hf⟩
  · obtain ⟨hf, hc⟩ := hdone hd
    exact ⟨.inl hf, hc⟩
  · obtain ⟨hd, hf, hc⟩ := hbusy hb
    exact ⟨.inl hd, .inl hf, hc⟩

/-- A write of any window word keeps the invariant: the memories have no word outside their spaces (R36). -/
theorem State.inv_windowWrite (d : Word) (w : WindowWord) (hs : s.inv = true) :
    (s.windowWrite d w).inv = true := by
  cases w with
  | id | fpc | finsn | reserved | flags | index | big | hash | roundKey => exact hs
  | ctrl => exact State.inv_writeCtrl d hs
  | status => exact State.inv_clearStatus d hs
  | imem a =>
    obtain ⟨⟨himem, hdmem⟩, hrest⟩ := s.inv_iff.1 hs
    exact (State.inv_iff _).2 ⟨⟨Mem.wf_set d a.isLt himem, hdmem⟩, hrest⟩
  | dmem a =>
    obtain ⟨⟨himem, hdmem⟩, hrest⟩ := s.inv_iff.1 hs
    refine (State.inv_iff _).2 ⟨⟨himem, Mem.wf_setAll _ ?_ hdmem⟩, hrest⟩
    rw [bytesBE_length]
    omega

/-- A host write keeps the invariant. -/
theorem State.inv_hostWrite (o : Offset) (d : Word) (hs : s.inv = true) : (s.hostWrite o d).inv = true := by
  rcases s.hostWrite_cases o d with ⟨-, h⟩ | ⟨-, h⟩ <;> rw [h]
  · exact State.inv_windowWrite d _ hs
  · exact hs

/-- A host read keeps the invariant: it draws, or sets HERR. -/
theorem State.inv_hostRead (o : Offset) (hs : s.inv = true) : (s.hostRead o).2.inv = true := by
  rcases s.hostRead_cases o with ⟨-, h⟩ | ⟨-, h⟩ <;> rw [h]
  · obtain ⟨v, m, -, h⟩ := s.windowRead_eq (windowWord o)
    rw [h]
    exact hs
  · exact hs

/-! ## The invariant under a step of the core -/

/-- A completing instruction keeps the invariant: only a store inside DMEM touches memory, and the pc goes on
by one or to a target, which is an IMEM index (R24). -/
theorem Completes.inv {i : Instr} (h : Completes i s t) (hpc : s.pc.toNat < 256) (hs : s.inv = true) :
    t.inv = true := by
  obtain ⟨⟨himem, hdmem⟩, -, hfpc, hst⟩ := s.inv_iff.1 hs
  refine t.inv_iff.2 ⟨⟨h.imem ▸ himem, ?_⟩, ?_, h.fpc ▸ hfpc, h.status ▸ hst⟩
  · rcases h.dmem with hd | ⟨-, a, bs, ha, hd⟩ <;> rw [hd]
    · exact hdmem
    · exact Mem.wf_setAll bs ha hdmem
  · rcases h.pc with hp | ⟨tgt, hp⟩ <;> rw [hp]
    · bv_omega
    · have htgt := tgt.isLt
      rw [BitVec.toNat_setWidth]
      omega

/-- An instruction run at an IMEM index keeps the invariant. -/
theorem exec_inv {i : Instr} (h : exec i s = .next t) (hb : s.status.busy = true) (hpc : s.pc.toNat < 256)
    (hs : s.inv = true) : t.inv = true := by
  cases exec_outcome h with
  | completes hc => exact hc.inv hpc hs
  | halts _ ht => exact ht ▸ State.inv_stopDone _ hb hs
  | faults c ht hc =>
    have hne : c ≠ .none := by rcases hc with ⟨rfl, -⟩ | ⟨rfl, -⟩ | ⟨rfl, -⟩ <;> decide
    exact ht ▸ State.inv_raise c _ hne hb hs

/-- Running a fetched word keeps the invariant, whether or not it decodes. -/
theorem runWord_inv {w : Word} (h : runWord w s = .next t) (hb : s.status.busy = true) (hpc : s.pc.toNat < 256)
    (hs : s.inv = true) : t.inv = true := by
  unfold runWord at h
  cases hd : decode w with
  | instr i =>
    rw [hd] at h
    exact exec_inv h hb hpc hs
  | illegal why =>
    rw [hd] at h
    cases h
    exact State.inv_raise _ _ (by decide) hb hs

/-- A step of the core while Running keeps the invariant. -/
theorem coreStep_inv (h : coreStep s = .next t) (hb : s.status.busy = true) (hs : s.inv = true) :
    t.inv = true := by
  unfold coreStep at h
  split at h
  · cases h
    exact State.inv_raise _ _ (by decide) hb hs
  · next hpc =>
    have hlt : s.pc.toNat < 256 := Nat.lt_of_not_le hpc
    rcases s.fetch_cases with ⟨w, -, hf⟩ | ⟨-, hf⟩ <;> rw [hf] at h
    · exact runWord_inv h hb hlt hs
    · exact runWord_inv h hb hlt hs

/-- A turn of the core keeps the invariant. -/
theorem coreTurn_inv (h : coreTurn s = .next t) (hs : s.inv = true) : t.inv = true := by
  unfold coreTurn at h
  split at h
  · next hrun =>
    rw [Bool.and_eq_true] at hrun
    exact coreStep_inv h hrun.1 hs
  · cases h
    exact hs

/-! ## The invariant under any step -/

/-- An event keeps the invariant. -/
theorem hostEvent_inv {e : HostEvent} (h : hostEvent e s = .next t) (hs : s.inv = true) : t.inv = true := by
  cases e with
  | coreTurn => exact coreTurn_inv h hs
  | read o =>
    simp only [hostEvent] at h
    split at h <;> cases h
    · exact hs
    · exact State.inv_hostRead o hs
  | write o d =>
    simp only [hostEvent] at h
    split at h <;> cases h
    · exact hs
    · exact State.inv_hostWrite o d hs
  | assertReset =>
    cases h
    exact hs
  | releaseReset =>
    simp only [hostEvent] at h
    split at h <;> cases h
    · rfl
    · exact hs

end

/-! ## What stops the core keeps the program's state -/

/-- Taking a fault changes nothing a program works on (R151). -/
theorem State.keepsProgramState_raise (s : State) (c : Cause) (w : Word) : KeepsProgramState s (s.raise c w) :=
  ⟨fun _ _ => rfl, fun _ _ => rfl, ⟨rfl, rfl⟩, rfl, fun _ => rfl, fun _ => rfl, fun _ => rfl, rfl⟩

/-- The stop Done changes nothing a program works on (R73). -/
theorem State.keepsProgramState_stopDone (s : State) (w : Word) : KeepsProgramState s (s.stopDone w) :=
  ⟨fun _ _ => rfl, fun _ _ => rfl, ⟨rfl, rfl⟩, rfl, fun _ => rfl, fun _ => rfl, fun _ => rfl, rfl⟩

/-- An instruction that does not complete leaves all that a program works on. -/
theorem Outcome.completes_or_keeps {i : Instr} {s t : State} (h : Outcome i s t) :
    Completes i s t ∨ KeepsProgramState s t := by
  cases h with
  | completes hc => exact .inl hc
  | halts _ ht => exact .inr (ht ▸ s.keepsProgramState_stopDone _)
  | faults c ht _ => exact .inr (ht ▸ s.keepsProgramState_raise c _)

/-! ## The values after reset (R38) -/

/-- The release of reset gives every piece of state its value of R38, whatever was there before. -/
theorem State.hasResetValues_release (s : State) : HasResetValues s.release := by
  have hbig : ∀ r, s.release.getB r = 0 := fun r => by simp [State.getB, State.release, State.reset]
  have hidx : ∀ k, s.release.getI k = 0 := fun k => by simp [State.getI, State.release, State.reset]
  have hrk : ∀ i, s.release.getRk i = 0 := fun i => by simp [State.getRk, State.release, State.reset]
  have hctrl : ctrlRead State.reset.ctrl = 0 := by decide
  have hstatus : statusRead State.reset.status = 0 := by decide
  exact ⟨hbig, hidx, rfl, rfl, rfl, rfl, hrk, hctrl, hstatus, rfl, rfl, rfl, rfl, fun _ => rfl, fun _ => rfl⟩

/-! ## The bits of the control words (R29, R31, R34) -/

/-- CTRL as the host reads it, bit by bit: START and the reserved bits read 0 (R29). -/
theorem ctrlRead_bits (c : Ctrl) : (ctrlRead c).getLsbD 0 = false ∧ (ctrlRead c).getLsbD 1 = c.ie
    ∧ (ctrlRead c).extractLsb' 2 6 = 0 ∧ (ctrlRead c).extractLsb' 8 8 = c.entry
    ∧ (ctrlRead c).extractLsb' 16 16 = 0 := by
  unfold ctrlRead
  refine ⟨?_, ?_, ?_, ?_, ?_⟩
  · simp only [BitVec.getLsbD_append]; simp
  · simp only [BitVec.getLsbD_append]; simp
  all_goals simp (disch := omega) only [extract_append_low, extract_append_above, extract_whole, Nat.reduceSub,
    BitVec.ofNat_eq_ofNat]

/-- STATUS as the host reads it, bit by bit (R31). -/
theorem statusRead_bits (st : Status) :
    (statusRead st).getLsbD 0 = st.busy ∧ (statusRead st).getLsbD 1 = st.done
      ∧ (statusRead st).getLsbD 2 = st.fault ∧ (statusRead st).getLsbD 3 = st.herr
      ∧ (statusRead st).extractLsb' 4 4 = st.cause.code ∧ (statusRead st).extractLsb' 8 24 = 0 := by
  unfold statusRead
  refine ⟨?_, ?_, ?_, ?_, ?_, ?_⟩
  · simp only [BitVec.getLsbD_append]; simp
  · simp only [BitVec.getLsbD_append]; simp
  · simp only [BitVec.getLsbD_append]; simp
  · simp only [BitVec.getLsbD_append]; simp
  all_goals simp (disch := omega) only [extract_append_low, extract_append_above, extract_whole, Nat.reduceSub,
    BitVec.ofNat_eq_ofNat]

/-- FLAGS as the host reads it, bit by bit (R34). -/
theorem flagsRead_bits (s : State) : (flagsRead s).getLsbD 0 = s.zFlag ∧ (flagsRead s).getLsbD 1 = s.tFlag
    ∧ (flagsRead s).extractLsb' 2 30 = 0 := by
  unfold flagsRead
  refine ⟨?_, ?_, ?_⟩
  · simp only [BitVec.getLsbD_append]; simp
  · simp only [BitVec.getLsbD_append]; simp
  · simp (disch := omega) only [extract_append_above, extract_whole, Nat.reduceSub, BitVec.ofNat_eq_ofNat]

/-! ## A write of CTRL (R29, R30, R53) -/

section
variable {s : State} {d : Word}

theorem State.writeCtrl_idle (hb : s.status.busy = false) (hd : d.getLsbD 0 = false) :
    s.writeCtrl d = { s with ctrl := { ie := d.getLsbD 1, entry := ctrlEntry d } } := by
  simp only [State.writeCtrl, hb, hd, Bool.false_eq_true, ↓reduceIte]

theorem State.writeCtrl_idle_start (hb : s.status.busy = false) (hd : d.getLsbD 0 = true) :
    s.writeCtrl d = s.start (d.getLsbD 1) (ctrlEntry d) := by
  simp only [State.writeCtrl, hb, hd, Bool.false_eq_true, ↓reduceIte]

theorem State.writeCtrl_running_start (hb : s.status.busy = true) (hd : d.getLsbD 0 = true) :
    s.writeCtrl d = State.setHerr { s with ctrl := { s.ctrl with ie := d.getLsbD 1 } } := by
  simp only [State.writeCtrl, hb, hd, ↓reduceIte]

end

/-! ## The map by byte offset (R36) -/

section
variable {o : Offset}

theorem windowWord_index_of_offset (h : 0x20 ≤ o.toNat ∧ o.toNat < 0x30) :
    ∃ k : IReg, o.toNat / 4 = 8 + k.val ∧ windowWord o = .index k :=
  have hk : o.toNat / 4 = 8 + (o.toNat / 4 - 8) := by omega
  ⟨⟨o.toNat / 4 - 8, by omega⟩, hk, windowMap_index _ _ hk⟩

theorem windowWord_big_of_offset (h : 0x100 ≤ o.toNat ∧ o.toNat < 0x300) :
    ∃ (r : BReg) (j : Fin 8), o.toNat / 4 = 64 + 8 * r.val + j.val ∧ windowWord o = .big r j :=
  have hrj : o.toNat / 4 = 64 + 8 * ((o.toNat / 4 - 64) / 8) + (o.toNat / 4 - 64) % 8 := by omega
  ⟨⟨(o.toNat / 4 - 64) / 8, by omega⟩, ⟨(o.toNat / 4 - 64) % 8, by omega⟩, hrj, windowMap_big _ _ _ hrj⟩

theorem windowWord_hash_of_offset (h : 0x300 ≤ o.toNat ∧ o.toNat < 0x320) :
    ∃ j : Fin 8, o.toNat / 4 = 192 + j.val ∧ windowWord o = .hash j :=
  have hj : o.toNat / 4 = 192 + (o.toNat / 4 - 192) := by omega
  ⟨⟨o.toNat / 4 - 192, by omega⟩, hj, windowMap_hash _ _ hj⟩

theorem windowWord_roundKey_of_offset (h : 0x380 ≤ o.toNat ∧ o.toNat < 0x400) :
    ∃ i : Fin 32, o.toNat / 4 = 224 + i.val ∧ windowWord o = .roundKey i :=
  have hi : o.toNat / 4 = 224 + (o.toNat / 4 - 224) := by omega
  ⟨⟨o.toNat / 4 - 224, by omega⟩, hi, windowMap_roundKey _ _ hi⟩

theorem windowWord_imem_of_offset (h : 0x400 ≤ o.toNat ∧ o.toNat < 0x800) :
    ∃ a : Fin 256, o.toNat / 4 = 256 + a.val ∧ windowWord o = .imem a :=
  have ha : o.toNat / 4 = 256 + (o.toNat / 4 - 256) := by omega
  ⟨⟨o.toNat / 4 - 256, by omega⟩, ha, windowMap_imem _ _ ha⟩

theorem windowWord_dmem_of_offset (h : 0x1000 ≤ o.toNat) :
    ∃ a : Fin 1024, o.toNat / 4 = 1024 + a.val ∧ windowWord o = .dmem a :=
  have ha : o.toNat / 4 = 1024 + (o.toNat / 4 - 1024) := by omega
  ⟨⟨o.toNat / 4 - 1024, by omega⟩, ha, windowMap_dmem _ _ ha⟩

theorem windowWord_flags_of_offset (h : o.toNat / 4 = 5) : windowWord o = .flags := by
  simp [windowWord, windowMap, h]

end

/-! ## A DMEM word as its four bytes (R13, R51) -/

/-- Joining puts the left operand above the right one. -/
theorem toNat_append_add {w v : Nat} (x : BitVec w) (y : BitVec v) :
    (x ++ y).toNat = x.toNat * 2 ^ v + y.toNat := by
  rw [BitVec.toNat_append, ← Nat.shiftLeft_add_eq_or_of_lt y.isLt, Nat.shiftLeft_eq]

/-- The word of four bytes, the first most significant. -/
theorem ofNat_natOfBytes_four (b0 b1 b2 b3 : Byte) :
    BitVec.ofNat 32 (natOfBytes [b0, b1, b2, b3]) = joinBytes b0 b1 b2 b3 := by
  have hlt : natOfBytes [b0, b1, b2, b3] < 2 ^ 32 := by simpa using natOfBytes_lt [b0, b1, b2, b3]
  apply BitVec.eq_of_toNat_eq
  rw [BitVec.toNat_ofNat, Nat.mod_eq_of_lt hlt, joinBytes]
  simp only [toNat_append_add, natOfBytes, List.foldl_cons, List.foldl_nil]
  omega

theorem byteOf_joinBytes (b0 b1 b2 b3 : Byte) (j : Nat) (hj : j < 4) :
    [b0, b1, b2, b3][j]? = some (byteOf (joinBytes b0 b1 b2 b3) j) := by
  unfold byteOf joinBytes
  interval_cases j <;>
    simp (disch := omega) only [extract_append_low, extract_append_above, extract_whole, Nat.reduceMul,
      Nat.reduceSub, List.getElem?_cons_zero, List.getElem?_cons_succ]

/-- Byte `j` of the word of four bytes is the `j`-th of them. -/
theorem byteOf_ofNat_natOfBytes {bs : List Byte} (h : bs.length = 4) {j : Nat} (hj : j < 4) :
    bs[j]? = some (byteOf (BitVec.ofNat 32 (natOfBytes bs)) j) := by
  obtain ⟨b0, b1, b2, b3, rfl⟩ := List.length_eq_four.1 h
  rw [ofNat_natOfBytes_four]
  exact byteOf_joinBytes b0 b1 b2 b3 j hj

/-! ## Reads while Idle (R36, R52) -/

section
variable {s : State} {o : Offset} {d : Word} {w : WindowWord} {rest : List HostEvent}

/-- A read while Idle whose word and draws are known. -/
theorem step_read_idle_of_windowRead (hr : s.rst = false) (hb : s.status.busy = false)
    (hp : s.pending = .read o :: rest) (hw : windowWord o = w) {v : Word} {m : Nat}
    (hv : ({ s with pending := rest } : State).windowRead w = (v, { s with pending := rest, draws := m })) :
    step s = .next { s with pending := rest, answer := some v, draws := m } := by
  rw [step_read_idle hr hb hp hw, hv]

/-- The IMEM word the host reads: the listed one, or a draw. -/
theorem State.windowRead_imem_listed {a : Fin 256} {v : Word} (h : Mem.get? s.imem a.val = some v) :
    s.windowRead (.imem a) = (v, s) := by
  simp only [State.windowRead, h]

theorem State.windowRead_imem_unlisted {a : Fin 256} (h : Mem.get? s.imem a.val = none) :
    s.windowRead (.imem a) = (Config.freeWord s.draws, { s with draws := s.draws + 1 }) := by
  simp only [State.windowRead, h]

/-- The DMEM word the host reads, as the byte string of its four addresses. -/
theorem State.windowRead_dmem (s : State) (a : Fin 1024) :
    s.windowRead (.dmem a) = (BitVec.ofNat 32 (natOfBytes (Mem.readBytes s.dmem (4 * a.val) s.draws 4).1),
      { s with draws := (Mem.readBytes s.dmem (4 * a.val) s.draws 4).2 }) := rfl

/-- Four listed bytes are read as they are, and nothing is drawn. -/
theorem State.windowRead_dmem_listed {a : Fin 1024} {b0 b1 b2 b3 : Byte}
    (h0 : Mem.get? s.dmem (4 * a.val) = some b0) (h1 : Mem.get? s.dmem (4 * a.val + 1) = some b1)
    (h2 : Mem.get? s.dmem (4 * a.val + 2) = some b2) (h3 : Mem.get? s.dmem (4 * a.val + 3) = some b3) :
    s.windowRead (.dmem a) = (b0 ++ b1 ++ b2 ++ b3, s) := by
  have hread : Mem.readBytes s.dmem (4 * a.val) s.draws 4 = ([b0, b1, b2, b3], s.draws) := by
    refine Mem.readBytes_of_listed s.dmem s.draws [b0, b1, b2, b3] _ fun j hj => ?_
    simp only [List.length_cons, List.length_nil] at hj
    interval_cases j
    · exact h0
    · exact h1
    · exact h2
    · exact h3
  rw [State.windowRead_dmem, hread, ofNat_natOfBytes_four]
  rfl

end

/-! ## Writes while Idle (R34, R35, R52) -/

section
variable {s : State} {o o' : Offset} {d : Word} {w : WindowWord} {rest : List HostEvent}

/-- Writing a word that is refused while Running leaves the run state, the reset input and the host's events. -/
theorem State.windowWrite_keeps_host (s : State) (d : Word) (hw : w.open = false) :
    (s.windowWrite d w).status = s.status ∧ (s.windowWrite d w).rst = s.rst
      ∧ (s.windowWrite d w).pending = s.pending := by
  cases w with
  | id | ctrl | status | fpc | finsn | reserved => cases hw
  | flags | index | big | hash | roundKey | imem | dmem => exact ⟨rfl, rfl, rfl⟩

/-- What a word reads does not depend on the events still to come. -/
theorem State.windowRead_pending (s : State) (w : WindowWord) (l : List HostEvent) :
    (({ s with pending := l } : State).windowRead w).1 = (s.windowRead w).1 := by
  cases w with
  | imem a =>
    cases h : Mem.get? s.imem a.val with
    | some v => rw [s.windowRead_imem_listed h, State.windowRead_imem_listed (s := { s with pending := l }) h]
    | none => rw [s.windowRead_imem_unlisted h, State.windowRead_imem_unlisted (s := { s with pending := l }) h]
  | id | ctrl | status | fpc | finsn | flags | index | big | hash | roundKey | dmem | reserved => rfl

/-- A write and then a read of the same word while Idle: the answer is what that word reads after its write. -/
theorem write_then_read_idle (hr : s.rst = false) (hb : s.status.busy = false)
    (hp : s.pending = .write o d :: .read o' :: rest) (ho : o'.toNat / 4 = o.toNat / 4)
    (hw : windowWord o = w) (hopen : w.open = false) {v : Word}
    (hv : ∀ s : State, ((s.windowWrite d w).windowRead w).1 = v) :
    ∃ t u, step s = .next t ∧ step t = .next u ∧ u.answer = some v := by
  have hw' : windowWord o' = w := (congrArg windowMap ho).trans hw
  obtain ⟨hst, hrst, hpend⟩ := State.windowWrite_keeps_host { s with pending := .read o' :: rest } d hopen
  have hbusy := (congrArg Status.busy hst).trans hb
  refine ⟨_, _, step_write_idle hr hb hp hw, step_read_idle (hrst.trans hr) hbusy hpend hw', ?_⟩
  exact congrArg some ((State.windowRead_pending _ w rest).trans (hv _))

/-- A write of one word of B leaves every other word, of the same register too. -/
theorem State.wordOf_windowWrite_big (s : State) (d : Word) {r r' : BReg} {j j' : Fin 8}
    (hne : ¬ (r' = r ∧ j' = j)) :
    wordOf ((s.windowWrite d (.big r j)).getB r') j' = wordOf (s.getB r') j' := by
  by_cases hr : r' = r
  · subst hr
    have hj : j'.val ≠ j.val := fun e => hne ⟨rfl, Fin.ext e⟩
    simp [State.windowWrite, wordOf_setWord _ _ _ _ j'.isLt, hj]
  · rw [State.windowWrite, State.getB_setB_ne _ _ hr]

/-! ### What each word reads after its write -/

theorem State.windowRead_windowWrite_big (s : State) (d : Word) (r : BReg) (j : Fin 8) :
    ((s.windowWrite d (.big r j)).windowRead (.big r j)).1 = d := by
  simp [State.windowWrite, State.windowRead, wordOf_setWord _ _ _ _ j.isLt]

theorem State.windowRead_windowWrite_hash (s : State) (d : Word) (j : Fin 8) :
    ((s.windowWrite d (.hash j)).windowRead (.hash j)).1 = d := by
  simp [State.windowWrite, State.windowRead, wordOf_setWord _ _ _ _ j.isLt]

theorem State.windowRead_windowWrite_roundKey (s : State) (d : Word) (i : Fin 32) :
    ((s.windowWrite d (.roundKey i)).windowRead (.roundKey i)).1 = d := by
  simp [State.windowWrite, State.windowRead, State.getRk_setRk]

theorem State.windowRead_windowWrite_imem (s : State) (d : Word) (a : Fin 256) :
    ((s.windowWrite d (.imem a)).windowRead (.imem a)).1 = d := by
  rw [State.windowRead_imem_listed (v := d)]
  simp [State.windowWrite, Mem.get?_set]

theorem State.windowRead_windowWrite_dmem (s : State) (d : Word) (a : Fin 1024) :
    ((s.windowWrite d (.dmem a)).windowRead (.dmem a)).1 = d := by
  have hd : d.toNat % 256 ^ 4 = d.toNat := Nat.mod_eq_of_lt d.isLt
  simp only [State.windowWrite, State.windowRead, State.memRead_memWrite, hd, BitVec.ofNat_toNat,
    BitVec.setWidth_eq]

/-- An index register keeps bits 15:0 of the word (R36). -/
theorem State.windowRead_windowWrite_index (s : State) (d : Word) (k : IReg) :
    ((s.windowWrite d (.index k)).windowRead (.index k)).1 = d &&& 0xFFFF#32 := by
  apply BitVec.eq_of_toNat_eq
  have hmask := Nat.and_two_pow_sub_one_eq_mod d.toNat 16
  have hfit : d.toNat % 65536 % 4294967296 = d.toNat % 65536 := by omega
  simpa [State.windowWrite, State.windowRead, hfit] using hmask.symm

/-- FLAGS keeps bits 1:0 of the word (R34). -/
theorem State.windowRead_windowWrite_flags (s : State) (d : Word) :
    ((s.windowWrite d .flags).windowRead .flags).1 = d &&& 3#32 := by
  obtain ⟨hz, ht, hhigh⟩ := flagsRead_bits (s.windowWrite d .flags)
  apply BitVec.eq_of_getLsbD_eq
  intro i hi
  match i with
  | 0 => exact hz.trans (by simp [State.windowWrite])
  | 1 => exact ht.trans (by simp [State.windowWrite])
  | i + 2 =>
    have hbit : (flagsRead (s.windowWrite d .flags)).getLsbD (i + 2) = false := by
      have h := congrArg (BitVec.getLsbD · i) hhigh
      have hi' : i < 30 := by omega
      simpa [BitVec.getLsbD_extractLsb', hi', Nat.add_comm 2 i] using h
    have hmask : (3#32).getLsbD (i + 2) = false := by simp [BitVec.getLsbD_ofNat, Nat.testBit_succ]
    rw [BitVec.getLsbD_and, hmask, Bool.and_false]
    exact hbit

/-- Wherever a whole word is kept (B, H, RK, IMEM and DMEM), the host reads back what it wrote. -/
theorem write_then_read_whole_word (hr : s.rst = false) (hb : s.status.busy = false)
    (hp : s.pending = .write o d :: .read o' :: rest) (ho : o'.toNat / 4 = o.toNat / 4)
    (h : (0x100 ≤ o.toNat ∧ o.toNat < 0x320) ∨ (0x380 ≤ o.toNat ∧ o.toNat < 0x800) ∨ 0x1000 ≤ o.toNat) :
    ∃ t u, step s = .next t ∧ step t = .next u ∧ u.answer = some d := by
  have hrange : (0x100 ≤ o.toNat ∧ o.toNat < 0x300) ∨ (0x300 ≤ o.toNat ∧ o.toNat < 0x320)
      ∨ (0x380 ≤ o.toNat ∧ o.toNat < 0x400) ∨ (0x400 ≤ o.toNat ∧ o.toNat < 0x800) ∨ 0x1000 ≤ o.toNat := by omega
  rcases hrange with h | h | h | h | h
  · obtain ⟨r, j, -, hw⟩ := windowWord_big_of_offset h
    exact write_then_read_idle hr hb hp ho hw rfl fun s => s.windowRead_windowWrite_big d r j
  · obtain ⟨j, -, hw⟩ := windowWord_hash_of_offset h
    exact write_then_read_idle hr hb hp ho hw rfl fun s => s.windowRead_windowWrite_hash d j
  · obtain ⟨i, -, hw⟩ := windowWord_roundKey_of_offset h
    exact write_then_read_idle hr hb hp ho hw rfl fun s => s.windowRead_windowWrite_roundKey d i
  · obtain ⟨a, -, hw⟩ := windowWord_imem_of_offset h
    exact write_then_read_idle hr hb hp ho hw rfl fun s => s.windowRead_windowWrite_imem d a
  · obtain ⟨a, -, hw⟩ := windowWord_dmem_of_offset h
    exact write_then_read_idle hr hb hp ho hw rfl fun s => s.windowRead_windowWrite_dmem d a

end

/-! ## The statements -/

/-- Settles O11: a step is an event or a turn of the core, and each keeps the invariant. -/
theorem stepKeepsInvariant : Obligations.StepKeepsInvariant := by
  intro s t hs h
  unfold step at h
  split at h
  · exact coreTurn_inv h hs
  · exact hostEvent_inv h hs

/-- Settles O15: a completing instruction writes the flags it may write, and one that stops the core writes
none. -/
theorem flagsWrittenOnlyByTheirInstructions : Obligations.FlagsWrittenOnlyByTheirInstructions := by
  intro i s t h
  rcases (exec_outcome h).completes_or_keeps with hc | ⟨-, -, hflags, -⟩
  · refine ⟨hc.zFlag, hc.tFlag, fun hf ht => ?_⟩
    rw [hc.status, hf] at ht
    exact absurd ht (by decide)
  · exact ⟨fun _ => hflags.1, fun _ => hflags.2, fun _ _ => hflags⟩

/-- Settles O16: a completing instruction writes the kinds of state it may write, and one that stops the core none
of them. -/
theorem eachStateHasItsWriters : Obligations.EachStateHasItsWriters := by
  intro i s t h
  rcases (exec_outcome h).completes_or_keeps with hc | ⟨-, hidx, -, hhash, hrk, hbytes, himem, -⟩
  · refine ⟨fun hi k _ => ?_, hc.hash, fun hi j => ?_, fun hi a => ?_, fun a => ?_⟩
    · rw [State.getI, hc.idx hi, State.getI]
    · rw [State.getRk, hc.rk hi, State.getRk]
    · rcases hc.dmem with hd | ⟨hw, -⟩
      · rw [hd]
      · rw [hi] at hw
        exact absurd hw (by decide)
    · rw [hc.imem]
  · exact ⟨fun _ => hidx, fun _ => hhash, fun _ => hrk, fun _ => hbytes, himem⟩

/-- Settles O23: a write and then a read give the word as its register or memory keeps it, and the write is one
update of that register or memory, which leaves its other words. -/
theorem idleWriteThenReadGivesWord : Obligations.IdleWriteThenReadGivesWord := by
  refine ⟨fun s o o' d rest hr hb hp ho => ⟨fun h => ?_, fun h => ?_, fun h => ?_⟩,
    fun s o d rest hr hb hp => ⟨fun h => ?_, fun h => ?_, fun h => ?_, fun h => ?_, fun h => ?_, fun h => ?_,
      fun h => ?_⟩⟩
  · exact write_then_read_whole_word hr hb hp ho h
  · obtain ⟨k, -, hw⟩ := windowWord_index_of_offset h
    exact write_then_read_idle hr hb hp ho hw rfl fun s => s.windowRead_windowWrite_index d k
  · exact write_then_read_idle hr hb hp ho (windowWord_flags_of_offset h) rfl
      fun s => s.windowRead_windowWrite_flags d
  · obtain ⟨r, j, ho, hw⟩ := windowWord_big_of_offset h
    refine ⟨_, step_write_idle hr hb hp hw, rfl, fun r' j' hne => ?_⟩
    exact State.wordOf_windowWrite_big _ d (by rintro ⟨rfl, rfl⟩; omega)
  · obtain ⟨j, ho, hw⟩ := windowWord_hash_of_offset h
    refine ⟨_, step_write_idle hr hb hp hw, rfl, fun j' hne => ?_⟩
    have hj : j'.val ≠ j.val := by omega
    exact (wordOf_setWord s.hash j j' d j'.isLt).trans (if_neg hj)
  · obtain ⟨i, ho, hw⟩ := windowWord_roundKey_of_offset h
    refine ⟨_, step_write_idle hr hb hp hw, rfl, fun i' hne => ?_⟩
    have hi : i' ≠ i := by rintro rfl; omega
    exact (State.getRk_setRk _ i i' d).trans (if_neg hi)
  · obtain ⟨a, ho, hw⟩ := windowWord_imem_of_offset h
    refine ⟨_, step_write_idle hr hb hp hw, rfl, fun a' hne => ?_⟩
    have ha : a' ≠ a.val := by omega
    exact (Mem.get?_set s.imem a d a').trans (if_neg ha)
  · obtain ⟨a, ho, hw⟩ := windowWord_dmem_of_offset h
    refine ⟨_, step_write_idle hr hb hp hw, rfl, fun a' hne => ?_⟩
    have ha : ¬ (4 * a.val ≤ a' ∧ a' < 4 * a.val + 4) := by omega
    exact (State.get?_memWrite _ (4 * a.val) 4 d.toNat a').trans (if_neg ha)
  · obtain ⟨k, ho, hw⟩ := windowWord_index_of_offset h
    refine ⟨_, step_write_idle hr hb hp hw, rfl, fun k' hne => ?_⟩
    have hk : k' ≠ k := by rintro rfl; omega
    exact (State.getI_setI _ k k' _).trans (if_neg hk)
  · exact step_write_idle hr hb hp (windowWord_flags_of_offset h)

/-- Settles O1: the state after reset is what a release leaves. -/
theorem resetStateValues : Obligations.ResetStateValues := State.hasResetValues_release State.reset

/-- Settles O12, by evaluation of the reset state. -/
theorem resetMeetsInvariant : Obligations.ResetMeetsInvariant := by
  unfold Obligations.ResetMeetsInvariant
  decide

/-- Settles O18: BUSY and START select the branch of a CTRL write that the rule names. -/
theorem startBeginsRun : Obligations.StartBeginsRun := by
  intro s o d rest hr hp ho
  rw [step_write_ctrl hr hp ho]
  refine ⟨fun hb hd => ?_, fun hb hd => ?_, fun hb hd => ?_⟩
  · exact congrArg Host.Outcome.next (State.writeCtrl_idle hb hd)
  · exact congrArg Host.Outcome.next (State.writeCtrl_idle_start hb hd)
  · exact congrArg Host.Outcome.next (State.writeCtrl_running_start hb hd)

/-- Settles O22: each offset's word in the map, and that word's read. -/
theorem idleReadsFollowWindowMap : Obligations.IdleReadsFollowWindowMap := by
  intro s o rest hr hb hp
  refine ⟨?_, fun k ho => ?_, fun r j ho => ?_, fun j ho => ?_, fun i ho => ?_, fun a ho => ?_,
    fun w b0 b1 b2 b3 ho h0 h1 h2 h3 => ?_, fun w ho => ?_⟩
  · intro at_ v hmem ho
    simp only [List.mem_cons, Prod.mk.injEq, List.not_mem_nil, or_false] at hmem
    rcases hmem with ⟨rfl, rfl⟩ | ⟨rfl, rfl⟩ | ⟨rfl, rfl⟩ | ⟨rfl, rfl⟩ | ⟨rfl, rfl⟩ | ⟨rfl, rfl⟩ <;>
      exact step_read_idle_of_windowRead hr hb hp (congrArg windowMap ho) rfl
  · exact step_read_idle_of_windowRead hr hb hp (windowMap_index _ k (by omega)) rfl
  · exact step_read_idle_of_windowRead hr hb hp (windowMap_big _ r j (by omega)) rfl
  · exact step_read_idle_of_windowRead hr hb hp (windowMap_hash _ j (by omega)) rfl
  · exact step_read_idle_of_windowRead hr hb hp (windowMap_roundKey _ i (by omega)) rfl
  · have hw : windowWord o = .imem a := windowMap_imem _ a (by omega)
    exact ⟨fun v hv => step_read_idle_of_windowRead hr hb hp hw (State.windowRead_imem_listed hv),
      fun hn => step_read_idle_of_windowRead hr hb hp hw (State.windowRead_imem_unlisted hn)⟩
  · exact step_read_idle_of_windowRead hr hb hp (windowMap_dmem _ w (by omega))
      (State.windowRead_dmem_listed h0 h1 h2 h3)
  · refine ⟨_, _, fun j => (Mem.readBytes s.dmem (4 * w.val) s.draws j).2,
      step_read_idle_of_windowRead hr hb hp (windowMap_dmem _ w (by omega)) (State.windowRead_dmem _ w),
      Mem.readBytes_draws_le .., fun j hj => ?_⟩
    have hbyte := byteOf_ofNat_natOfBytes (Mem.readBytes_length s.dmem (4 * w.val) s.draws 4) hj
    refine ⟨fun b hb => ?_, fun hn => ?_⟩
    · have hlisted := (Mem.readBytes_getElem s.dmem (4 * w.val) s.draws 4 j hj).1 b hb
      exact Option.some.inj (hbyte.symm.trans hlisted)
    · obtain ⟨hlt, hdraw⟩ := Mem.readBytes_draw_lt s.dmem (4 * w.val) s.draws 4 j hj hn
      exact ⟨Mem.readBytes_draws_le .., hlt, Option.some.inj (hbyte.symm.trans hdraw),
        fun i hi hni => (Mem.readBytes_draw_lt s.dmem (4 * w.val) s.draws j i hi hni).1⟩

/-- Settles O25: the layout of each word, and the codes of R150. -/
theorem controlWordLayout : Obligations.ControlWordLayout :=
  ⟨ctrlRead_bits, statusRead_bits, flagsRead_bits, rfl, rfl, rfl, rfl, rfl⟩

end Sys2Proof.Machine
end

section
/-! SUPPORT. The proofs of the statements about memory and the host's accesses to it (spec/20_memory.md): first
what an access to an open and to a refused word is as one step, which word each offset range reaches, and what any
access can do while Running; then the loads and stores by their bound, and a load of what was stored; then the
statements, by tier. -/

namespace Sys2Proof.Machine

/-! ## Open and refused words (R53) -/

section
variable {s : State} {o : Offset} {d : Word} {w : WindowWord} {rest : List HostEvent}

/-- A write of an open word takes effect, Idle or Running. -/
theorem step_write_open (hr : s.rst = false) (hp : s.pending = .write o d :: rest) (hw : windowWord o = w)
    (hopen : w.open = true) : step s = .next (({ s with pending := rest } : State).windowWrite d w) := by
  rw [step_write hr hp]
  simp [State.hostWrite, State.reachable, hw, hopen]

/-- Reading an open word changes nothing: only IMEM and DMEM are drawn from (R48). -/
theorem State.windowRead_open (s : State) (hopen : w.open = true) :
    s.windowRead w = ((s.windowRead w).1, s) := by
  cases w with
  | id | ctrl | status | fpc | finsn | reserved => rfl
  | flags | index | big | hash | roundKey | imem | dmem => cases hopen

/-- A read of an open word answers it and changes nothing else, Idle or Running. -/
theorem step_read_open (hr : s.rst = false) (hp : s.pending = .read o :: rest) (hw : windowWord o = w)
    (hopen : w.open = true) :
    step s = .next { s with pending := rest, answer := some (s.windowRead w).1 } := by
  have hread : ({ s with pending := rest } : State).hostRead o
      = ((s.windowRead w).1, { s with pending := rest }) := by
    rw [State.hostRead, hw, State.reachable, hopen, Bool.or_true, if_pos rfl, State.windowRead_open _ hopen,
      State.windowRead_pending]
  rw [step_read hr hp, hread]

/-- While Running a write of any other word sets HERR alone. -/
theorem step_write_refused (hr : s.rst = false) (hb : s.status.busy = true)
    (hp : s.pending = .write o d :: rest) (hclosed : (windowWord o).open = false) :
    step s = .next (({ s with pending := rest } : State).setHerr) := by
  rw [step_write hr hp]
  simp [State.hostWrite, State.reachable, hb, hclosed]

/-- While Running a read of any other word answers 0 and sets HERR. -/
theorem step_read_refused (hr : s.rst = false) (hb : s.status.busy = true)
    (hp : s.pending = .read o :: rest) (hclosed : (windowWord o).open = false) :
    step s = .next { ({ s with pending := rest } : State).setHerr with answer := some 0 } := by
  rw [step_read hr hp]
  simp [State.hostRead, State.reachable, hb, hclosed]

end

/-! ## The offsets of open and refused words (R36, R53) -/

section
variable {s : State} {o : Offset} {d : Word} {rest : List HostEvent}

theorem windowWord_refused_of_offset (h : (0x14 ≤ o.toNat ∧ o.toNat < 0x18) ∨ (0x20 ≤ o.toNat ∧ o.toNat < 0x30)
      ∨ (0x100 ≤ o.toNat ∧ o.toNat < 0x320) ∨ (0x380 ≤ o.toNat ∧ o.toNat < 0x800) ∨ 0x1000 ≤ o.toNat) :
    (windowWord o).open = false := by
  have hparts : o.toNat / 4 = 5 ∨ (0x20 ≤ o.toNat ∧ o.toNat < 0x30) ∨ (0x100 ≤ o.toNat ∧ o.toNat < 0x300)
      ∨ (0x300 ≤ o.toNat ∧ o.toNat < 0x320) ∨ (0x380 ≤ o.toNat ∧ o.toNat < 0x400)
      ∨ (0x400 ≤ o.toNat ∧ o.toNat < 0x800) ∨ 0x1000 ≤ o.toNat := by omega
  rcases hparts with h | h | h | h | h | h | h
  · exact congrArg WindowWord.open (windowWord_flags_of_offset h)
  · obtain ⟨k, -, hw⟩ := windowWord_index_of_offset h
    exact congrArg WindowWord.open hw
  · obtain ⟨r, j, -, hw⟩ := windowWord_big_of_offset h
    exact congrArg WindowWord.open hw
  · obtain ⟨j, -, hw⟩ := windowWord_hash_of_offset h
    exact congrArg WindowWord.open hw
  · obtain ⟨i, -, hw⟩ := windowWord_roundKey_of_offset h
    exact congrArg WindowWord.open hw
  · obtain ⟨a, -, hw⟩ := windowWord_imem_of_offset h
    exact congrArg WindowWord.open hw
  · obtain ⟨a, -, hw⟩ := windowWord_dmem_of_offset h
    exact congrArg WindowWord.open hw

theorem windowWord_reserved_of_offset (h : (0x18 ≤ o.toNat ∧ o.toNat < 0x20) ∨ (0x30 ≤ o.toNat ∧ o.toNat < 0x100)
      ∨ (0x320 ≤ o.toNat ∧ o.toNat < 0x380) ∨ (0x800 ≤ o.toNat ∧ o.toNat < 0x1000)) :
    windowWord o = .reserved :=
  windowMap_reserved _ (by omega)

theorem windowWord_open_of_offset (h : o.toNat < 0x14) : (windowWord o).open = true := by
  have hword : o.toNat / 4 = 0 ∨ o.toNat / 4 = 1 ∨ o.toNat / 4 = 2 ∨ o.toNat / 4 = 3 ∨ o.toNat / 4 = 4 := by omega
  rcases hword with h | h | h | h | h <;> exact congrArg (WindowWord.open ∘ windowMap) h

/-- A write of a read-only or reserved word is ignored, Idle or Running (R52, R53). -/
theorem step_write_ignored (hr : s.rst = false) (hp : s.pending = .write o d :: rest)
    (h : o.toNat < 4 ∨ (0xC ≤ o.toNat ∧ o.toNat < 0x14) ∨ (0x18 ≤ o.toNat ∧ o.toNat < 0x20)
      ∨ (0x30 ≤ o.toNat ∧ o.toNat < 0x100) ∨ (0x320 ≤ o.toNat ∧ o.toNat < 0x380)
      ∨ (0x800 ≤ o.toNat ∧ o.toNat < 0x1000)) :
    step s = .next { s with pending := rest } := by
  have hparts : o.toNat / 4 = 0 ∨ o.toNat / 4 = 3 ∨ o.toNat / 4 = 4
      ∨ (0x18 ≤ o.toNat ∧ o.toNat < 0x20) ∨ (0x30 ≤ o.toNat ∧ o.toNat < 0x100)
      ∨ (0x320 ≤ o.toNat ∧ o.toNat < 0x380) ∨ (0x800 ≤ o.toNat ∧ o.toNat < 0x1000) := by omega
  rcases hparts with h | h | h | h
  · exact step_write_open hr hp (w := .id) (congrArg windowMap h) rfl
  · exact step_write_open hr hp (w := .fpc) (congrArg windowMap h) rfl
  · exact step_write_open hr hp (w := .finsn) (congrArg windowMap h) rfl
  · exact step_write_open hr hp (windowWord_reserved_of_offset h) rfl

/-- A write of STATUS clears its W1C bits, Idle or Running (R31, R53). -/
theorem step_write_status (hr : s.rst = false) (hp : s.pending = .write o d :: rest) (ho : o.toNat / 4 = 2) :
    step s = .next (({ s with pending := rest } : State).clearStatus d) :=
  step_write_open hr hp (w := .status) (congrArg windowMap ho) rfl

end

/-! ## Any access while Running (R53, R54) -/

section
variable {s : State} {d : Word} {w : WindowWord} {e : HostEvent} {rest : List HostEvent}

/-- While Running a write of CTRL takes IE, and START = 1 sets HERR. -/
theorem State.writeCtrl_running (hb : s.status.busy = true) :
    s.writeCtrl d = { s with
      ctrl := { s.ctrl with ie := d.getLsbD 1 }
      status := { s.status with herr := s.status.herr || d.getLsbD 0 } } := by
  rcases s.writeCtrl_cases d with ⟨-, hd, h⟩ | ⟨-, hd, h⟩ | ⟨hidle, -⟩ | ⟨hidle, -⟩
  · simp only [h, hd, State.setHerr, Bool.or_true]
  · simp only [h, hd, Bool.or_false]
  · simp [hb] at hidle
  · simp [hb] at hidle

/-- While Running a write of an open word reaches IE and the W1C bits alone. -/
theorem State.windowWrite_running (hb : s.status.busy = true) (hopen : w.open = true) :
    ∃ ie done fault herr, s.windowWrite d w = { s with
      ctrl := { s.ctrl with ie := ie }
      status := { s.status with done := done, fault := fault, herr := herr } } := by
  cases w with
  | id | fpc | finsn | reserved | status => exact ⟨_, _, _, _, rfl⟩
  | ctrl => exact ⟨_, _, _, _, State.writeCtrl_running hb⟩
  | flags | index | big | hash | roundKey | imem | dmem => cases hopen

/-- While Running a host access, refused or not, reaches IE, the W1C bits and the host's side alone. -/
theorem step_access_running (hr : s.rst = false) (hb : s.status.busy = true) (hp : s.pending = e :: rest)
    (he : (∃ o, e = .read o) ∨ (∃ o d, e = .write o d)) :
    ∃ ie done fault herr answer, step s = .next { s with
      pending := rest
      answer := answer
      ctrl := { s.ctrl with ie := ie }
      status := { s.status with done := done, fault := fault, herr := herr } } := by
  rcases he with ⟨o, rfl⟩ | ⟨o, d, rfl⟩ <;> cases hopen : (windowWord o).open
  · exact ⟨_, _, _, _, _, step_read_refused hr hb hp hopen⟩
  · exact ⟨_, _, _, _, _, step_read_open hr hp rfl hopen⟩
  · exact ⟨_, _, _, _, _, step_write_refused hr hb hp hopen⟩
  · obtain ⟨ie, done, fault, herr, hwrite⟩ :=
      State.windowWrite_running (s := { s with pending := rest }) (d := d) hb hopen
    refine ⟨ie, done, fault, herr, s.answer, ?_⟩
    rw [step_write_open hr hp rfl hopen, hwrite]

end

/-! ## Loads and stores by their bound (R46, R83) -/

section
variable {n ea : Nat} {i : Instr}

theorem storeBytes_in_bounds (v : Nat) (s : State) (h : ea + n ≤ 4096) :
    storeBytes n i v ea s = .next (s.memWrite ea n v).advance := by
  rcases storeBytes_cases n i v ea s with ⟨-, hs⟩ | ⟨hlt, -⟩
  · exact hs
  · exact absurd h (Nat.not_le.2 hlt)

theorem storeBytes_out_of_bounds (v : Nat) (s : State) (h : 4096 < ea + n) :
    storeBytes n i v ea s = .next (s.raise .daddr (encode i)) := by
  rcases storeBytes_cases n i v ea s with ⟨hle, -⟩ | ⟨-, hs⟩
  · exact absurd h (Nat.not_lt.2 hle)
  · exact hs

theorem loadBytes_out_of_bounds (rd : BReg) (s : State) (h : 4096 < ea + n) :
    loadBytes n i rd ea s = .next (s.raise .daddr (encode i)) := by
  rcases loadBytes_cases n i rd ea s with ⟨hle, -⟩ | ⟨-, hs⟩
  · exact absurd h (Nat.not_lt.2 hle)
  · exact hs

/-- Raising a fault is the whole of a precise fault (R151). -/
theorem faultsWith_of_raise {c : Cause} {s : State} (h : exec i s = .next (s.raise c (encode i))) :
    FaultsWith i c s :=
  ⟨_, h, s.keepsProgramState_raise c _, ⟨rfl, rfl, rfl⟩, rfl, rfl, rfl, rfl, rfl⟩

end

/-! ## A load of what was stored (R42, R55) -/

/-- The first `k` of the `n` bytes just written are the bytes of the value's upper `k`, and reading them draws
nothing. -/
theorem State.readBytes_memWrite_upper (s : State) (a d v : Nat) {k n : Nat} (hk : k ≤ n) :
    Mem.readBytes (s.memWrite a n v).dmem a d k = (bytesBE k (v / 256 ^ (n - k)), d) := by
  have hread := Mem.readBytes_of_listed (s.memWrite a n v).dmem d (bytesBE k (v / 256 ^ (n - k))) a
    fun j hj => by
      rw [bytesBE_length] at hj
      rw [State.get?_memWrite, if_pos (by omega), bytesBE_getElem _ _ _ hj, Nat.div_div_eq_div_mul, ← pow_add]
      congr 4
      omega
  rwa [bytesBE_length] at hread

/-- A store moves no index register, so the same operands address the same bytes after it. -/
theorem State.ea_advance_memWrite (s : State) (a n v : Nat) (imm : BitVec 12) (ix : IReg) :
    (s.memWrite a n v).advance.ea imm ix = s.ea imm ix := rfl

theorem exec_ldw (rd : BReg) (imm : BitVec 12) (ix : IReg) (s : State) :
    exec (.ldw rd imm ix) s = loadBytes 32 (.ldw rd imm ix) rd (s.ea imm ix) s := rfl

theorem exec_ldq (rd : BReg) (imm : BitVec 12) (ix : IReg) (s : State) :
    exec (.ldq rd imm ix) s = loadBytes 16 (.ldq rd imm ix) rd (s.ea imm ix) s := rfl

/-- A load of the first `k` of the `n` bytes just stored puts the value's upper `k` bytes in the destination. -/
theorem loadBytes_memWrite (s : State) (rd : BReg) (i : Instr) (v : Nat) {k n ea : Nat} (hk : k ≤ n)
    (h : ea + n ≤ 4096) :
    ∃ u, loadBytes k i rd ea (s.memWrite ea n v).advance = .next u
      ∧ u.getB rd = BitVec.ofNat 256 (v / 256 ^ (n - k) % 256 ^ k) ∧ u.draws = s.draws := by
  have hread := s.readBytes_memWrite_upper ea s.draws v hk
  rcases loadBytes_cases k i rd ea (s.memWrite ea n v).advance with ⟨-, hload⟩ | ⟨hlt, -⟩
  · refine ⟨_, hload, ?_, congrArg Prod.snd hread⟩
    rw [State.getB_advance, State.getB_setB_self, State.advance_dmem, State.advance_draws, State.memWrite_draws,
      hread, natOfBytes_bytesBE]
  · have hle : ea + k ≤ 4096 := by omega
    exact absurd hle (Nat.not_le.2 hlt)

/-- All 32 bytes of a register are the register. -/
theorem big_of_bytes (v : Big) : BitVec.ofNat 256 (v.toNat / 256 ^ (32 - 32) % 256 ^ 32) = v := by
  have hlt : v.toNat < 256 ^ 32 := v.isLt
  rw [Nat.sub_self, pow_zero, Nat.div_one, Nat.mod_eq_of_lt hlt, BitVec.ofNat_toNat, BitVec.setWidth_eq]

/-- The first 16 bytes of a register are its upper half. -/
theorem upperHalf_of_bytes (v : Big) :
    BitVec.ofNat 256 (v.toNat / 256 ^ (32 - 16) % 256 ^ 16) = (v.extractLsb' 128 128).setWidth 256 := by
  apply BitVec.eq_of_toNat_eq
  simp [BitVec.extractLsb'_toNat, Nat.shiftRight_eq_div_pow]

/-- All 16 bytes of a block are the block, zero-extended. -/
theorem block_of_bytes (x : Block) :
    BitVec.ofNat 256 (x.toNat / 256 ^ (16 - 16) % 256 ^ 16) = x.setWidth 256 := by
  have hlt : x.toNat < 256 ^ 16 := x.isLt
  rw [Nat.sub_self, pow_zero, Nat.div_one, Nat.mod_eq_of_lt hlt, BitVec.ofNat_toNat]

/-! ## The statements -/

/-- Settles O19: the ranges hold no open word, so a read and a write there are refused. -/
theorem runningBlockRefusesState : Obligations.RunningBlockRefusesState := by
  intro s o rest hr hb ho
  have hclosed := windowWord_refused_of_offset ho
  exact ⟨fun hp => step_read_refused hr hb hp hclosed, fun d hp => step_write_refused hr hb hp hclosed⟩

/-- Settles O21: none of the bits that an access while Running reaches belongs to the run. -/
theorem hostCannotChangeRun : Obligations.HostCannotChangeRun := by
  intro s t e rest hr hb hp he h
  obtain ⟨ie, done, fault, herr, answer, hstep⟩ := step_access_running hr hb hp he
  cases hstep.symm.trans h
  exact ⟨⟨fun _ _ => rfl, fun _ _ => rfl, ⟨rfl, rfl⟩, rfl, fun _ => rfl, fun _ => rfl, fun _ => rfl, rfl⟩,
    rfl, hb, rfl, rfl, rfl, hr, rfl, rfl⟩

/-- Settles O37: a load reads the upper bytes of what was stored, all of them or the first 16. -/
theorem loadAfterStoreGivesValue : Obligations.LoadAfterStoreGivesValue := by
  intro s ra rb imm ix
  refine ⟨fun h => ⟨?_, ?_⟩, fun h => ?_⟩
  · obtain ⟨u, hload, hval, hdraws⟩ := loadBytes_memWrite s rb (.ldw rb imm ix) (s.getBNat ra) (le_refl 32) h
    refine ⟨_, u, storeBytes_in_bounds _ s h, ?_, hval.trans (big_of_bytes (s.getB ra)), hdraws⟩
    rw [exec_ldw, State.ea_advance_memWrite, hload]
  · have hk : 16 ≤ 32 := by decide
    obtain ⟨u, hload, hval, hdraws⟩ := loadBytes_memWrite s rb (.ldq rb imm ix) (s.getBNat ra) hk h
    refine ⟨_, u, storeBytes_in_bounds _ s h, ?_, hval.trans (upperHalf_of_bytes (s.getB ra)), hdraws⟩
    rw [exec_ldq, State.ea_advance_memWrite, hload]
  · obtain ⟨u, hload, hval, hdraws⟩ :=
      loadBytes_memWrite s rb (.ldq rb imm ix) (lowBlock (s.getB ra)).toNat (le_refl 16) h
    refine ⟨_, u, storeBytes_in_bounds _ s h, ?_, hval.trans (block_of_bytes (lowBlock (s.getB ra))), hdraws⟩
    rw [exec_ldq, State.ea_advance_memWrite, hload]

/-- Settles O20: the control words are open while Running, so each is written and read as it always is. -/
theorem runningBlockAnswersControl : Obligations.RunningBlockAnswersControl := by
  intro s o rest hr hb
  refine ⟨fun d hp ho => ?_, fun d hp ho => step_write_status hr hp ho, fun d hp ho => step_write_ignored hr hp ho,
    fun hp ho => ?_⟩
  · exact (step_write_ctrl hr hp ho).trans (congrArg Host.Outcome.next (State.writeCtrl_running hb))
  · have hvalue : ∀ {n}, o.toNat / 4 = n → (s.windowRead (windowWord o)).1 = (s.windowRead (windowMap n)).1 :=
      fun h => by rw [windowWord, h]
    obtain ⟨hstart, -⟩ := ctrlRead_bits s.ctrl
    exact ⟨_, step_read_open hr hp rfl (windowWord_open_of_offset ho), fun h => hvalue h,
      fun h => ⟨hvalue h, (congrArg (BitVec.getLsbD · 0) (hvalue h)).trans hstart⟩, fun h => hvalue h,
      fun h => hvalue h, fun h => hvalue h⟩

/-- Settles O24: read-only and reserved words ignore a write, a reserved word reads 0, and STATUS takes its W1C
bits alone. -/
theorem readOnlyAndReservedIgnoreWrites : Obligations.ReadOnlyAndReservedIgnoreWrites := by
  intro s o rest hr _
  exact ⟨fun d hp ho => step_write_ignored hr hp ho,
    fun hp ho => step_read_open hr hp (windowWord_reserved_of_offset ho) rfl,
    fun d hp ho => step_write_status hr hp ho⟩

/-- Settles O38: the bound is tested on the exact sum, before any effect. -/
theorem outOfBoundsRaisesDaddr : Obligations.OutOfBoundsRaisesDaddr := by
  intro s rd imm ix
  exact ⟨fun h => ⟨faultsWith_of_raise (loadBytes_out_of_bounds rd s h),
      faultsWith_of_raise (storeBytes_out_of_bounds _ s h)⟩,
    fun h => ⟨faultsWith_of_raise (loadBytes_out_of_bounds rd s h),
      faultsWith_of_raise (storeBytes_out_of_bounds _ s h)⟩⟩

end Sys2Proof.Machine
end

section
/-! SUPPORT. The proofs of the statements about the encoding (spec/30_encoding.md): first what `decode` answers, by
the row of the word's opcode; then that every instruction's word finds its row, and that a word with the fixed bits of
a row is the word of what the row builds from it; then the statements, by tier. -/

namespace Sys2Proof

/-! ## What the decoder answers (R66) -/

section
variable {w : Word} {row : OpcodeRow} {i : Instr}

/-- No two rows of R65 have one opcode, so a row is found by its own. -/
theorem find?_opcodeMap_of_mem (hrow : row ∈ opcodeMap) (hop : row.opcode = Field.op w) :
    opcodeMap.find? (fun r => r.opcode == Field.op w) = some row := by
  have hnodup : (opcodeMap.map (·.opcode)).Nodup := by decide
  cases hfind : opcodeMap.find? (fun r => r.opcode == Field.op w) with
  | none => exact absurd (beq_iff_eq.2 hop) (List.find?_eq_none.1 hfind row hrow)
  | some found =>
    have hfound : found.opcode = Field.op w := by simpa using List.find?_some hfind
    rw [List.inj_on_of_nodup_map hnodup (List.mem_of_find?_eq_some hfind) hrow (hfound.trans hop.symm)]

/-- The checks on a word whose opcode's row is `row`. -/
theorem decode_of_find? (hfind : opcodeMap.find? (fun r => r.opcode == Field.op w) = some row) :
    decode w = if w &&& row.mask = row.matchBits then
      if (row.build w).wellFormed then .instr (row.build w) else .illegal .reservedConstant
    else .illegal .reservedBit := by
  rw [decode, hfind]

/-- A word is illegal for its opcode exactly where no row has that opcode. -/
theorem decode_eq_reservedOpcode_iff :
    decode w = .illegal .reservedOpcode ↔ opcodeMap.find? (fun r => r.opcode == Field.op w) = none := by
  cases hfind : opcodeMap.find? (fun r => r.opcode == Field.op w) with
  | none => simp [decode, hfind]
  | some row =>
    rw [decode_of_find? hfind]
    split_ifs <;> simp

/-- What a word that decodes has passed. -/
theorem row_of_decode (h : decode w = .instr i) :
    ∃ row ∈ opcodeMap, w &&& row.mask = row.matchBits ∧ row.build w = i ∧ i.wellFormed = true := by
  cases hfind : opcodeMap.find? (fun r => r.opcode == Field.op w) with
  | none => simp [decode_eq_reservedOpcode_iff.2 hfind] at h
  | some row =>
    rw [decode_of_find? hfind] at h
    split_ifs at h with hmask hwf
    cases h
    exact ⟨row, List.mem_of_find?_eq_some hfind, hmask, rfl, hwf⟩

/-- The opcodes without a row, from those with one (R65, R67). -/
theorem find?_opcodeMap_eq_none_iff (op : BitVec 6) :
    opcodeMap.find? (fun r => r.opcode == op) = none ↔
      op ∈ [0x00#6, 0x0C#6, 0x0D#6, 0x0E#6, 0x0F#6, 0x16#6, 0x17#6, 0x24#6, 0x25#6, 0x26#6, 0x27#6,
        0x2E#6, 0x2F#6, 0x36#6, 0x37#6, 0x38#6, 0x39#6, 0x3A#6, 0x3B#6, 0x3C#6, 0x3D#6, 0x3E#6, 0x3F#6] := by
  rw [List.find?_eq_none]
  revert op
  decide

/-- What a row builds has an encoding, except for CONST with a reserved number: the two sides agree in each of the 41
rows. -/
theorem wellFormed_build_iff (hrow : row ∈ opcodeMap) :
    (row.build w).wellFormed = true ↔ row.opcode ≠ 0x11#6 ∨ (w.extractLsb' 18 4).toNat ≤ 11 := by
  revert row
  simp [opcodeMap, controlRows, moveRows, modularRows, pointRows, hashRows, cipherRows, Instr.wellFormed, Field.cid]

end

/-! ## From the instruction to its word and back -/

/-- Every instruction's word finds its row, which builds the instruction again. -/
theorem encodedRow : ∀ i : Instr, Laws.EncodedRow.Statement i
  | .nop => Laws.EncodedRow.nop
  | .halt => Laws.EncodedRow.halt
  | .jmp tgt => Laws.EncodedRow.jmp tgt
  | .bz tgt => Laws.EncodedRow.bz tgt
  | .bnz tgt => Laws.EncodedRow.bnz tgt
  | .bt tgt => Laws.EncodedRow.bt tgt
  | .bnt tgt => Laws.EncodedRow.bnt tgt
  | .dbra ix tgt => Laws.EncodedRow.dbra ix tgt
  | .li ix imm => Laws.EncodedRow.li ix imm
  | .addi ix imm => Laws.EncodedRow.addi ix imm
  | .btst rs1 ix => Laws.EncodedRow.btst rs1 ix
  | .mov rd rs1 => Laws.EncodedRow.mov rd rs1
  | .const rd cid => Laws.EncodedRow.const rd cid
  | .ldw rd imm ix => Laws.EncodedRow.ldw rd imm ix
  | .stw rd imm ix => Laws.EncodedRow.stw rd imm ix
  | .ldq rd imm ix => Laws.EncodedRow.ldq rd imm ix
  | .stq rd imm ix => Laws.EncodedRow.stq rd imm ix
  | .madd rd rs1 rs2 m => Laws.EncodedRow.madd rd rs1 rs2 m
  | .msub rd rs1 rs2 m => Laws.EncodedRow.msub rd rs1 rs2 m
  | .mmul rd rs1 rs2 m => Laws.EncodedRow.mmul rd rs1 rs2 m
  | .minv rd rs1 m => Laws.EncodedRow.minv rd rs1 m
  | .mred rd rs1 m => Laws.EncodedRow.mred rd rs1 m
  | .tom rd rs1 m => Laws.EncodedRow.tom rd rs1 m
  | .fromm rd rs1 m => Laws.EncodedRow.fromm rd rs1 m
  | .rchk rs1 m => Laws.EncodedRow.rchk rs1 m
  | .pgen sd => Laws.EncodedRow.pgen sd
  | .pdbl sd ss1 => Laws.EncodedRow.pdbl sd ss1
  | .padd sd ss1 ss2 => Laws.EncodedRow.padd sd ss1 ss2
  | .pchk ss1 => Laws.EncodedRow.pchk ss1
  | .hinit => Laws.EncodedRow.hinit
  | .hset rs1 => Laws.EncodedRow.hset rs1
  | .hget rd => Laws.EncodedRow.hget rd
  | .hcomp rs1 rs2 => Laws.EncodedRow.hcomp rs1 rs2
  | .hp0 rd rs1 => Laws.EncodedRow.hp0 rd rs1
  | .hp1 rd rs1 => Laws.EncodedRow.hp1 rd rs1
  | .kexp rs1 => Laws.EncodedRow.kexp rs1
  | .enc rd rs1 => Laws.EncodedRow.enc rd rs1
  | .dec rd rs1 => Laws.EncodedRow.dec rd rs1
  | .sbox rd rs1 => Laws.EncodedRow.sbox rd rs1
  | .ldif rd rs1 => Laws.EncodedRow.ldif rd rs1
  | .lkey rd rs1 => Laws.EncodedRow.lkey rd rs1

/-- The word of any instruction term passes the checks on opcode and reserved bits, and a well-formed one that on
CONST's number too. -/
theorem decode_encode (i : Instr) :
    decode (encode i) = if i.wellFormed then .instr i else .illegal .reservedConstant := by
  obtain ⟨row, hfind, hmask, hbuild⟩ := encodedRow i
  rw [decode_of_find? hfind, if_pos hmask, hbuild]

/-! ## From the word to its instruction and back

A word is the join of its fields, so it is the word of a format once every field holds what the format puts there: an
operand field what its register number or modulus is encoded as, a fixed field what the row's mask and bits say. -/

/-! ### Fixed fields: a row's opcode and reserved bits (R65) -/

section
variable {w mask : Word} {op : BitVec 6}

/-- Bits that the mask selects are the row's. -/
theorem field_of_mask {fixed : Word} {lo n : Nat} (h : w &&& mask = fixed)
    (hmask : mask.extractLsb' lo n = BitVec.allOnes n) : w.extractLsb' lo n = fixed.extractLsb' lo n := by
  rw [← h, BitVec.extractLsb'_and, hmask, BitVec.and_allOnes]

/-- The opcode field of a word of a row. -/
theorem field_op (h : w &&& mask = op ++ 0#26)
    (hmask : mask.extractLsb' 26 6 = BitVec.allOnes 6 := by decide) : w.extractLsb' 26 6 = op :=
  (field_of_mask h hmask).trans (extract_append_high op 0#26)

/-- A reserved field of a word of a row. -/
theorem field_reserved {lo n : Nat} (h : w &&& mask = op ++ 0#26)
    (hmask : mask.extractLsb' lo n = BitVec.allOnes n := by decide) (hlo : lo + n ≤ 26 := by decide) :
    w.extractLsb' lo n = 0#n := by
  rw [field_of_mask h hmask, extract_append_low op 0#26 lo n hlo, BitVec.extractLsb'_zero]

end

/-! ### Operand fields -/

section
variable (w : Word)

theorem BReg.bits_toFin (x : BitVec 4) : BReg.bits x.toFin = x := by simp [BReg.bits]
theorem IReg.bits_toFin (x : BitVec 2) : IReg.bits x.toFin = x := by simp [IReg.bits]
theorem Slot.bits_toFin (x : BitVec 2) : Slot.bits x.toFin = x := by simp [Slot.bits]
theorem Modulus.bit_ofBit : ∀ x : BitVec 1, (if x = 0#1 then Modulus.p else .n).bit = x := by decide

theorem field_rd : w.extractLsb' 22 4 = BReg.bits (Field.rd w) := (BReg.bits_toFin _).symm
theorem field_rs1 : w.extractLsb' 18 4 = BReg.bits (Field.rs1 w) := (BReg.bits_toFin _).symm
theorem field_rs2 : w.extractLsb' 14 4 = BReg.bits (Field.rs2 w) := (BReg.bits_toFin _).symm
theorem field_cid : w.extractLsb' 18 4 = BReg.bits (Field.cid w) := (BReg.bits_toFin _).symm
theorem field_ix : w.extractLsb' 16 2 = IReg.bits (Field.ix w) := (IReg.bits_toFin _).symm
theorem field_sd : w.extractLsb' 24 2 = Slot.bits (Field.sd w) := (Slot.bits_toFin _).symm
theorem field_ss1 : w.extractLsb' 20 2 = Slot.bits (Field.ss1 w) := (Slot.bits_toFin _).symm
theorem field_ss2 : w.extractLsb' 16 2 = Slot.bits (Field.ss2 w) := (Slot.bits_toFin _).symm
theorem field_m : w.extractLsb' 13 1 = (Field.m w).bit := (Modulus.bit_ofBit _).symm

end

/-! ### Formats (R63) -/

section
variable {w : Word} {op : BitVec 6} {rd rs1 rs2 cid : BitVec 4} {m : BitVec 1} {ix sd ss1 ss2 : BitVec 2}
  {imm12 : BitVec 12} {imm16 : BitVec 16} {tgt : BitVec 8}

theorem formatN_of_fields (hop : w.extractLsb' 26 6 = op) (hz : w.extractLsb' 0 26 = 0#26) :
    formatN op = w := by
  have hjoin : w.extractLsb' 26 6 ++ w.extractLsb' 0 26 = w := by
    simp only [BitVec.extractLsb'_append_extractLsb'_eq_extractLsb', extract_whole]
  rwa [hop, hz] at hjoin

theorem formatJ_of_fields (hop : w.extractLsb' 26 6 = op) (hz₁ : w.extractLsb' 18 8 = 0#8)
    (hix : w.extractLsb' 16 2 = ix) (hz₂ : w.extractLsb' 8 8 = 0#8) (htgt : w.extractLsb' 0 8 = tgt) :
    formatJ op ix tgt = w := by
  have hjoin : w.extractLsb' 26 6 ++ w.extractLsb' 18 8 ++ w.extractLsb' 16 2 ++ w.extractLsb' 8 8 ++
      w.extractLsb' 0 8 = w := by
    simp only [BitVec.extractLsb'_append_extractLsb'_eq_extractLsb', extract_whole]
  rwa [hop, hz₁, hix, hz₂, htgt] at hjoin

theorem formatX_of_fields (hop : w.extractLsb' 26 6 = op) (hz : w.extractLsb' 18 8 = 0#8)
    (hix : w.extractLsb' 16 2 = ix) (himm16 : w.extractLsb' 0 16 = imm16) :
    formatX op ix imm16 = w := by
  have hjoin : w.extractLsb' 26 6 ++ w.extractLsb' 18 8 ++ w.extractLsb' 16 2 ++ w.extractLsb' 0 16 = w := by
    simp only [BitVec.extractLsb'_append_extractLsb'_eq_extractLsb', extract_whole]
  rwa [hop, hz, hix, himm16] at hjoin

theorem formatT_of_fields (hop : w.extractLsb' 26 6 = op) (hz₁ : w.extractLsb' 22 4 = 0#4)
    (hrs1 : w.extractLsb' 18 4 = rs1) (hix : w.extractLsb' 16 2 = ix) (hz₂ : w.extractLsb' 0 16 = 0#16) :
    formatT op rs1 ix = w := by
  have hjoin : w.extractLsb' 26 6 ++ w.extractLsb' 22 4 ++ w.extractLsb' 18 4 ++ w.extractLsb' 16 2 ++
      w.extractLsb' 0 16 = w := by
    simp only [BitVec.extractLsb'_append_extractLsb'_eq_extractLsb', extract_whole]
  rwa [hop, hz₁, hrs1, hix, hz₂] at hjoin

theorem formatR_of_fields (hop : w.extractLsb' 26 6 = op) (hrd : w.extractLsb' 22 4 = rd)
    (hrs1 : w.extractLsb' 18 4 = rs1) (hrs2 : w.extractLsb' 14 4 = rs2) (hm : w.extractLsb' 13 1 = m)
    (hz : w.extractLsb' 0 13 = 0#13) :
    formatR op rd rs1 rs2 m = w := by
  have hjoin : w.extractLsb' 26 6 ++ w.extractLsb' 22 4 ++ w.extractLsb' 18 4 ++ w.extractLsb' 14 4 ++
      w.extractLsb' 13 1 ++ w.extractLsb' 0 13 = w := by
    simp only [BitVec.extractLsb'_append_extractLsb'_eq_extractLsb', extract_whole]
  rwa [hop, hrd, hrs1, hrs2, hm, hz] at hjoin

theorem formatC_of_fields (hop : w.extractLsb' 26 6 = op) (hrd : w.extractLsb' 22 4 = rd)
    (hcid : w.extractLsb' 18 4 = cid) (hz : w.extractLsb' 0 18 = 0#18) :
    formatC op rd cid = w := by
  have hjoin : w.extractLsb' 26 6 ++ w.extractLsb' 22 4 ++ w.extractLsb' 18 4 ++ w.extractLsb' 0 18 = w := by
    simp only [BitVec.extractLsb'_append_extractLsb'_eq_extractLsb', extract_whole]
  rwa [hop, hrd, hcid, hz] at hjoin

theorem formatM_of_fields (hop : w.extractLsb' 26 6 = op) (hrd : w.extractLsb' 22 4 = rd)
    (hz₁ : w.extractLsb' 18 4 = 0#4) (hix : w.extractLsb' 16 2 = ix) (hz₂ : w.extractLsb' 12 4 = 0#4)
    (himm12 : w.extractLsb' 0 12 = imm12) :
    formatM op rd ix imm12 = w := by
  have hjoin : w.extractLsb' 26 6 ++ w.extractLsb' 22 4 ++ w.extractLsb' 18 4 ++ w.extractLsb' 16 2 ++
      w.extractLsb' 12 4 ++ w.extractLsb' 0 12 = w := by
    simp only [BitVec.extractLsb'_append_extractLsb'_eq_extractLsb', extract_whole]
  rwa [hop, hrd, hz₁, hix, hz₂, himm12] at hjoin

theorem formatS_of_fields (hop : w.extractLsb' 26 6 = op) (hsd : w.extractLsb' 24 2 = sd)
    (hz₁ : w.extractLsb' 22 2 = 0#2) (hss1 : w.extractLsb' 20 2 = ss1) (hz₂ : w.extractLsb' 18 2 = 0#2)
    (hss2 : w.extractLsb' 16 2 = ss2) (hz₃ : w.extractLsb' 0 16 = 0#16) :
    formatS op sd ss1 ss2 = w := by
  have hjoin : w.extractLsb' 26 6 ++ w.extractLsb' 24 2 ++ w.extractLsb' 22 2 ++ w.extractLsb' 20 2 ++
      w.extractLsb' 18 2 ++ w.extractLsb' 16 2 ++ w.extractLsb' 0 16 = w := by
    simp only [BitVec.extractLsb'_append_extractLsb'_eq_extractLsb', extract_whole]
  rwa [hop, hsd, hz₁, hss1, hz₂, hss2, hz₃] at hjoin

end

/-! ### Words with an opcode and reserved bits of 0, by the fields that are operands (R65) -/

section
variable {w : Word} {op : BitVec 6}

theorem formatN_of_mask (h : w &&& 0xFFFFFFFF = op ++ 0#26) : formatN op = w :=
  formatN_of_fields (field_op h) (field_reserved h)

theorem formatJ_of_mask_tgt (h : w &&& 0xFFFFFF00 = op ++ 0#26) : formatJ op 0 (Field.tgt w) = w :=
  formatJ_of_fields (field_op h) (field_reserved h) (field_reserved h) (field_reserved h) rfl

theorem formatJ_of_mask_ix_tgt (h : w &&& 0xFFFCFF00 = op ++ 0#26) :
    formatJ op (IReg.bits (Field.ix w)) (Field.tgt w) = w :=
  formatJ_of_fields (field_op h) (field_reserved h) (field_ix w) (field_reserved h) rfl

theorem formatX_of_mask (h : w &&& 0xFFFC0000 = op ++ 0#26) :
    formatX op (IReg.bits (Field.ix w)) (Field.imm16 w) = w :=
  formatX_of_fields (field_op h) (field_reserved h) (field_ix w) rfl

theorem formatT_of_mask (h : w &&& 0xFFC0FFFF = op ++ 0#26) :
    formatT op (BReg.bits (Field.rs1 w)) (IReg.bits (Field.ix w)) = w :=
  formatT_of_fields (field_op h) (field_reserved h) (field_rs1 w) (field_ix w) (field_reserved h)

theorem formatC_of_mask (h : w &&& 0xFC03FFFF = op ++ 0#26) :
    formatC op (BReg.bits (Field.rd w)) (BReg.bits (Field.cid w)) = w :=
  formatC_of_fields (field_op h) (field_rd w) (field_cid w) (field_reserved h)

theorem formatM_of_mask (h : w &&& 0xFC3CF000 = op ++ 0#26) :
    formatM op (BReg.bits (Field.rd w)) (IReg.bits (Field.ix w)) (Field.imm12 w) = w :=
  formatM_of_fields (field_op h) (field_rd w) (field_reserved h) (field_ix w) (field_reserved h) rfl

theorem formatR_of_mask_rd_rs1_rs2_m (h : w &&& 0xFC001FFF = op ++ 0#26) :
    formatR op (BReg.bits (Field.rd w)) (BReg.bits (Field.rs1 w)) (BReg.bits (Field.rs2 w)) (Field.m w).bit = w :=
  formatR_of_fields (field_op h) (field_rd w) (field_rs1 w) (field_rs2 w) (field_m w) (field_reserved h)

theorem formatR_of_mask_rd_rs1_m (h : w &&& 0xFC03DFFF = op ++ 0#26) :
    formatR op (BReg.bits (Field.rd w)) (BReg.bits (Field.rs1 w)) 0 (Field.m w).bit = w :=
  formatR_of_fields (field_op h) (field_rd w) (field_rs1 w) (field_reserved h) (field_m w) (field_reserved h)

theorem formatR_of_mask_rs1_m (h : w &&& 0xFFC3DFFF = op ++ 0#26) :
    formatR op 0 (BReg.bits (Field.rs1 w)) 0 (Field.m w).bit = w :=
  formatR_of_fields (field_op h) (field_reserved h) (field_rs1 w) (field_reserved h) (field_m w)
    (field_reserved h)

theorem formatR_of_mask_rd_rs1 (h : w &&& 0xFC03FFFF = op ++ 0#26) :
    formatR op (BReg.bits (Field.rd w)) (BReg.bits (Field.rs1 w)) 0 0 = w :=
  formatR_of_fields (field_op h) (field_rd w) (field_rs1 w) (field_reserved h) (field_reserved h)
    (field_reserved h)

theorem formatR_of_mask_rd (h : w &&& 0xFC3FFFFF = op ++ 0#26) :
    formatR op (BReg.bits (Field.rd w)) 0 0 0 = w :=
  formatR_of_fields (field_op h) (field_rd w) (field_reserved h) (field_reserved h) (field_reserved h)
    (field_reserved h)

theorem formatR_of_mask_rs1 (h : w &&& 0xFFC3FFFF = op ++ 0#26) :
    formatR op 0 (BReg.bits (Field.rs1 w)) 0 0 = w :=
  formatR_of_fields (field_op h) (field_reserved h) (field_rs1 w) (field_reserved h) (field_reserved h)
    (field_reserved h)

theorem formatR_of_mask_rs1_rs2 (h : w &&& 0xFFC03FFF = op ++ 0#26) :
    formatR op 0 (BReg.bits (Field.rs1 w)) (BReg.bits (Field.rs2 w)) 0 = w :=
  formatR_of_fields (field_op h) (field_reserved h) (field_rs1 w) (field_rs2 w) (field_reserved h)
    (field_reserved h)

theorem formatS_of_mask_sd (h : w &&& 0xFCFFFFFF = op ++ 0#26) :
    formatS op (Slot.bits (Field.sd w)) 0 0 = w :=
  formatS_of_fields (field_op h) (field_sd w) (field_reserved h) (field_reserved h) (field_reserved h)
    (field_reserved h) (field_reserved h)

theorem formatS_of_mask_sd_ss1 (h : w &&& 0xFCCFFFFF = op ++ 0#26) :
    formatS op (Slot.bits (Field.sd w)) (Slot.bits (Field.ss1 w)) 0 = w :=
  formatS_of_fields (field_op h) (field_sd w) (field_reserved h) (field_ss1 w) (field_reserved h)
    (field_reserved h) (field_reserved h)

theorem formatS_of_mask_sd_ss1_ss2 (h : w &&& 0xFCCCFFFF = op ++ 0#26) :
    formatS op (Slot.bits (Field.sd w)) (Slot.bits (Field.ss1 w)) (Slot.bits (Field.ss2 w)) = w :=
  formatS_of_fields (field_op h) (field_sd w) (field_reserved h) (field_ss1 w) (field_reserved h)
    (field_ss2 w) (field_reserved h)

theorem formatS_of_mask_ss1 (h : w &&& 0xFFCFFFFF = op ++ 0#26) :
    formatS op 0 (Slot.bits (Field.ss1 w)) 0 = w :=
  formatS_of_fields (field_op h) (field_reserved h) (field_reserved h) (field_ss1 w) (field_reserved h)
    (field_reserved h) (field_reserved h)

end

/-! ### Rows -/

/-- A word with the fixed bits of the row is the word of what the row builds from it. -/
def OpcodeRow.Rebuilds (row : OpcodeRow) : Prop :=
  ∀ w : Word, w &&& row.mask = row.matchBits → encode (row.build w) = w

theorem controlRows_rebuild : ∀ row ∈ controlRows, row.Rebuilds := by
  simp only [controlRows, List.forall_mem_cons]
  exact ⟨fun _ h => formatN_of_mask h, fun _ h => formatN_of_mask h, fun _ h => formatJ_of_mask_tgt h,
    fun _ h => formatJ_of_mask_tgt h, fun _ h => formatJ_of_mask_tgt h, fun _ h => formatJ_of_mask_tgt h,
    fun _ h => formatJ_of_mask_tgt h, fun _ h => formatJ_of_mask_ix_tgt h, fun _ h => formatX_of_mask h,
    fun _ h => formatX_of_mask h, fun _ h => formatT_of_mask h, List.forall_mem_nil _⟩

theorem moveRows_rebuild : ∀ row ∈ moveRows, row.Rebuilds := by
  simp only [moveRows, List.forall_mem_cons]
  exact ⟨fun _ h => formatR_of_mask_rd_rs1 h, fun _ h => formatC_of_mask h, fun _ h => formatM_of_mask h,
    fun _ h => formatM_of_mask h, fun _ h => formatM_of_mask h, fun _ h => formatM_of_mask h,
    List.forall_mem_nil _⟩

theorem modularRows_rebuild : ∀ row ∈ modularRows, row.Rebuilds := by
  simp only [modularRows, List.forall_mem_cons]
  exact ⟨fun _ h => formatR_of_mask_rd_rs1_rs2_m h, fun _ h => formatR_of_mask_rd_rs1_rs2_m h,
    fun _ h => formatR_of_mask_rd_rs1_rs2_m h, fun _ h => formatR_of_mask_rd_rs1_m h,
    fun _ h => formatR_of_mask_rd_rs1_m h, fun _ h => formatR_of_mask_rd_rs1_m h,
    fun _ h => formatR_of_mask_rd_rs1_m h, fun _ h => formatR_of_mask_rs1_m h, List.forall_mem_nil _⟩

theorem pointRows_rebuild : ∀ row ∈ pointRows, row.Rebuilds := by
  simp only [pointRows, List.forall_mem_cons]
  exact ⟨fun _ h => formatS_of_mask_sd h, fun _ h => formatS_of_mask_sd_ss1 h,
    fun _ h => formatS_of_mask_sd_ss1_ss2 h, fun _ h => formatS_of_mask_ss1 h, List.forall_mem_nil _⟩

theorem hashRows_rebuild : ∀ row ∈ hashRows, row.Rebuilds := by
  simp only [hashRows, List.forall_mem_cons]
  exact ⟨fun _ h => formatN_of_mask h, fun _ h => formatR_of_mask_rs1 h, fun _ h => formatR_of_mask_rd h,
    fun _ h => formatR_of_mask_rs1_rs2 h, fun _ h => formatR_of_mask_rd_rs1 h,
    fun _ h => formatR_of_mask_rd_rs1 h, List.forall_mem_nil _⟩

theorem cipherRows_rebuild : ∀ row ∈ cipherRows, row.Rebuilds := by
  simp only [cipherRows, List.forall_mem_cons]
  exact ⟨fun _ h => formatR_of_mask_rs1 h, fun _ h => formatR_of_mask_rd_rs1 h,
    fun _ h => formatR_of_mask_rd_rs1 h, fun _ h => formatR_of_mask_rd_rs1 h,
    fun _ h => formatR_of_mask_rd_rs1 h, fun _ h => formatR_of_mask_rd_rs1 h, List.forall_mem_nil _⟩

theorem opcodeMap_rebuild : ∀ row ∈ opcodeMap, row.Rebuilds := by
  simp only [opcodeMap, List.forall_mem_append]
  exact ⟨⟨⟨⟨⟨controlRows_rebuild, moveRows_rebuild⟩, modularRows_rebuild⟩, pointRows_rebuild⟩, hashRows_rebuild⟩,
    cipherRows_rebuild⟩

/-- A word that decodes to an instruction is that instruction's word. -/
theorem encode_of_decode {w : Word} {i : Instr} (h : decode w = .instr i) : encode i = w := by
  obtain ⟨row, hrow, hmask, rfl, -⟩ := row_of_decode h
  exact opcodeMap_rebuild row hrow w hmask

/-- A well-formed instruction has one word. -/
theorem decode_eq_instr_iff {w : Word} {i : Instr} (hwf : i.wellFormed = true) :
    decode w = .instr i ↔ w = encode i := by
  constructor
  · intro h
    exact (encode_of_decode h).symm
  · rintro rfl
    rw [decode_encode, if_pos hwf]

/-! ## The statements -/

/-- Settles O3: the word passes the three checks of its row, which builds the instruction from it. -/
theorem encodeThenDecodeGivesInstruction : Obligations.EncodeThenDecodeGivesInstruction :=
  fun _ hwf => (decode_eq_instr_iff hwf).2 rfl

/-- Settles O4: the word has the fixed bits of the row that built the instruction, and every other bit is of an
operand. -/
theorem decodeThenEncodeGivesWord : Obligations.DecodeThenEncodeGivesWord := by
  intro w i h
  obtain ⟨-, -, -, -, hwf⟩ := row_of_decode h
  exact ⟨encode_of_decode h, hwf⟩

/-- Settles O5: the row of the word's opcode, where there is one, answers by the checks in order. -/
theorem reservedWordsAreIllegal : Obligations.ReservedWordsAreIllegal := by
  refine ⟨fun w => decode_eq_reservedOpcode_iff.trans (find?_opcodeMap_eq_none_iff (Field.op w)), ?rows, ?const,
    by decide, fun w => decode_eq_instr_iff rfl⟩
  case rows =>
    intro w row hrow hop
    rw [decode_of_find? (find?_opcodeMap_of_mem hrow hop)]
    refine ⟨fun hmask => if_neg hmask, fun hmask hconst hnumber => ?_, fun hmask hallowed => ?_⟩
    · have hillFormed : ¬ (row.build w).wellFormed = true := by
        rw [wellFormed_build_iff hrow]
        rintro (hne | hle)
        · exact hne hconst
        · exact absurd hnumber (Nat.not_lt.2 hle)
      rw [if_pos hmask, if_neg hillFormed]
    · rw [if_pos hmask, if_pos ((wellFormed_build_iff hrow).2 hallowed)]
  case const =>
    intro rd cid hcid
    have hillFormed : ¬ (Instr.const rd cid).wellFormed = true :=
      fun hwf => absurd (of_decide_eq_true hwf) (Nat.not_le.2 hcid)
    exact (decode_encode (.const rd cid)).trans (if_neg hillFormed)

/-- Settles O6, by evaluation of the decoder on each word. -/
theorem sampleWordsDecode : Obligations.SampleWordsDecode := by
  unfold Obligations.SampleWordsDecode
  decide

end Sys2Proof
end

section
/-! SUPPORT. The proofs of the statements about the sequencer (spec/40_control.md): first the word of an instruction,
what moving the pc does and leaves, and what a turn of the core is; then the statements, each an instruction's
meaning as updates of the state and the rules about those updates. -/

namespace Sys2Proof.Machine

/-! ## The one word of an instruction (R66) -/

/-- A well-formed instruction's encoding is its one word. -/
theorem onlyWord_of_encode {i : Instr} {w : Word} (hwf : i.wellFormed = true) (hw : encode i = w) :
    OnlyWord i w := by
  subst hw
  exact fun _ => decode_eq_instr_iff hwf

/-- A format J word with no index register has 18 reserved bits in a row (R63). -/
theorem formatJ_zero (op : BitVec 6) (tgt : BitVec 8) : formatJ op 0 tgt = op ++ 0#18 ++ tgt := by
  have hzeros : op ++ 0#8 ++ 0#2 ++ 0#8 = op ++ 0#18 := by
    revert op
    decide
  exact congrArg (· ++ tgt) hzeros

/-! ## Moving the pc, after one write or none (R24) -/

section
variable (s : State) (taken : Bool) (tgt : BitVec 8)

theorem State.onlyPc_setPc (v : Pc) : OnlyPc s (s.setPc v) :=
  ⟨fun _ _ => rfl, fun _ _ => rfl, ⟨rfl, rfl⟩, rfl, fun _ => rfl, fun _ => rfl,
    ⟨fun _ => rfl, ⟨rfl, rfl, rfl, rfl⟩, rfl, rfl, rfl⟩, rfl⟩

theorem State.onlyT_setT_setPc (b : Bool) (v : Pc) : OnlyT s ((s.setT b).setPc v) :=
  ⟨fun _ _ => rfl, fun _ _ => rfl, rfl, rfl, fun _ => rfl, fun _ => rfl,
    ⟨fun _ => rfl, ⟨rfl, rfl, rfl, rfl⟩, rfl, rfl, rfl⟩, rfl⟩

theorem State.onlyI_setI_setPc (k : IReg) (x : Half) (v : Pc) : OnlyI k s ((s.setI k x).setPc v) := by
  have hidx : KeepsI [k] s ((s.setI k x).setPc v) := fun j hj =>
    (s.getI_setI k j x).trans (if_neg (List.ne_of_not_mem_cons hj))
  exact ⟨fun _ _ => rfl, hidx, ⟨rfl, rfl⟩, rfl, fun _ => rfl, fun _ => rfl,
    ⟨fun _ => rfl, ⟨rfl, rfl, rfl, rfl⟩, rfl, rfl, rfl⟩, rfl⟩

/-- A branch writes the pc, whichever way it goes. -/
theorem State.branch_eq_setPc :
    s.branch taken tgt = s.setPc (if taken then tgt.setWidth 9 else s.pc + 1) := by
  cases taken <;> rfl

theorem State.onlyPc_branch : OnlyPc s (s.branch taken tgt) := by
  rw [State.branch_eq_setPc]
  exact s.onlyPc_setPc _

theorem State.onlyI_setI_branch (k : IReg) (x : Half) : OnlyI k s ((s.setI k x).branch taken tgt) := by
  rw [State.branch_eq_setPc]
  exact s.onlyI_setI_setPc k x _

variable {taken}

theorem State.branch_pc_taken (h : taken = true) : (s.branch taken tgt).pc = tgt.setWidth 9 := by
  rw [State.branch_pc, if_pos h]

theorem State.branch_pc_not_taken (h : taken = false) : (s.branch taken tgt).pc = s.pc + 1 := by
  rw [State.branch_pc, h, if_neg Bool.false_ne_true]

end

/-! ## Index register arithmetic (R79, R82) -/

/-- A decrement gives 0xFFFF from 0 alone, so that is what DBRA falls through on. -/
theorem sub_one_eq_max_iff (v : Half) : v - 1 = 0xFFFF#16 ↔ v = 0 := by bv_omega

/-- The bit index is the register modulo 256. -/
theorem bitIndex_eq_mod (k : Half) : bitIndex k = k.toNat % 256 := by
  rw [bitIndex, BitVec.extractLsb'_toNat, Nat.shiftRight_zero]

/-! ## The stop Done (R73) -/

/-- After a stop Done the interrupt output is IE (R156). -/
theorem State.irq_stopDone (s : State) (w : Word) : (s.stopDone w).irq = s.ctrl.ie := by
  simp [State.irq]

/-- A stop Done is observed as one, in the state it leaves (R170). -/
theorem State.observation_stopDone (s : State) (w : Word) :
    (s.stopDone w).observation = some ((s.stopDone w).observationOf .done) := rfl

/-! ## Fetch (R70, R48) -/

section
variable {s : State} {i : Instr} {w : Word} {rest : List HostEvent}

theorem State.fetch_listed (h : Mem.get? s.imem s.pc.toNat = some w) : s.fetch = (w, s) := by
  rw [State.fetch, h]

theorem State.fetch_unlisted (h : Mem.get? s.imem s.pc.toNat = none) :
    s.fetch = (Config.freeWord s.draws, { s with draws := s.draws + 1 }) := by
  rw [State.fetch, h]

/-- The word fetched does not depend on the host's events to come. -/
theorem State.fetch_fst_pending (s : State) (rest : List HostEvent) :
    ({ s with pending := rest } : State).fetch.1 = s.fetch.1 := by
  rcases s.fetch_cases with ⟨w, hw, hf⟩ | ⟨hn, hf⟩ <;> rw [hf]
  · rw [State.fetch_listed (s := { s with pending := rest }) hw]
  · rw [State.fetch_unlisted (s := { s with pending := rest }) hn]

/-! ## A turn of the core (R70) -/

theorem step_of_pending_nil (hp : s.pending = []) : step s = coreTurn s := by
  rw [step, hp]

theorem step_of_pending_coreTurn (hp : s.pending = .coreTurn :: rest) :
    step s = coreTurn { s with pending := rest } := by
  rw [step, hp]
  rfl

/-- While Idle a turn of the core does nothing (R27). -/
theorem coreTurn_idle (hb : s.status.busy = false) : coreTurn s = .next s := by
  rw [coreTurn, hb]
  rfl

/-- While Running a turn of the core is the instruction that the fetched word decodes to. -/
theorem coreTurn_of_decode (hr : s.rst = false) (hb : s.status.busy = true) (hpc : s.pc.toNat < 256)
    (hd : decode s.fetch.1 = .instr i) : coreTurn s = exec i s.fetch.2 := by
  have hturn : coreTurn s = coreStep s := by
    rw [coreTurn, hb, hr]
    rfl
  have hstep : coreStep s = runWord s.fetch.1 s.fetch.2 := if_neg (Nat.not_le.2 hpc)
  rw [hturn, hstep, runWord, hd]

end

/-! ## The statements -/

/-- Settles O7: both kinds of turn are `coreTurn`, and taking the turn off the list leaves the fetched word as it
is. -/
theorem stepRunsDecodedInstruction : Obligations.StepRunsDecodedInstruction := by
  refine ⟨fun s i hp hr hb hpc hd => ?own, fun s i rest hp hr hb hpc hd => ?listed,
    fun _ _ h => State.fetch_listed h, fun _ h => State.fetch_unlisted h,
    fun s hp hb => (step_of_pending_nil hp).trans (coreTurn_idle hb),
    fun s rest hp hb => (step_of_pending_coreTurn hp).trans (coreTurn_idle hb)⟩
  case own => rw [step_of_pending_nil hp, coreTurn_of_decode hr hb hpc hd]
  case listed =>
    rw [step_of_pending_coreTurn hp]
    exact coreTurn_of_decode hr hb hpc ((congrArg decode (s.fetch_fst_pending rest)).trans hd)

/-- Settles O27: NOP is `advance` and JMP is `jump`, and each writes the pc alone. -/
theorem nopAndJmpMoveOnlyPc : Obligations.NopAndJmpMoveOnlyPc :=
  ⟨onlyWord_of_encode rfl (by decide), fun s => ⟨s.advance, rfl, rfl, s.onlyPc_setPc _⟩,
    fun tgt => onlyWord_of_encode rfl (formatJ_zero 0x03 tgt),
    fun s tgt => ⟨s.jump tgt, rfl, rfl, s.onlyPc_setPc _⟩⟩

/-- Settles O28: HALT is the stop Done at its own word. -/
theorem haltStopsDone : Obligations.HaltStopsDone := by
  have hword : encode .halt = 0x08000000#32 := by decide
  refine ⟨onlyWord_of_encode rfl hword, fun s => ⟨s.stopDone (encode .halt), rfl, ?_⟩⟩
  rw [hword]
  exact ⟨s.keepsProgramState_stopDone _, ⟨rfl, rfl, rfl⟩, rfl, rfl, rfl, rfl, rfl, s.irq_stopDone _,
    s.observation_stopDone _, State.observation_busy⟩

/-- Settles O29: each is a branch on its flag, or on the flag's complement. -/
theorem conditionalBranchesFollowFlags : Obligations.ConditionalBranchesFollowFlags := by
  intro tgt
  refine ⟨onlyWord_of_encode rfl (formatJ_zero 0x04 tgt), onlyWord_of_encode rfl (formatJ_zero 0x05 tgt),
    onlyWord_of_encode rfl (formatJ_zero 0x06 tgt), onlyWord_of_encode rfl (formatJ_zero 0x07 tgt),
    fun s => ⟨?bz, ?bnz, ?bt, ?bnt⟩⟩
  case bz =>
    exact ⟨s.branch s.zFlag tgt, rfl, s.onlyPc_branch _ tgt, s.branch_pc_taken tgt, s.branch_pc_not_taken tgt⟩
  case bnz =>
    exact ⟨s.branch (!s.zFlag) tgt, rfl, s.onlyPc_branch _ tgt,
      fun h => s.branch_pc_taken tgt (congrArg not h), fun h => s.branch_pc_not_taken tgt (congrArg not h)⟩
  case bt =>
    exact ⟨s.branch s.tFlag tgt, rfl, s.onlyPc_branch _ tgt, s.branch_pc_taken tgt, s.branch_pc_not_taken tgt⟩
  case bnt =>
    exact ⟨s.branch (!s.tFlag) tgt, rfl, s.onlyPc_branch _ tgt,
      fun h => s.branch_pc_taken tgt (congrArg not h), fun h => s.branch_pc_not_taken tgt (congrArg not h)⟩

/-- Settles O30: the register is written before the branch, which is not taken exactly on 0xFFFF. -/
theorem dbraCountsDown : Obligations.DbraCountsDown := by
  intro ix tgt
  refine ⟨onlyWord_of_encode rfl rfl, fun s => ?_⟩
  have hval : ((s.setI ix (s.getI ix - 1)).branch (s.getI ix - 1 != 0xFFFF#16) tgt).getI ix = s.getI ix - 1 := by
    rw [State.getI_branch, State.getI_setI_self]
  refine ⟨_, rfl, s.onlyI_setI_branch _ tgt ix _, ?value, fun h => ⟨?wraps, ?falls⟩, fun h => ?taken⟩
  case value =>
    rw [hval]
    bv_omega
  case wraps => exact hval.trans ((sub_one_eq_max_iff _).2 h)
  case falls =>
    exact State.branch_pc_not_taken _ tgt (bne_eq_false_iff_eq.2 ((sub_one_eq_max_iff _).2 h))
  case taken => exact State.branch_pc_taken _ tgt (bne_iff_ne.2 fun hmax => h ((sub_one_eq_max_iff _).1 hmax))

/-- Settles O31: each writes one index register and advances. -/
theorem liAndAddiWriteIndex : Obligations.LiAndAddiWriteIndex := by
  intro ix imm
  refine ⟨onlyWord_of_encode rfl rfl, onlyWord_of_encode rfl rfl, fun s => ⟨?li, ?addi⟩⟩
  case li => exact ⟨_, rfl, s.getI_setI_self ix imm, rfl, s.onlyI_setI_setPc ix _ _⟩
  case addi =>
    have hval : (s.setI ix (s.getI ix + imm)).advance.getI ix = s.getI ix + imm := s.getI_setI_self ix _
    exact ⟨_, rfl, (congrArg BitVec.toNat hval).trans (BitVec.toNat_add _ _), rfl, s.onlyI_setI_setPc ix _ _⟩

/-- Settles O32: the bit tested goes to T, and the pc advances. -/
theorem btstTestsBit : Obligations.BtstTestsBit := by
  intro rs1 ix
  refine ⟨onlyWord_of_encode rfl rfl, fun s => ⟨_, rfl, ?_, rfl, s.onlyT_setT_setPc _ _⟩⟩
  exact congrArg (s.getB rs1).getLsbD (bitIndex_eq_mod (s.getI ix))

end Sys2Proof.Machine
end

section
/-! SUPPORT. The proofs of the statements about data movement (spec/41_data_movement.md): first a byte as a base-256
digit of its register's number, then what a write of one register, a load and a store in bounds do and leave unchanged;
then the statements. -/

namespace Sys2Proof.Machine

/-! ## A byte as a base-256 digit (R13) -/

/-- Bits `8k+7 .. 8k` of a value are digit `k` of its number. -/
theorem extract_byte_eq_digit {w : Nat} (v : BitVec w) (k : Nat) :
    v.extractLsb' (8 * k) 8 = BitVec.ofNat 8 (v.toNat / 256 ^ k) := by
  have hpow : 2 ^ (8 * k) = 256 ^ k := pow_mul 2 8 k
  rw [BitVec.extractLsb', Nat.shiftRight_eq_div_pow, hpow]

theorem bigByte_eq_digit (v : Big) {j : Nat} (hj : j < 32) :
    bigByte v j = BitVec.ofNat 8 (v.toNat / 256 ^ (32 - 1 - j)) := by
  have hlo : 248 - 8 * j = 8 * (32 - 1 - j) := by omega
  rw [bigByte, hlo, extract_byte_eq_digit]

theorem blockByte_eq_digit (v : Block) {j : Nat} (hj : j < 16) :
    blockByte v j = BitVec.ofNat 8 (v.toNat / 256 ^ (16 - 1 - j)) := by
  have hlo : 120 - 8 * j = 8 * (16 - 1 - j) := by omega
  rw [blockByte, hlo, extract_byte_eq_digit]

/-- Digits below `n` do not see a multiple of `256 ^ n`. -/
theorem ofNat_digit_add_mul_pow (b v : Nat) {k n : Nat} (hk : k < n) :
    BitVec.ofNat 8 ((b * 256 ^ n + v) / 256 ^ k) = BitVec.ofNat 8 (v / 256 ^ k) := by
  obtain ⟨d, rfl⟩ := Nat.exists_eq_add_of_lt hk
  have hsplit : b * 256 ^ (k + d + 1) + v = v + 256 ^ k * (256 * (b * 256 ^ d)) := by ring
  rw [hsplit, Nat.add_mul_div_left _ _ (by positivity)]
  exact BitVec.eq_of_toNat_eq (Nat.add_mul_mod_self_left _ 256 _)

/-- A byte string's bytes are the digits of its number, the first the highest: the converse of
`bytesBE_getElem`. -/
theorem natOfBytes_getElem (bs : List Byte) {j : Nat} (hj : j < bs.length) :
    bs[j]? = some (BitVec.ofNat 8 (natOfBytes bs / 256 ^ (bs.length - 1 - j))) := by
  induction bs generalizing j with
  | nil => exact absurd hj (Nat.not_lt_zero j)
  | cons b bs ih =>
    rw [natOfBytes_cons, List.length_cons, Nat.add_sub_cancel]
    cases j with
    | zero =>
      have hdiv : (b.toNat * 256 ^ bs.length + natOfBytes bs) / 256 ^ bs.length = b.toNat := by
        rw [Nat.mul_comm, Nat.mul_add_div (by positivity), Nat.div_eq_of_lt (natOfBytes_lt bs), Nat.add_zero]
      rw [List.getElem?_cons_zero, Nat.sub_zero, hdiv, BitVec.ofNat_toNat, BitVec.setWidth_eq]
    | succ j =>
      have hj' : j < bs.length := Nat.lt_of_succ_lt_succ hj
      rw [List.getElem?_cons_succ, ih hj', ofNat_digit_add_mul_pow _ _ (by omega)]
      congr 4
      omega

/-! ## A write of one B register -/

section
variable (s : State) (r : BReg) (v : Big)

theorem State.keepsB_setB_advance : KeepsB [r] s (s.setB r v).advance := fun _ hx =>
  s.getB_setB_ne v (List.ne_of_not_mem_cons hx)

theorem State.onlyB_setB_advance : OnlyB [r] s (s.setB r v).advance :=
  ⟨s.keepsB_setB_advance r v, fun _ _ => rfl, ⟨rfl, rfl⟩, rfl, fun _ => rfl, fun _ => rfl,
    ⟨fun _ => rfl, ⟨rfl, rfl, rfl, rfl⟩, rfl, rfl, rfl⟩, rfl⟩

theorem State.onlyBDraws_setB_advance {d : Nat} (hd : s.draws ≤ d) :
    OnlyBDraws [r] s (({ s with draws := d } : State).setB r v).advance :=
  ⟨State.keepsB_setB_advance { s with draws := d } r v, fun _ _ => rfl, ⟨rfl, rfl⟩, rfl, fun _ => rfl, fun _ => rfl,
    ⟨fun _ => rfl, ⟨rfl, rfl, rfl, rfl⟩, rfl, rfl, rfl⟩, hd⟩

end

/-! ## A load in bounds (R43, R48) -/

/-- `b` is the byte a read at `a` gives between `s` and `t`: the listed one, or a draw made between them. -/
def IsByteRead (s t : State) (a : Nat) (b : Byte) : Prop :=
  (∀ c, Mem.get? s.dmem a = some c → b = c) ∧
    (Mem.get? s.dmem a = none → ∃ k, s.draws ≤ k ∧ k < t.draws ∧ b = Config.freeByte k)

/-- A load in bounds: the destination holds a number of `n` digits, each the byte read at its address. -/
theorem loadBytes_reads {n ea : Nat} {i : Instr} (rd : BReg) (s : State) (hn : n ≤ 32) (h : ea + n ≤ 4096) :
    ∃ t, loadBytes n i rd ea s = .next t ∧ t.pc = s.pc + 1 ∧ OnlyBDraws [rd] s t ∧ (t.getB rd).toNat < 256 ^ n
      ∧ ∀ j < n, IsByteRead s t (ea + j) (BitVec.ofNat 8 ((t.getB rd).toNat / 256 ^ (n - 1 - j))) := by
  rcases loadBytes_cases n i rd ea s with ⟨-, hload⟩ | ⟨hout, -⟩
  case inr => exact absurd h (Nat.not_le.2 hout)
  have hlen := Mem.readBytes_length s.dmem ea s.draws n
  have hdraws := Mem.readBytes_draws_le s.dmem ea s.draws n
  have hbyte := Mem.readBytes_getElem s.dmem ea s.draws n
  generalize Mem.readBytes s.dmem ea s.draws n = r at *
  have hlt : natOfBytes r.1 < 256 ^ n := hlen ▸ natOfBytes_lt r.1
  have hval : ((({ s with draws := r.2 } : State).setB rd (BitVec.ofNat 256 (natOfBytes r.1))).advance.getB rd).toNat
      = natOfBytes r.1 := by
    have hfits : 256 ^ n ≤ 2 ^ 256 := Nat.pow_le_pow_right (n := 256) (by decide) hn
    rw [State.getB_advance, State.getB_setB_self, BitVec.toNat_ofNat, Nat.mod_eq_of_lt (hlt.trans_le hfits)]
  refine ⟨_, hload, rfl, s.onlyBDraws_setB_advance rd _ hdraws, hval.symm ▸ hlt, fun j hj => ?_⟩
  have hdigit := natOfBytes_getElem r.1 (hlen.symm ▸ hj)
  rw [hlen] at hdigit
  obtain ⟨hlisted, hdrawn⟩ := hbyte j hj
  rw [hval]
  refine ⟨fun c hc => Option.some.inj (hdigit.symm.trans (hlisted c hc)), fun hnone => ?_⟩
  obtain ⟨k, hlo, hhi, hk⟩ := hdrawn hnone
  exact ⟨k, hlo, hhi, Option.some.inj (hdigit.symm.trans hk)⟩

/-- A register whose number has 16 digits is its low half, and its upper half is 0. -/
theorem halves_of_lt {v : Big} (h : v.toNat < 256 ^ 16) :
    v.extractLsb' 128 128 = 0 ∧ (v.extractLsb' 0 128).toNat = v.toNat := by
  have hlt : v.toNat < 2 ^ 128 := h
  constructor
  · apply BitVec.eq_of_toNat_eq
    rw [BitVec.extractLsb'_toNat, Nat.shiftRight_eq_div_pow, Nat.div_eq_of_lt hlt]
    rfl
  · rw [BitVec.extractLsb'_toNat, Nat.shiftRight_zero, Nat.mod_eq_of_lt hlt]

/-! ## A store in bounds (R44) -/

theorem State.onlyBytes_memWrite_advance (s : State) (a n v : Nat) :
    OnlyBytes a n s (s.memWrite a n v).advance := by
  have houtside : KeepsBytesOutside a n s (s.memWrite a n v).advance := fun b hb =>
    (s.get?_memWrite a n v b).trans (if_neg (by omega))
  exact ⟨fun _ _ => rfl, fun _ _ => rfl, ⟨rfl, rfl⟩, rfl, fun _ => rfl, houtside,
    ⟨fun _ => rfl, ⟨rfl, rfl, rfl, rfl⟩, rfl, rfl, rfl⟩, rfl⟩

/-- A store in bounds: the bytes written are the value's `n` low digits, the highest at the lowest address. -/
theorem storeBytes_writes {n ea : Nat} {i : Instr} (v : Nat) (s : State) (h : ea + n ≤ 4096) :
    ∃ t, storeBytes n i v ea s = .next t ∧ t.pc = s.pc + 1 ∧ OnlyBytes ea n s t
      ∧ ∀ j < n, Mem.get? t.dmem (ea + j) = some (BitVec.ofNat 8 (v / 256 ^ (n - 1 - j))) := by
  refine ⟨_, storeBytes_in_bounds v s h, rfl, s.onlyBytes_memWrite_advance ea n v, fun j hj => ?_⟩
  rw [State.advance_dmem, State.get?_memWrite, if_pos (by omega), Nat.add_sub_cancel_left]

/-! ## CONST (R85, R86) -/

theorem exec_const_of_value {cid : ConstId} {v : Nat} (rd : BReg) (s : State) (h : constValue cid = some v) :
    exec (.const rd cid) s = .next (s.setB rd (BitVec.ofNat 256 v)).advance := by
  rw [exec, execConst, h]

theorem constValue_of_le {cid : ConstId} (h : cid.val ≤ 11) : ∃ v, constValue cid = some v := by
  have hwf : (Instr.const 0 cid).wellFormed = true := decide_eq_true h
  rcases constValue_cases 0 cid with ⟨-, hv⟩ | ⟨hill, -⟩
  · exact hv
  · exact absurd (hwf.symm.trans hill) (by decide)

/-! ## Words in format R with two operands (R63) -/

/-- A format R word with no second source and no modulus has 18 reserved bits in a row. -/
theorem formatR_zero (op : BitVec 6) (rd rs1 : BitVec 4) : formatR op rd rs1 0 0 = op ++ rd ++ rs1 ++ 0#18 := by
  apply BitVec.eq_of_toNat_eq
  simp only [formatR, toNat_append_add, BitVec.ofNat_eq_ofNat, BitVec.toNat_ofNat, Nat.zero_mod]
  omega

/-! ## The statements -/

/-- Settles O33: MOV is one register write and `advance`. -/
theorem movCopiesRegister : Obligations.MovCopiesRegister := fun rd rs1 =>
  ⟨onlyWord_of_encode rfl (formatR_zero 0x10 (BReg.bits rd) (BReg.bits rs1)),
    fun s => ⟨_, rfl, s.getB_setB_self rd _, rfl, s.onlyB_setB_advance rd _⟩⟩

/-- Settles O34: a number of the table has a value, which CONST writes; a reserved one is the word that O5 says is
illegal. -/
theorem constWritesTable : Obligations.ConstWritesTable := by
  obtain ⟨-, -, hreserved, -, -⟩ := reservedWordsAreIllegal
  intro rd cid
  refine ⟨fun hcid => onlyWord_of_encode (decide_eq_true hcid) rfl, hreserved rd cid, fun s hcid => ?_⟩
  obtain ⟨v, hv⟩ := constValue_of_le hcid
  refine ⟨_, exec_const_of_value rd s hv, rfl, s.onlyB_setB_advance rd _, ?table⟩
  rw [State.getB_advance, State.getB_setB_self, ← Option.map_some, ← hv]
  clear hv hcid
  revert cid
  decide

/-- Settles O35: the digits of the number loaded are the destination's bytes, and LDQ's 16 leave its upper half 0. -/
theorem loadsReadBytes : Obligations.LoadsReadBytes := by
  intro rd imm ix
  refine ⟨onlyWord_of_encode rfl rfl, onlyWord_of_encode rfl rfl, ?_⟩
  rintro s _ rfl
  refine ⟨fun h => ?ldw, fun h => ?ldq⟩
  case ldw =>
    obtain ⟨t, hload, hpc, hframe, -, hread⟩ := loadBytes_reads (i := .ldw rd imm ix) rd s (le_refl 32) h
    refine ⟨t, hload, hpc, hframe, fun j hj => ?_⟩
    rw [bigByte_eq_digit _ hj]
    exact hread j hj
  case ldq =>
    obtain ⟨t, hload, hpc, hframe, hlt, hread⟩ := loadBytes_reads (i := .ldq rd imm ix) rd s (by decide) h
    obtain ⟨hupper, hlow⟩ := halves_of_lt hlt
    refine ⟨t, hload, hpc, hframe, hupper, fun j hj => ?_⟩
    rw [blockByte_eq_digit _ hj, hlow]
    exact hread j hj

/-- Settles O36: the bytes written are the digits of the source's number, or of its low half's. -/
theorem storesWriteBytes : Obligations.StoresWriteBytes := by
  intro rd imm ix
  refine ⟨onlyWord_of_encode rfl rfl, onlyWord_of_encode rfl rfl, fun s => ⟨rfl, fun h => ?stw, fun h => ?stq⟩⟩
  case stw =>
    obtain ⟨t, hstore, hpc, hframe, hbytes⟩ := storeBytes_writes (i := .stw rd imm ix) (s.getBNat rd) s h
    refine ⟨t, hstore, hpc, hframe, fun j hj => ?_⟩
    rw [bigByte_eq_digit _ hj]
    exact hbytes j hj
  case stq =>
    obtain ⟨t, hstore, hpc, hframe, hbytes⟩ :=
      storeBytes_writes (i := .stq rd imm ix) (lowBlock (s.getB rd)).toNat s h
    refine ⟨t, hstore, hpc, hframe, fun j hj => ?_⟩
    rw [blockByte_eq_digit _ hj]
    exact hbytes j hj

end Sys2Proof.Machine
end

section
/-! SUPPORT. The proofs of the statements about the modular unit (spec/42_modular.md): first what a modular result does
and leaves unchanged, and when it is written; then the inverse, the Montgomery product and the conversions as residues;
then the statements, by tier. -/

namespace Sys2Proof.Machine

/-! ## A modular result (R93) -/

section
variable (s : State) (rd : BReg) {r : Nat} {m : Modulus}

theorem State.onlyBZ_putModular (r : Nat) : OnlyBZ rd s (s.putModular rd r) := by
  have hbig : KeepsB [rd] s (s.putModular rd r) := fun x hx =>
    (s.getB_putModular rd x r).trans (if_neg (List.ne_of_not_mem_cons hx))
  exact ⟨hbig, fun _ _ => rfl, rfl, rfl, fun _ => rfl, fun _ => rfl,
    ⟨fun _ => rfl, ⟨rfl, rfl, rfl, rfl⟩, rfl, rfl, rfl⟩, rfl⟩

/-- A residue fits its register. -/
theorem State.getBNat_putModular (hr : r < modulusValue m) : (s.putModular rd r).getBNat rd = r := by
  rw [State.getBNat, State.getB_putModular, if_pos rfl, BitVec.toNat_ofNat,
    Nat.mod_eq_of_lt (hr.trans (modulusValue_bounds m).1)]

theorem State.zFlag_putModular_iff : (s.putModular rd r).zFlag = true ↔ r = 0 := by
  rw [State.putModular_zFlag, zeroFlag, beq_iff_eq]

/-- Z is 1 exactly where the register written holds 0. -/
theorem State.zFlag_putModular_iff_getBNat (hr : r < modulusValue m) :
    (s.putModular rd r).zFlag = true ↔ (s.putModular rd r).getBNat rd = 0 := by
  rw [State.zFlag_putModular_iff, State.getBNat_putModular s rd hr]

end

/-! ## The test of the operands (R92) -/

section
variable {s : State} {i : Instr} {rd : BReg} {m : Modulus} {r a b : Nat}

theorem inRange_and_iff : (inRange m a && inRange m b) = true ↔ a < modulusValue m ∧ b < modulusValue m := by
  rw [Bool.and_eq_true, inRange_iff, inRange_iff]

theorem modularResult_in_range (ha : a < modulusValue m) :
    modularResult (inRange m a) i rd r s = .next (s.putModular rd r) :=
  if_pos ((inRange_iff m a).2 ha)

theorem modularResult_both_in_range (ha : a < modulusValue m) (hb : b < modulusValue m) :
    modularResult (inRange m a && inRange m b) i rd r s = .next (s.putModular rd r) :=
  if_pos (inRange_and_iff.2 ⟨ha, hb⟩)

theorem modularResult_out_of_range (ha : modulusValue m ≤ a) :
    modularResult (inRange m a) i rd r s = .next (s.raise .range (encode i)) :=
  if_neg fun h => Nat.not_lt.2 ha ((inRange_iff m a).1 h)

theorem modularResult_one_out_of_range (h : modulusValue m ≤ a ∨ modulusValue m ≤ b) :
    modularResult (inRange m a && inRange m b) i rd r s = .next (s.raise .range (encode i)) :=
  if_neg fun hin =>
    have ⟨ha, hb⟩ := inRange_and_iff.1 hin
    h.elim (Nat.not_le.2 ha) (Nat.not_le.2 hb)

end

/-! ## Inverses as residues (R94) -/

section
variable {m : Modulus} {a b x y : Nat}

theorem zero_lt_modulusValue (m : Modulus) : 0 < modulusValue m := Nat.zero_lt_of_lt (modulusValue_pos m)

theorem coprime_of_mul_mod_eq_one (h : a * x % modulusValue m = 1) : Nat.Coprime a (modulusValue m) :=
  Nat.coprime_of_mul_modEq_one x (h.trans (Nat.mod_eq_of_lt (modulusValue_pos m)).symm)

/-- Two numbers that invert the same number are one residue. -/
theorem modEq_of_inverses (hx : a * x % modulusValue m = 1) (hy : a * y % modulusValue m = 1) :
    x ≡ y [MOD modulusValue m] :=
  Nat.ModEq.cancel_left_of_coprime (coprime_of_mul_mod_eq_one hx).symm (hx.trans hy.symm)

/-! ## MMUL, MINV and the conversions as residues (R97, R98, R100, R101) -/

theorem unmont_lt (m : Modulus) (a : Nat) : unmont m a < modulusValue m := Nat.mod_lt _ (zero_lt_modulusValue m)

theorem mont_lt (m : Modulus) (a : Nat) : mont m a < modulusValue m := Nat.mod_lt _ (zero_lt_modulusValue m)

/-- FROMM is a product by whichever number inverts R. -/
theorem unmont_eq_of_inverse (h : x * 2 ^ 256 % modulusValue m = 1) : unmont m a = a * x % modulusValue m := by
  have hinv : radixInverse m ≡ x [MOD modulusValue m] := by
    apply modEq_of_inverses (a := montR)
    · rw [Nat.mul_comm, radixInverse_mul]
    · rw [Nat.mul_comm, montR, h]
  exact hinv.mul_left a

/-- MMUL is FROMM of the plain product (R97). -/
theorem montMul_eq_unmont (m : Modulus) (a b : Nat) : montMul m a b = unmont m (a * b) := rfl

theorem montMul_lt (m : Modulus) (a b : Nat) : montMul m a b < modulusValue m := unmont_lt m (a * b)

/-- FROMM is the product MMUL forms with 1 (R101). -/
theorem montMul_one (m : Modulus) (a : Nat) : montMul m a 1 = unmont m a := by
  rw [montMul_eq_unmont, Nat.mul_one]

/-- R is invertible, so only 0 has the Montgomery form 0. -/
theorem mont_eq_zero_iff (ha : a < modulusValue m) : mont m a = 0 ↔ a = 0 := by
  constructor
  · intro h
    have hback := unmont_mont m a
    rw [h, Nat.mod_eq_of_lt ha] at hback
    rw [← hback, unmont, Nat.zero_mul, Nat.zero_mod]
  · rintro rfl
    rw [mont, Nat.zero_mul, Nat.zero_mod]

theorem montInv_zero (m : Modulus) : montInv m 0 = 0 := if_pos rfl

theorem montInv_lt (m : Modulus) (a : Nat) : montInv m a < modulusValue m := by
  rw [montInv]
  split
  · exact zero_lt_modulusValue m
  · exact Nat.mod_lt _ (zero_lt_modulusValue m)

/-- MINV is R² times whichever number inverts the operand. -/
theorem montInv_eq_of_inverse (ha : a < modulusValue m) (h : a * x % modulusValue m = 1) :
    montInv m a = 2 ^ 256 * 2 ^ 256 * x % modulusValue m := by
  have hne : a ≠ 0 := by
    rintro rfl
    rw [Nat.zero_mul, Nat.zero_mod] at h
    exact absurd h (by decide)
  have hinv : modInv (modulusValue m) a ≡ x [MOD modulusValue m] :=
    modEq_of_inverses (modInv_spec m a ha (coprime_of_mul_mod_eq_one h)) h
  rw [montInv, if_neg hne]
  exact hinv.mul_left _

end

/-! ## One subtraction reduces any register (R99) -/

theorem mod_modulusValue_cases {m : Modulus} {a : Nat} (ha : a < 2 ^ 256) :
    a % modulusValue m = a ∨ a % modulusValue m + modulusValue m = a := by
  by_cases hlt : a < modulusValue m
  · exact .inl (Nat.mod_eq_of_lt hlt)
  · have hle : modulusValue m ≤ a := Nat.not_lt.1 hlt
    have hrest : a - modulusValue m < modulusValue m := by
      have := (modulusValue_bounds m).2
      omega
    right
    rw [Nat.mod_eq_sub_mod hle, Nat.mod_eq_of_lt hrest, Nat.sub_add_cancel hle]

/-! ## The statements -/

/-- Settles O41: two inverses of the operand are one residue, and Euclid's algorithm gives one. -/
theorem minvIsMontgomeryInverse : Obligations.MinvIsMontgomeryInverse := by
  intro rd rs1 m
  refine ⟨onlyWord_of_encode rfl rfl, fun s ha => ?_⟩
  have hval := s.getBNat_putModular rd (montInv_lt m (s.getBNat rs1))
  refine ⟨_, modularResult_in_range ha, rfl, s.onlyBZ_putModular rd _, ?below, fun hzero => ?zero,
    fun ainv hinv => ?inverse, s.zFlag_putModular_iff_getBNat rd (montInv_lt m _)⟩
  case below => exact hval.symm ▸ montInv_lt m _
  case zero => rw [hval, hzero, montInv_zero]
  case inverse => exact hval.trans (montInv_eq_of_inverse ha hinv)

/-- Settles O43: both conversions are the Montgomery products by R² and by 1, and R⁻¹ · R is 1. -/
theorem tomAndFrommConvert : Obligations.TomAndFrommConvert := by
  intro rd rs1 m
  refine ⟨onlyWord_of_encode rfl rfl, onlyWord_of_encode rfl rfl, fun s ha => ⟨?tom, ?fromm⟩⟩
  case tom =>
    have hval := s.getBNat_putModular rd (mont_lt m (s.getBNat rs1))
    refine ⟨_, modularResult_in_range ha, rfl, s.onlyBZ_putModular rd _, hval,
      (s.zFlag_putModular_iff rd).trans (mont_eq_zero_iff ha), fun rx hx => ?mmul, _,
      modularResult_in_range (hval.symm ▸ mont_lt m _), ?back⟩
    case mmul =>
      have hb : s.getBNat rx < modulusValue m := hx ▸ Nat.mod_lt _ (zero_lt_modulusValue m)
      rw [← montMul_radixSquare m (s.getBNat rs1) (s.getBNat rx) hx]
      exact modularResult_both_in_range ha hb
    case back =>
      apply BitVec.eq_of_toNat_eq
      refine (State.getBNat_putModular _ rd (unmont_lt m _)).trans ?_
      rw [hval, unmont_mont, Nat.mod_eq_of_lt ha]
      rfl
  case fromm =>
    have hval := s.getBNat_putModular rd (unmont_lt m (s.getBNat rs1))
    refine ⟨_, modularResult_in_range ha, rfl, s.onlyBZ_putModular rd _, hval.symm ▸ unmont_lt m _, ?product,
      fun rinv hinv => hval.trans (unmont_eq_of_inverse hinv), s.zFlag_putModular_iff_getBNat rd (unmont_lt m _),
      fun rx hx => ?mmul⟩
    case product =>
      rw [hval]
      exact (unmont_mul_radix m _).trans (Nat.mod_eq_of_lt ha)
    case mmul =>
      have hb : s.getBNat rx < modulusValue m := hx.symm ▸ modulusValue_pos m
      rw [← montMul_one, ← hx]
      exact modularResult_both_in_range ha hb

/-- Settles O39: the sum and the difference are reduced exactly, and a residue fits the register. -/
theorem addAndSubAreModular : Obligations.AddAndSubAreModular := by
  intro rd rs1 rs2 m
  refine ⟨onlyWord_of_encode rfl rfl, onlyWord_of_encode rfl rfl, fun s ha hb => ⟨?madd, ?msub⟩⟩
  case madd =>
    have hlt := modAdd_lt (zero_lt_modulusValue m) (s.getBNat rs1) (s.getBNat rs2)
    refine ⟨_, modularResult_both_in_range ha hb, rfl, s.onlyBZ_putModular rd _, ?_,
      s.zFlag_putModular_iff_getBNat rd hlt⟩
    rw [s.getBNat_putModular rd hlt, modAdd, Int.natCast_mod, Int.natCast_add]
  case msub =>
    have hlt := modSub_lt (zero_lt_modulusValue m) (s.getBNat rs1) (s.getBNat rs2)
    refine ⟨_, modularResult_both_in_range ha hb, rfl, s.onlyBZ_putModular rd _, ?_,
      s.zFlag_putModular_iff_getBNat rd hlt⟩
    rw [s.getBNat_putModular rd hlt, modSub_int hb.le]

/-- Settles O40: the Montgomery product is FROMM's residue of the plain product. -/
theorem mmulIsMontgomeryProduct : Obligations.MmulIsMontgomeryProduct := by
  intro rd rs1 rs2 m
  refine ⟨onlyWord_of_encode rfl rfl, fun s ha hb => ?_⟩
  have hlt := montMul_lt m (s.getBNat rs1) (s.getBNat rs2)
  have hval := s.getBNat_putModular rd hlt
  refine ⟨_, modularResult_both_in_range ha hb, rfl, s.onlyBZ_putModular rd _, hval.symm ▸ hlt, ?product,
    fun rinv hinv => ?inverse, s.zFlag_putModular_iff_getBNat rd hlt⟩
  case product =>
    rw [hval, montMul_eq_unmont]
    exact unmont_mul_radix m _
  case inverse => rw [hval, montMul_eq_unmont, unmont_eq_of_inverse hinv]

/-- Settles O42: MRED writes a residue with no test of the operand, and RCHK writes T alone. -/
theorem mredAndRchkTakeAnyValue : Obligations.MredAndRchkTakeAnyValue := by
  intro rd rs1 m
  refine ⟨onlyWord_of_encode rfl rfl, onlyWord_of_encode rfl rfl, fun s => ⟨?mred, ?rchk⟩⟩
  case mred =>
    have hlt : s.getBNat rs1 % modulusValue m < modulusValue m := Nat.mod_lt _ (zero_lt_modulusValue m)
    have hval := s.getBNat_putModular rd hlt
    refine ⟨_, rfl, rfl, s.onlyBZ_putModular rd _, hval, s.zFlag_putModular_iff_getBNat rd hlt, ?_⟩
    rw [hval]
    exact mod_modulusValue_cases (s.getB rs1).isLt
  case rchk =>
    refine ⟨_, rfl, rfl, s.onlyT_setT_setPc _ _, ?_⟩
    rw [State.advance_tFlag, State.setT_tFlag, Bool.and_eq_true, decide_eq_true_iff, inRange_iff]

/-- Settles O44: the operands are tested before any effect. -/
theorem outOfRangeRaisesRange : Obligations.OutOfRangeRaisesRange := by
  intro s rd rs1 rs2 m
  refine ⟨fun h => ⟨?madd, ?msub, ?mmul⟩, fun h => ⟨?minv, ?tom, ?fromm⟩⟩
  case madd | msub | mmul => exact faultsWith_of_raise (modularResult_one_out_of_range h)
  case minv | tom | fromm => exact faultsWith_of_raise (modularResult_out_of_range h)

end Sys2Proof.Machine
end

section
/-! SUPPORT. The proofs of the statements about the point unit (spec/43_point.md): first F_P, in which each
operation on numbers is the ring's; then a point written to a slot, and the test of the source slots; then the doubling
and the addition as formulas in F_P, and the curve; then the statements, by tier. -/

namespace Sys2Proof.Machine

/-! ## Words in format S with fewer than two sources (R63) -/

/-- An absent source or destination joins the reserved bits beside it to one field of zeros. -/
theorem formatS_absent_operands (op : BitVec 6) (sd ss1 : BitVec 2) :
    formatS op sd ss1 0 = op ++ sd ++ 0#2 ++ ss1 ++ 0#20 ∧ formatS op sd 0 0 = op ++ sd ++ 0#24
      ∧ formatS op 0 ss1 0 = op ++ 0#4 ++ ss1 ++ 0#20 := by
  refine ⟨?_, ?_, ?_⟩
  all_goals
    apply BitVec.eq_of_toNat_eq
    simp only [formatS, toNat_append_add, BitVec.ofNat_eq_ofNat, BitVec.toNat_ofNat, Nat.zero_mod]
    omega

/-! ## F_P (R16): the operations on numbers are those of the ring -/

section
variable (x y v : Nat)

theorem curveP_pos : 0 < curveP := zero_lt_modulusValue .p

theorem fadd_lt : fadd x y < curveP := modAdd_lt curveP_pos x y
theorem fsub_lt : fsub x y < curveP := modSub_lt curveP_pos x y
theorem fmul_lt : fmul x y < curveP := modMul_lt curveP_pos x y
theorem fsq_lt : fsq x < curveP := fmul_lt x x

theorem cast_fadd : ((fadd x y : Nat) : ZMod curveP) = x + y := by
  rw [fadd, modAdd, ZMod.natCast_mod, Nat.cast_add]

theorem cast_fmul : ((fmul x y : Nat) : ZMod curveP) = x * y := by
  rw [fmul, modMul, ZMod.natCast_mod, Nat.cast_mul]

theorem cast_fsq : ((fsq x : Nat) : ZMod curveP) = x ^ 2 := by
  rw [fsq, cast_fmul, sq]

variable {x y v}

theorem cast_fsub (hy : y < curveP) : ((fsub x y : Nat) : ZMod curveP) = x - y := by
  rw [fsub, modSub, ZMod.natCast_mod, Nat.cast_add, Nat.cast_sub hy.le, ZMod.natCast_self, zero_sub, sub_eq_add_neg]

/-- Reduced numbers are one element of F_P exactly where they are equal. -/
theorem cast_inj_of_lt (hx : x < curveP) (hy : y < curveP) : (x : ZMod curveP) = y ↔ x = y := by
  rw [ZMod.natCast_eq_natCast_iff', Nat.mod_eq_of_lt hx, Nat.mod_eq_of_lt hy]

theorem cast_eq_zero_iff_of_lt (hx : x < curveP) : (x : ZMod curveP) = 0 ↔ x = 0 := by
  rw [← Nat.cast_zero, cast_inj_of_lt hx curveP_pos]

/-- The Montgomery form is the product by R. -/
theorem cast_mont : ((mont .p x : Nat) : ZMod curveP) = 2 ^ 256 * x := by
  rw [mont, modulusValue, ZMod.natCast_mod, Nat.cast_mul, montR, Nat.cast_pow, Nat.cast_ofNat, mul_comm]

/-- `dec` of a Montgomery form is the element it stands for (R16). -/
theorem cast_unmont {X : ZMod curveP} (h : (v : ZMod curveP) = 2 ^ 256 * X) :
    ((unmont .p v : Nat) : ZMod curveP) = X := by
  have hinv : ((rInvP * montR : Nat) : ZMod curveP) = (1 : Nat) :=
    (ZMod.natCast_eq_natCast_iff' _ _ _).2 (radixInverse_mul .p)
  rw [Nat.cast_mul, montR, Nat.cast_pow, Nat.cast_ofNat, Nat.cast_one] at hinv
  rw [unmont, modulusValue, radixInverse, ZMod.natCast_mod, Nat.cast_mul, h]
  linear_combination X * hinv

theorem unmont_eq_zero_iff (hv : v < curveP) : unmont .p v = 0 ↔ v = 0 := by
  rw [← mont_eq_zero_iff (unmont_lt .p v), mont_unmont, modulusValue, Nat.mod_eq_of_lt hv]

end

/-! ## A point written to a slot (R104, R105) -/

/-- Every coordinate is below P. -/
def Jacobian.Reduced (q : Jacobian) : Prop := q.x < curveP ∧ q.y < curveP ∧ q.z < curveP

/-- Slot `k` holds the canonical O (R105). -/
def State.HoldsInfinity (t : State) (k : Slot) : Prop :=
  t.getBNat (slotX k) = rModP ∧ t.getBNat (slotY k) = rModP ∧ t.getBNat (slotZ k) = 0

/-- Slot `k` holds the reduced Montgomery forms of X, Y and Z (R104). -/
def State.HoldsTriple (t : State) (k : Slot) (X Y Z : ZMod curveP) : Prop :=
  t.getBNat (slotX k) < curveP ∧ t.getBNat (slotY k) < curveP ∧ t.getBNat (slotZ k) < curveP
    ∧ (t.getBNat (slotX k) : ZMod curveP) = 2 ^ 256 * X
    ∧ (t.getBNat (slotY k) : ZMod curveP) = 2 ^ 256 * Y
    ∧ (t.getBNat (slotZ k) : ZMod curveP) = 2 ^ 256 * Z

/-- A Montgomery form fits its register. -/
theorem toNat_encCoord (x : Nat) : (encCoord x).toNat = mont .p x := by
  rw [encCoord, BitVec.toNat_ofNat, Nat.mod_eq_of_lt ((mont_lt .p x).trans (modulusValue_bounds .p).1)]

/-- `enc` undoes `dec` on a register in range. -/
theorem encCoord_unmont {v : Big} (hv : v.toNat < curveP) : encCoord (unmont .p v.toNat) = v := by
  apply BitVec.eq_of_toNat_eq
  rw [toNat_encCoord, mont_unmont, modulusValue, Nat.mod_eq_of_lt hv]

section
variable (s : State) (k : Slot) (q : Jacobian)

theorem State.onlyB_putPoint_advance (r : PointResult) :
    OnlyB [slotX k, slotY k, slotZ k] s (s.putPoint k r).advance := by
  have hbig : KeepsB [slotX k, slotY k, slotZ k] s (s.putPoint k r).advance := fun x hx => by
    simp only [List.mem_cons, List.not_mem_nil, or_false, not_or] at hx
    obtain ⟨hxx, hxy, hxz⟩ := hx
    exact s.getB_putPoint_of_ne k r x hxx hxy hxz
  refine ⟨hbig, ?_⟩
  cases r <;> exact ⟨fun _ _ => rfl, ⟨rfl, rfl⟩, rfl, fun _ => rfl, fun _ => rfl,
    ⟨fun _ => rfl, ⟨rfl, rfl, rfl, rfl⟩, rfl, rfl, rfl⟩, rfl⟩

theorem State.putPoint_advance_pc (r : PointResult) : (s.putPoint k r).advance.pc = s.pc + 1 := by
  rw [State.advance_pc, State.putPoint_pc]

theorem State.getB_setSlot_advance (x y z : Big) :
    (s.setSlot k x y z).advance.getB (slotX k) = x ∧ (s.setSlot k x y z).advance.getB (slotY k) = y
      ∧ (s.setSlot k x y z).advance.getB (slotZ k) = z :=
  ⟨s.getB_setSlot_slotX k x y z, s.getB_setSlot_slotY k x y z, s.getB_setSlot_slotZ k x y z⟩

theorem State.getB_putPoint_triple :
    (s.putPoint k (.triple q)).advance.getB (slotX k) = encCoord q.x
      ∧ (s.putPoint k (.triple q)).advance.getB (slotY k) = encCoord q.y
      ∧ (s.putPoint k (.triple q)).advance.getB (slotZ k) = encCoord q.z := by
  rw [State.putPoint]
  exact s.getB_setSlot_advance k _ _ _

theorem State.holdsInfinity_putPoint : (s.putPoint k .infinity).advance.HoldsInfinity k := by
  obtain ⟨hx, hy, hz⟩ := s.getB_setSlot_advance k (BitVec.ofNat 256 rModP) (BitVec.ofNat 256 rModP) 0
  have hR : (BitVec.ofNat 256 rModP).toNat = rModP := by decide
  rw [State.putPoint]
  exact ⟨(congrArg BitVec.toNat hx).trans hR, (congrArg BitVec.toNat hy).trans hR, congrArg BitVec.toNat hz⟩

theorem State.getBNat_putPoint_triple :
    (s.putPoint k (.triple q)).advance.getBNat (slotX k) = mont .p q.x
      ∧ (s.putPoint k (.triple q)).advance.getBNat (slotY k) = mont .p q.y
      ∧ (s.putPoint k (.triple q)).advance.getBNat (slotZ k) = mont .p q.z := by
  obtain ⟨hx, hy, hz⟩ := s.getB_putPoint_triple k q
  simp only [State.getBNat, hx, hy, hz, toNat_encCoord, and_self]

theorem State.holdsTriple_putPoint : (s.putPoint k (.triple q)).advance.HoldsTriple k q.x q.y q.z := by
  obtain ⟨hx, hy, hz⟩ := s.getBNat_putPoint_triple k q
  rw [State.HoldsTriple, hx, hy, hz]
  exact ⟨mont_lt .p _, mont_lt .p _, mont_lt .p _, cast_mont, cast_mont, cast_mont⟩

theorem State.slotInRange_putPoint : (s.putPoint k (.triple q)).advance.slotInRange k = true := by
  obtain ⟨hx, hy, hz, -⟩ := s.holdsTriple_putPoint k q
  exact (State.slotInRange_iff _ k).2 ⟨hx, hy, hz⟩

variable {q} in
/-- A reduced point reads back as it was written. -/
theorem State.slotPoint_putPoint (hq : q.Reduced) : (s.putPoint k (.triple q)).advance.slotPoint k = q := by
  obtain ⟨hx, hy, hz⟩ := s.getBNat_putPoint_triple k q
  obtain ⟨hqx, hqy, hqz⟩ := hq
  rw [State.slotPoint, hx, hy, hz]
  simp only [unmont_mont, modulusValue, Nat.mod_eq_of_lt hqx, Nat.mod_eq_of_lt hqy, Nat.mod_eq_of_lt hqz]

variable {s} {k} in
/-- A point in range is copied to another slot bit for bit. -/
theorem State.putPoint_slotPoint (sd : Slot) (h : s.slotInRange k = true) :
    s.putPoint sd (.triple (s.slotPoint k))
      = s.setSlot sd (s.getB (slotX k)) (s.getB (slotY k)) (s.getB (slotZ k)) := by
  obtain ⟨hx, hy, hz⟩ := (s.slotInRange_iff k).1 h
  simp only [State.putPoint, State.slotPoint, State.getBNat, encCoord_unmont hx, encCoord_unmont hy,
    encCoord_unmont hz]

/-- What `dec` gives is reduced. -/
theorem State.reduced_slotPoint : (s.slotPoint k).Reduced :=
  ⟨unmont_lt .p _, unmont_lt .p _, unmont_lt .p _⟩

variable {s} {k} in
/-- What `dec` gives are the elements whose Montgomery forms the slot holds. -/
theorem State.cast_slotPoint {X Y Z : ZMod curveP} (hX : (s.getBNat (slotX k) : ZMod curveP) = 2 ^ 256 * X)
    (hY : (s.getBNat (slotY k) : ZMod curveP) = 2 ^ 256 * Y)
    (hZ : (s.getBNat (slotZ k) : ZMod curveP) = 2 ^ 256 * Z) :
    ((s.slotPoint k).x : ZMod curveP) = X ∧ ((s.slotPoint k).y : ZMod curveP) = Y
      ∧ ((s.slotPoint k).z : ZMod curveP) = Z :=
  ⟨cast_unmont hX, cast_unmont hY, cast_unmont hZ⟩

end

/-! ## The test of the source slots (R106) -/

section
variable {s : State} {ss1 ss2 : Slot} (sd : Slot)

theorem exec_pdbl_in_range (h : s.slotInRange ss1 = true) :
    exec (.pdbl sd ss1) s = .next (s.putPoint sd (pointDouble (s.slotPoint ss1))).advance := if_pos h

theorem exec_padd_in_range (h1 : s.slotInRange ss1 = true) (h2 : s.slotInRange ss2 = true) :
    exec (.padd sd ss1 ss2) s = .next (s.putPoint sd (pointAdd (s.slotPoint ss1) (s.slotPoint ss2))).advance :=
  if_pos (Bool.and_eq_true_iff.2 ⟨h1, h2⟩)

/-- PCHK of a slot in range writes the test of its point to T and moves the pc (R111). -/
theorem exec_pchk_in_range (h : s.slotInRange ss1 = true) :
    ∃ t, exec (.pchk ss1) s = .next t ∧ t.pc = s.pc + 1 ∧ OnlyT s t ∧ t.status = s.status
      ∧ t.tFlag = onCurve (s.slotPoint ss1) := by
  refine ⟨_, if_pos h, ?_, s.onlyT_setT_setPc _ _, ?_, ?_⟩
  · rw [State.advance_pc, State.setT_pc]
  · rw [State.advance_status, State.setT_status]
  · rw [State.advance_tFlag, State.setT_tFlag]

theorem exec_pdbl_out_of_range (h : ¬ s.slotInRange ss1 = true) :
    exec (.pdbl sd ss1) s = .next (s.raise .range (encode (.pdbl sd ss1))) := if_neg h

theorem exec_padd_out_of_range (h : ¬ s.slotInRange ss1 = true ∨ ¬ s.slotInRange ss2 = true) :
    exec (.padd sd ss1 ss2) s = .next (s.raise .range (encode (.padd sd ss1 ss2))) :=
  if_neg fun hin =>
    have ⟨h1, h2⟩ := Bool.and_eq_true_iff.1 hin
    h.elim (absurd h1) (absurd h2)

theorem exec_pchk_out_of_range (h : ¬ s.slotInRange ss1 = true) :
    exec (.pchk ss1) s = .next (s.raise .range (encode (.pchk ss1))) := if_neg h

end

/-! ## Doubling in F_P (R109) -/

/-- The triple (X3, Y3, Z3) that doubling computes for a finite point. -/
def doubleTriple (q : Jacobian) : Jacobian :=
  let delta := fsq q.z
  let gamma := fsq q.y
  let beta := fmul q.x gamma
  let alpha := fmul 3 (fmul (fsub q.x delta) (fadd q.x delta))
  let x3 := fsub (fsq alpha) (fmul 8 beta)
  ⟨x3, fsub (fmul alpha (fsub (fmul 4 beta) x3)) (fmul 8 (fsq gamma)),
    fsub (fsub (fsq (fadd q.y q.z)) gamma) delta⟩

theorem reduced_doubleTriple (q : Jacobian) : (doubleTriple q).Reduced := ⟨fsub_lt _ _, fsub_lt _ _, fsub_lt _ _⟩

theorem pointDouble_eq (q : Jacobian) :
    pointDouble q = if q.z = 0 then .infinity
      else if (doubleTriple q).z = 0 then .infinity else .triple (doubleTriple q) := rfl

theorem pointDouble_infinity {q : Jacobian} (h : q.z = 0 ∨ (doubleTriple q).z = 0) : pointDouble q = .infinity := by
  rw [pointDouble_eq]
  split
  · rfl
  · next hz => exact if_pos (h.resolve_left hz)

theorem pointDouble_finite {q : Jacobian} (hz : q.z ≠ 0) (hz3 : (doubleTriple q).z ≠ 0) :
    pointDouble q = .triple (doubleTriple q) := by
  rw [pointDouble_eq, if_neg hz, if_neg hz3]

section
variable (q : Jacobian)

theorem cast_doubleTriple_x : ((doubleTriple q).x : ZMod curveP)
    = (3 * (q.x - q.z ^ 2) * (q.x + q.z ^ 2)) ^ 2 - 8 * (q.x * q.y ^ 2) := by
  simp only [doubleTriple, cast_fsub, cast_fsq, cast_fmul, cast_fadd, fmul_lt, fsq_lt, Nat.cast_ofNat, mul_assoc]

theorem cast_doubleTriple_y : ((doubleTriple q).y : ZMod curveP)
    = 3 * (q.x - q.z ^ 2) * (q.x + q.z ^ 2) * (4 * (q.x * q.y ^ 2) - (doubleTriple q).x) - 8 * (q.y ^ 2) ^ 2 := by
  simp only [doubleTriple, cast_fsub, cast_fsq, cast_fmul, cast_fadd, fmul_lt, fsq_lt, fsub_lt, Nat.cast_ofNat,
    mul_assoc]

theorem cast_doubleTriple_z : ((doubleTriple q).z : ZMod curveP) = (q.y + q.z) ^ 2 - q.y ^ 2 - q.z ^ 2 := by
  simp only [doubleTriple, cast_fsub, cast_fsq, cast_fadd, fsq_lt]

end

/-! ## Addition in F_P (R110) -/

/-- The difference H = U2 − U1. -/
def addH (p q : Jacobian) : Nat := fsub (fmul q.x (fsq p.z)) (fmul p.x (fsq q.z))

/-- The doubled difference r = 2(S2 − S1). -/
def addR (p q : Jacobian) : Nat := fmul 2 (fsub (fmul (fmul q.y p.z) (fsq p.z)) (fmul (fmul p.y q.z) (fsq q.z)))

/-- The triple (X3, Y3, Z3) that addition computes for finite points with H ≠ 0. -/
def addTriple (p q : Jacobian) : Jacobian :=
  let i := fsq (fmul 2 (addH p q))
  let j := fmul (addH p q) i
  let v := fmul (fmul p.x (fsq q.z)) i
  let x3 := fsub (fsub (fsq (addR p q)) j) (fmul 2 v)
  ⟨x3, fsub (fmul (addR p q) (fsub v x3)) (fmul 2 (fmul (fmul (fmul p.y q.z) (fsq q.z)) j)),
    fmul (fsub (fsub (fsq (fadd p.z q.z)) (fsq p.z)) (fsq q.z)) (addH p q)⟩

section
variable {p q : Jacobian}

theorem pointAdd_infinities (hp : p.z = 0) (hq : q.z = 0) : pointAdd p q = .infinity := by
  rw [pointAdd, if_pos hp, if_pos hq]

theorem pointAdd_first_infinity (hp : p.z = 0) (hq : q.z ≠ 0) : pointAdd p q = .triple q := by
  rw [pointAdd, if_pos hp, if_neg hq]

theorem pointAdd_second_infinity (hp : p.z ≠ 0) (hq : q.z = 0) : pointAdd p q = .triple p := by
  rw [pointAdd, if_neg hp, if_pos hq]

theorem pointAdd_finite (hp : p.z ≠ 0) (hq : q.z ≠ 0) :
    pointAdd p q = if addH p q = 0 then if addR p q = 0 then pointDouble p else .infinity
      else .triple (addTriple p q) := by
  rw [pointAdd, if_neg hp, if_neg hq]
  rfl

end

section
variable (p q : Jacobian)

theorem addH_lt : addH p q < curveP := fsub_lt _ _
theorem addR_lt : addR p q < curveP := fmul_lt _ _

theorem cast_addH : (addH p q : ZMod curveP) = q.x * p.z ^ 2 - p.x * q.z ^ 2 := by
  simp only [addH, cast_fsub, cast_fmul, cast_fsq, fmul_lt]

theorem cast_addR : (addR p q : ZMod curveP) = 2 * (q.y * p.z * p.z ^ 2 - p.y * q.z * q.z ^ 2) := by
  simp only [addR, cast_fsub, cast_fmul, cast_fsq, fmul_lt, Nat.cast_ofNat]

theorem cast_addTriple_x : ((addTriple p q).x : ZMod curveP)
    = addR p q ^ 2 - addH p q * (2 * addH p q) ^ 2 - 2 * (p.x * q.z ^ 2 * (2 * addH p q) ^ 2) := by
  simp only [addTriple, cast_fsub, cast_fmul, cast_fsq, fmul_lt, Nat.cast_ofNat]

theorem cast_addTriple_y : ((addTriple p q).y : ZMod curveP)
    = addR p q * (p.x * q.z ^ 2 * (2 * addH p q) ^ 2 - (addTriple p q).x)
      - 2 * (p.y * q.z * q.z ^ 2) * (addH p q * (2 * addH p q) ^ 2) := by
  simp only [addTriple, cast_fsub, cast_fmul, cast_fsq, fmul_lt, fsub_lt, Nat.cast_ofNat, mul_assoc]

theorem cast_addTriple_z : ((addTriple p q).z : ZMod curveP)
    = ((p.z + q.z) ^ 2 - p.z ^ 2 - q.z ^ 2) * addH p q := by
  simp only [addTriple, cast_fsub, cast_fmul, cast_fsq, cast_fadd, fsq_lt]

end

/-! ## The curve (R103, R111) -/

theorem cast_curveA : (curveA : ZMod curveP) = curveP - 3 := by
  rw [curveA_eq, Nat.cast_sub (by decide), Nat.cast_ofNat]

theorem onCurve_iff {q : Jacobian} (hz : q.z < curveP) :
    onCurve q = true ↔ (q.z : ZMod curveP) ≠ 0
      ∧ (q.y : ZMod curveP) ^ 2 = q.x ^ 3 + (curveP - 3) * q.x * q.z ^ 4 + curveB * q.z ^ 6 := by
  have hcubic : (q.x : ZMod curveP) ^ 3 + (curveP - 3) * q.x * q.z ^ 4 + curveB * q.z ^ 6
      = ((fadd (fadd (fmul (fsq q.x) q.x) (fmul (fmul curveA q.x) (fsq (fsq q.z))))
        (fmul curveB (fmul (fsq (fsq q.z)) (fsq q.z))) : Nat) : ZMod curveP) := by
    simp only [cast_fadd, cast_fmul, cast_fsq, cast_curveA]
    ring
  rw [hcubic, ← cast_fsq, cast_inj_of_lt (fsq_lt _) (fadd_lt _ _), ne_eq, cast_eq_zero_iff_of_lt hz]
  simp only [onCurve, Bool.and_eq_true, bne_iff_ne, beq_iff_eq, ne_eq]

/-- The doubling formulas keep to a curve with a = −3, in any ring: the equation for the result is the one for the
operand times 64·Y⁶. -/
theorem doubling_keeps_equation {K : Type} [CommRing K] {X Y Z b : K}
    (h : Y ^ 2 = X ^ 3 - 3 * X * Z ^ 4 + b * Z ^ 6) {alpha X3 Y3 Z3 : K}
    (halpha : alpha = 3 * (X - Z ^ 2) * (X + Z ^ 2)) (hX3 : X3 = alpha ^ 2 - 8 * (X * Y ^ 2))
    (hY3 : Y3 = alpha * (4 * (X * Y ^ 2) - X3) - 8 * (Y ^ 2) ^ 2) (hZ3 : Z3 = (Y + Z) ^ 2 - Y ^ 2 - Z ^ 2) :
    Y3 ^ 2 = X3 ^ 3 - 3 * X3 * Z3 ^ 4 + b * Z3 ^ 6 := by
  subst hY3 hX3 hZ3 halpha
  linear_combination (64 * Y ^ 6) * h

/-- R109's finite result is on the curve of R111, if its operand is. -/
theorem onCurve_doubleTriple {q : Jacobian} (hq : q.Reduced) (h : onCurve q = true)
    (hz3 : (doubleTriple q).z ≠ 0) : onCurve (doubleTriple q) = true := by
  obtain ⟨-, -, hz⟩ := hq
  obtain ⟨-, -, hlt⟩ := reduced_doubleTriple q
  obtain ⟨-, heq⟩ := (onCurve_iff hz).1 h
  refine (onCurve_iff hlt).2 ⟨mt (cast_eq_zero_iff_of_lt hlt).1 hz3, ?_⟩
  rw [ZMod.natCast_self] at heq ⊢
  have hkeep := doubling_keeps_equation (b := (curveB : ZMod curveP)) (by linear_combination heq) rfl
    (cast_doubleTriple_x q) (cast_doubleTriple_y q) (cast_doubleTriple_z q)
  linear_combination hkeep

/-! ## The statements -/

/-- Settles O46: the slot holds what `dec` gives, so its coordinates are the formulas' X, Y and Z. -/
theorem pdblFollowsFormulas : Obligations.PdblFollowsFormulas := by
  intro sd ss1
  obtain ⟨hword, -, -⟩ := formatS_absent_operands 0x21 (Slot.bits sd) (Slot.bits ss1)
  refine ⟨onlyWord_of_encode rfl hword, fun s hx hy hz => ⟨_,
    exec_pdbl_in_range sd ((s.slotInRange_iff ss1).2 ⟨hx, hy, hz⟩), s.putPoint_advance_pc sd _,
    s.onlyB_putPoint_advance sd _, fun X Y Z hX hY hZ => ?_⟩⟩
  obtain ⟨-, -, hqz⟩ := s.reduced_slotPoint ss1
  obtain ⟨-, -, hq3z⟩ := reduced_doubleTriple (s.slotPoint ss1)
  obtain ⟨hqX, hqY, hqZ⟩ := State.cast_slotPoint hX hY hZ
  rintro _ _ _ _ _ _ _ rfl rfl rfl rfl rfl rfl rfl
  rw [← hqX, ← hqY, ← hqZ, ← cast_doubleTriple_x, ← cast_doubleTriple_y, ← cast_doubleTriple_z, ne_eq, ne_eq,
    cast_eq_zero_iff_of_lt hqz, cast_eq_zero_iff_of_lt hq3z]
  refine ⟨fun h => ?infinity, fun hz0 hz30 => ?finite⟩
  case infinity =>
    rw [pointDouble_infinity h]
    exact s.holdsInfinity_putPoint sd
  case finite =>
    rw [pointDouble_finite hz0 hz30]
    exact s.holdsTriple_putPoint sd _

/-- Settles O47: the two numbers that PADD tests and the triple it computes stand for the formulas' H, r and
(X3, Y3, Z3). -/
theorem paddFollowsFormulas : Obligations.PaddFollowsFormulas := by
  intro sd ss1 ss2
  refine ⟨onlyWord_of_encode rfl rfl, fun s hx1 hy1 hz1 hx2 hy2 hz2 => ?_⟩
  have hin1 := (s.slotInRange_iff ss1).2 ⟨hx1, hy1, hz1⟩
  have hin2 := (s.slotInRange_iff ss2).2 ⟨hx2, hy2, hz2⟩
  have hzero1 : (s.slotPoint ss1).z = 0 ↔ s.getBNat (slotZ ss1) = 0 := unmont_eq_zero_iff hz1
  have hzero2 : (s.slotPoint ss2).z = 0 ↔ s.getBNat (slotZ ss2) = 0 := unmont_eq_zero_iff hz2
  refine ⟨_, exec_padd_in_range sd hin1 hin2, s.putPoint_advance_pc sd _, s.onlyB_putPoint_advance sd _, ?_⟩
  rw [ne_eq, ne_eq, ← hzero1, ← hzero2]
  refine ⟨fun h1 h2 => ?infinities, fun h1 h2 => ?second, fun h1 h2 => ?first,
    fun X1 Y1 Z1 X2 Y2 Z2 hX1 hY1 hZ1 hX2 hY2 hZ2 => ?finite⟩
  case infinities =>
    rw [pointAdd_infinities h1 h2]
    exact s.holdsInfinity_putPoint sd
  case second =>
    rw [pointAdd_first_infinity h1 h2, State.putPoint_slotPoint sd hin2]
    exact s.getB_setSlot_advance sd _ _ _
  case first =>
    rw [pointAdd_second_infinity h1 h2, State.putPoint_slotPoint sd hin1]
    exact s.getB_setSlot_advance sd _ _ _
  case finite =>
    obtain ⟨hpX, hpY, hpZ⟩ := State.cast_slotPoint hX1 hY1 hZ1
    obtain ⟨hqX, hqY, hqZ⟩ := State.cast_slotPoint hX2 hY2 hZ2
    obtain ⟨-, -, hpz⟩ := s.reduced_slotPoint ss1
    obtain ⟨-, -, hqz⟩ := s.reduced_slotPoint ss2
    rw [← hpX, ← hpY, ← hpZ, ← hqX, ← hqY, ← hqZ, ne_eq, ne_eq, cast_eq_zero_iff_of_lt hpz, cast_eq_zero_iff_of_lt hqz]
    intro hp hq
    rintro _ _ _ _ _ _ _ _ _ _ _ _ rfl rfl rfl rfl rfl rfl rfl rfl rfl rfl rfl rfl
    rw [pointAdd_finite hp hq, ← cast_addH, ← cast_addR, ← cast_addTriple_x, ← cast_addTriple_y, ← cast_addTriple_z,
      ne_eq, ne_eq, cast_eq_zero_iff_of_lt (addH_lt _ _), cast_eq_zero_iff_of_lt (addR_lt _ _)]
    refine ⟨fun hH hr => ?doubled, fun hH hr => ?opposite, fun hH => ?general⟩
    case doubled =>
      rw [if_pos hH, if_pos hr]
      exact ⟨_, exec_pdbl_in_range sd hin1, rfl, rfl, rfl⟩
    case opposite =>
      rw [if_pos hH, if_neg hr]
      exact s.holdsInfinity_putPoint sd
    case general =>
      rw [if_neg hH]
      exact s.holdsTriple_putPoint sd _

/-- Settles O50: PDBL writes O or the formulas' triple, which is reduced and on the curve with its operand. -/
theorem doublingKeepsCurve : Obligations.DoublingKeepsCurve := by
  intro s c sd ss1 hin hc hT
  have hcurve : onCurve (s.slotPoint ss1) = true := by
    obtain ⟨t, ht, -, -, -, htT⟩ := exec_pchk_in_range hin
    obtain rfl : t = c := Host.Outcome.next.inj (ht.symm.trans hc)
    rw [← htT, hT]
  refine ⟨_, exec_pdbl_in_range sd hin, ?_⟩
  by_cases h : (s.slotPoint ss1).z = 0 ∨ (doubleTriple (s.slotPoint ss1)).z = 0
  · rw [pointDouble_infinity h]
    exact .inl (s.holdsInfinity_putPoint sd)
  · obtain ⟨hz, hz3⟩ := not_or.1 h
    rw [pointDouble_finite hz hz3]
    have hin3 := s.slotInRange_putPoint sd (doubleTriple (s.slotPoint ss1))
    obtain ⟨u, hu, -, -, hstatus, huT⟩ := exec_pchk_in_range hin3
    refine .inr ⟨u, hu, hstatus, ?_⟩
    rw [huT, State.slotPoint_putPoint s sd (reduced_doubleTriple _)]
    exact onCurve_doubleTriple (s.reduced_slotPoint ss1) hcurve hz3

/-- Settles O45: the generator is a reduced triple on the curve. -/
theorem pgenLoadsGenerator : Obligations.PgenLoadsGenerator := by
  intro sd
  obtain ⟨-, hword, -⟩ := formatS_absent_operands 0x20 (Slot.bits sd) 0
  refine ⟨onlyWord_of_encode rfl hword, fun s => ?_⟩
  have hred : generator.Reduced := ⟨by decide, by decide, by decide⟩
  have hcurve : onCurve generator = true := by decide
  obtain ⟨hx, hy, hz⟩ := s.getB_putPoint_triple sd generator
  obtain ⟨u, hu, -, -, -, huT⟩ := exec_pchk_in_range (s.slotInRange_putPoint sd generator)
  rw [State.slotPoint_putPoint s sd hred, hcurve] at huT
  exact ⟨_, rfl, s.putPoint_advance_pc sd _, s.onlyB_putPoint_advance sd _, hx.trans (by decide),
    hy.trans (by decide), hz.trans (by decide), u, hu, huT⟩

/-- Settles O48: T is the test of the point that `dec` gives. -/
theorem pchkTestsCurve : Obligations.PchkTestsCurve := by
  intro ss1
  obtain ⟨-, -, hword⟩ := formatS_absent_operands 0x23 0 (Slot.bits ss1)
  refine ⟨onlyWord_of_encode rfl hword, fun s hx hy hz => ?_⟩
  obtain ⟨-, -, hqz⟩ := s.reduced_slotPoint ss1
  obtain ⟨t, ht, hpc, honly, -, htT⟩ := exec_pchk_in_range ((s.slotInRange_iff ss1).2 ⟨hx, hy, hz⟩)
  refine ⟨t, ht, hpc, honly, fun X Y Z hX hY hZ => ?_⟩
  obtain ⟨hqX, hqY, hqZ⟩ := State.cast_slotPoint hX hY hZ
  rw [htT, ← hqX, ← hqY, ← hqZ]
  exact onCurve_iff hqz

/-- Settles O49: the source slots are tested before any effect. -/
theorem pointOutOfRangeRaisesRange : Obligations.PointOutOfRangeRaisesRange := by
  intro s sd ss1 ss2 h
  have hout : ¬ s.slotInRange ss1 = true := fun hin =>
    have ⟨hx, hy, hz⟩ := (s.slotInRange_iff ss1).1 hin
    h.elim (Nat.not_le.2 hx) (Or.elim · (Nat.not_le.2 hy) (Nat.not_le.2 hz))
  exact ⟨faultsWith_of_raise (exec_pdbl_out_of_range sd hout), faultsWith_of_raise (exec_pchk_out_of_range hout),
    faultsWith_of_raise (exec_padd_out_of_range sd (.inl hout)),
    faultsWith_of_raise (exec_padd_out_of_range sd (.inr hout))⟩

end Sys2Proof.Machine
end

section
/-! SUPPORT. The proofs of the statements about the hash unit (spec/44_hash.md): first what a write of H leaves, then the
message expansion and the 64 rounds of the model as the sequences the rules define, and the number of padding bytes;
then the statements, by tier. -/

namespace Sys2Proof.Machine

/-! ## Words in format R with one operand or no destination (R63) -/

/-- An absent operand joins the reserved bits beside it to one field of zeros. -/
theorem formatR_absent_operands (op : BitVec 6) (a b : BitVec 4) :
    formatR op a 0 0 0 = op ++ a ++ 0#22 ∧ formatR op 0 a b 0 = op ++ 0#4 ++ a ++ b ++ 0#14 := by
  refine ⟨?_, ?_⟩
  all_goals
    apply BitVec.eq_of_toNat_eq
    simp only [formatR, toNat_append_add, BitVec.ofNat_eq_ofNat, BitVec.toNat_ofNat, Nat.zero_mod]
    omega

/-! ## A write of H -/

theorem State.setH_advance_pc (s : State) (v : Big) : (s.setH v).advance.pc = s.pc + 1 := rfl

theorem State.onlyH_setH_advance (s : State) (v : Big) : OnlyH s (s.setH v).advance :=
  ⟨fun _ _ => rfl, fun _ _ => rfl, ⟨rfl, rfl⟩, fun _ => rfl, fun _ => rfl,
    ⟨fun _ => rfl, ⟨rfl, rfl, rfl, rfl⟩, rfl, rfl, rfl⟩, rfl⟩

/-! ## The message expansion (R118) -/

/-- The first `n` words of a sequence, newest first, as the model keeps them. -/
def newestFirst (W : Nat → Word) (n : Nat) : List Word := ((List.range n).map W).reverse

section
variable {W : Nat → Word}

theorem newestFirst_succ (n : Nat) : newestFirst W (n + 1) = W n :: newestFirst W n := by
  simp [newestFirst, List.range_succ]

/-- Entry `k` is the word `k + 1` places back. -/
theorem newestFirst_getD {n i k : Nat} (h : i + k + 1 = n) : (newestFirst W n).getD k 0 = W i := by
  induction n generalizing k with
  | zero => omega
  | succ n ih =>
    rw [newestFirst_succ]
    cases k with
    | zero => rw [List.getD_cons_zero, Nat.succ.inj h]
    | succ k => rw [List.getD_cons_succ, ih (by omega)]

theorem blockWordsRev_eq {first second : Big}
    (hblock : ∀ j < 8, W j = wordOf first j ∧ W (j + 8) = wordOf second j) :
    blockWordsRev first second = newestFirst W 16 := by
  have hfirst : ∀ j < 8, wordOf first j = W j := fun j hj => (hblock j hj).1.symm
  have hsecond : ∀ j < 8, wordOf second j = W (j + 8) := fun j hj => (hblock j hj).2.symm
  simp [blockWordsRev, hfirst, hsecond, newestFirst, List.range_succ]

/-- The model's next word looks back 16, 9, 3, 13 and 6 words, as R118 does. -/
theorem nextWord_newestFirst (i : Nat) :
    nextWord (newestFirst W (i + 16)) = hashP1 (W i ^^^ W (i + 7) ^^^ (W (i + 13)).rotateLeft 15)
      ^^^ (W (i + 3)).rotateLeft 7 ^^^ W (i + 10) := by
  rw [nextWord, newestFirst_getD (i := i) (by omega), newestFirst_getD (i := i + 7) (by omega),
    newestFirst_getD (i := i + 13) (by omega), newestFirst_getD (i := i + 3) (by omega),
    newestFirst_getD (i := i + 10) (by omega), rotl_eq_rotateLeft _ 15 (by decide),
    rotl_eq_rotateLeft _ 7 (by decide)]

/-- Any sequence that satisfies R118 is the model's expanded words. -/
theorem expandedWords_eq {first second : Big}
    (hblock : ∀ j < 8, W j = wordOf first j ∧ W (j + 8) = wordOf second j)
    (hnext : ∀ i < 52, W (i + 16) = nextWord (newestFirst W (i + 16))) :
    expandedWords first second = (List.range 68).map W := by
  have hrev : ∀ n ≤ 52, expandRev first second n = newestFirst W (n + 16) := by
    intro n hn
    induction n with
    | zero => exact blockWordsRev_eq hblock
    | succ n ih =>
      rw [expandRev, ih (Nat.le_of_succ_le hn), ← hnext n hn, Nat.add_right_comm]
      exact (newestFirst_succ (n + 16)).symm
  rw [expandedWords, hrev 52 le_rfl, newestFirst, List.reverse_reverse]

theorem getD_map_range {n j : Nat} (h : j < n) : ((List.range n).map W).getD j 0 = W j := by
  simp [List.getD_eq_getElem?_getD, h]

end

/-! ## The rounds (R115, R116, R119) -/

theorem hashT_eq (j : Nat) : hashT j = if j ≤ 15 then 0x79CC4519#32 else 0x7A879D8A#32 := by
  simp only [hashT, Nat.lt_succ_iff]

theorem hashFF_eq (j : Nat) (x y z : Word) :
    hashFF j x y z = if j ≤ 15 then x ^^^ y ^^^ z else (x &&& y) ||| (x &&& z) ||| (y &&& z) := by
  simp only [hashFF, Nat.lt_succ_iff]

theorem hashGG_eq (j : Nat) (x y z : Word) :
    hashGG j x y z = if j ≤ 15 then x ^^^ y ^^^ z else (x &&& y) ||| (~~~x &&& z) := by
  simp only [hashGG, Nat.lt_succ_iff]

/-- Any registers that go from round to round as R119 gives are the model's. -/
theorem hashRounds_eq {W : Nat → Word} {V : Nat → HashRegs}
    (hround : ∀ j < 64, V (j + 1) = hashRound j (W j) (W j ^^^ W (j + 4)) (V j)) {n : Nat} (hn : n ≤ 64) :
    hashRounds ((List.range 68).map W) (V 0) n = V n := by
  induction n with
  | zero => rfl
  | succ j ih =>
    rw [hashRounds, ih (Nat.le_of_succ_le hn), getD_map_range (by omega), getD_map_range (by omega), ← hround j hn]

/-! ## The final XOR (R119) -/

theorem HashRegs.join_load (v : Big) : (HashRegs.load v).join = v := joinWords_wordOf v

theorem wordOf_xor (u v : Big) (j : Nat) : wordOf (u ^^^ v) j = wordOf u j ^^^ wordOf v j := BitVec.extractLsb'_xor

/-- The XOR of two joined values is that of their words. -/
theorem HashRegs.join_xor (r q : HashRegs) :
    r.join ^^^ q.join = joinWords (r.a ^^^ q.a) (r.b ^^^ q.b) (r.c ^^^ q.c) (r.d ^^^ q.d) (r.e ^^^ q.e) (r.f ^^^ q.f)
      (r.g ^^^ q.g) (r.h ^^^ q.h) := by
  refine big_ext_words fun j hj => ?_
  interval_cases j <;> simp [wordOf_xor, HashRegs.join]

/-- The compression function is the XOR of the registers before the first round and after the last. -/
theorem compress_eq {W : Nat → Word} {V : Nat → HashRegs} {v first second : Big}
    (hwords : expandedWords first second = (List.range 68).map W) (hload : V 0 = HashRegs.load v)
    (hround : ∀ j < 64, V (j + 1) = hashRound j (W j) (W j ^^^ W (j + 4)) (V j)) :
    compress v first second = (V 64).join ^^^ (V 0).join := by
  rw [compress, hwords, ← hload, hashRounds_eq hround le_rfl, hload, HashRegs.join_load]

/-! ## The padding (R126) -/

/-- The number of zero bytes that the model writes is the least that fills the last chunk. -/
theorem padding_least (n : Nat) :
    (n + 1 + (119 - n % 64) % 64 + 8) % 64 = 0 ∧ ∀ k < (119 - n % 64) % 64, (n + 1 + k + 8) % 64 ≠ 0 :=
  ⟨by omega, fun k hk => by omega⟩

theorem padMessage_length (msg : List Byte) :
    (padMessage msg).length = msg.length + 1 + (119 - msg.length % 64) % 64 + 8 := by
  simp only [padMessage, List.length_append, List.length_singleton, List.length_replicate, bytesBE_length]

/-! ## The statements -/

/-- Settles O52: the expanded words and the registers are the only ones that satisfy the recurrences. -/
theorem hcompCompresses : Obligations.HcompCompresses := by
  intro rs1 rs2
  obtain ⟨-, hword⟩ := formatR_absent_operands 0x2B (BReg.bits rs1) (BReg.bits rs2)
  refine ⟨onlyWord_of_encode rfl hword, fun s => ⟨_, rfl, s.setH_advance_pc _, s.onlyH_setH_advance _, ?_⟩⟩
  intro W V hblock hexpand hload hrounds
  have hnext : ∀ i < 52, W (i + 16) = nextWord (newestFirst W (i + 16)) := fun i hi =>
    (hexpand i hi _ rfl).trans (nextWord_newestFirst i).symm
  have hround : ∀ j < 64, V (j + 1) = hashRound j (W j) (W j ^^^ W (j + 4)) (V j) := by
    intro j hj
    rw [hashRound, hashT_eq, hashFF_eq, hashGG_eq]
    exact hrounds j hj _ _ _ _ _ rfl rfl rfl rfl rfl
  rw [State.advance_hash, State.setH_hash, compress_eq (expandedWords_eq hblock hnext) hload hround, HashRegs.join_xor,
    joinWords]

/-- Settles O59: the model's number of zero bytes is the least one. -/
theorem paddingFillsWholeChunks : Obligations.PaddingFillsWholeChunks := by
  intro msg
  obtain ⟨hfill, hleast⟩ := padding_least msg.length
  exact ⟨_, rfl, hfill, hleast, by rw [padMessage_length, hfill]⟩

/-- Settles O51: each move is one write of H or of a register, and `advance`. -/
theorem hashRegisterMoves : Obligations.HashRegisterMoves := by
  refine ⟨onlyWord_of_encode rfl rfl, fun r => ⟨?hset, ?hget⟩, fun s => ⟨?initial, fun r => ?set, fun r => ?get⟩⟩
  case hset => exact onlyWord_of_encode rfl (formatR_zero 0x29 0 (BReg.bits r))
  case hget =>
    obtain ⟨hword, -⟩ := formatR_absent_operands 0x2A (BReg.bits r) 0
    exact onlyWord_of_encode rfl hword
  case initial => exact ⟨_, rfl, s.setH_advance_pc _, s.onlyH_setH_advance _, (by decide : hashIV = _)⟩
  case set => exact ⟨_, rfl, s.setH_advance_pc _, s.onlyH_setH_advance _, rfl⟩
  case get =>
    have hr : (s.setB r s.hash).advance.getB r = s.hash := s.getB_setB_self r _
    exact ⟨_, rfl, rfl, s.onlyB_setB_advance r _, hr, fun u hu => ⟨_, rfl, hu.trans hr⟩⟩

/-- Settles O53: the destination holds the permuted lanes. -/
theorem hashPermutationsAreLaneWise : Obligations.HashPermutationsAreLaneWise := by
  intro rd rs1
  have hlanes : ∀ (s : State) (f : Word → Word), ∀ j < 8, ∀ x, x = wordOf (s.getB rs1) j →
      wordOf ((s.setB rd (lanes f (s.getB rs1))).advance.getB rd) j = f x := by
    rintro s f j hj x rfl
    exact (congrArg (wordOf · j) (s.getB_setB_self rd _)).trans (wordOf_lanes f _ j hj)
  exact ⟨onlyWord_of_encode rfl (formatR_zero 0x2C (BReg.bits rd) (BReg.bits rs1)),
    onlyWord_of_encode rfl (formatR_zero 0x2D (BReg.bits rd) (BReg.bits rs1)), fun s =>
    ⟨⟨_, rfl, rfl, s.onlyB_setB_advance rd _, hlanes s hashP0⟩,
      ⟨_, rfl, rfl, s.onlyB_setB_advance rd _, hlanes s hashP1⟩⟩⟩

end Sys2Proof.Machine
end

section
/-! SUPPORT. The proofs of the statements about the block-cipher unit (spec/45_cipher.md): first the words of a block
and the bytes of a word, then four words of a recurrence as the model keeps them, with one step of it and its undoing,
the rounds and the key schedule, and the layers S, τ, L and L' alone; then the statements, by tier. -/

namespace Sys2Proof.Machine

/-! ## Words of a block and bytes of a word (R13) -/

/-- Bits of a field are bits of the value the field was taken from. -/
theorem extract_extract {w : Nat} (v : BitVec w) {lo m lo' n : Nat} (h : lo' + n ≤ m) :
    (v.extractLsb' lo m).extractLsb' lo' n = v.extractLsb' (lo + lo') n := by
  apply BitVec.eq_of_getLsbD_eq
  intro i hi
  have him : lo' + i < m := by omega
  simp [hi, him, Nat.add_assoc]

theorem blockWord_lowBlock (v : Big) {j : Nat} (hj : j < 4) :
    blockWord (lowBlock v) j = v.extractLsb' (96 - 32 * j) 32 := by
  rw [blockWord, lowBlock, extract_extract v (by omega), Nat.zero_add]

theorem bigByte_eq_byteOf_wordOf (v : Big) {q : Nat} (hq : q < 32) :
    bigByte v q = byteOf (wordOf v (q / 4)) (q % 4) := by
  have hlo : 224 - 32 * (q / 4) + (24 - 8 * (q % 4)) = 248 - 8 * q := by omega
  rw [byteOf, wordOf, extract_extract v (by omega), hlo, bigByte]

theorem lowBlock_zextBlock (x : Block) : lowBlock (zextBlock x) = x :=
  (BitVec.extractLsb'_setWidth_of_le (by decide)).trans (extract_whole x)

theorem zextBlock_joinBlock (a b c d : Word) : zextBlock (joinBlock a b c d) = 0#128 ++ a ++ b ++ c ++ d := by
  apply BitVec.eq_of_toNat_eq
  simp only [zextBlock, joinBlock, BitVec.toNat_setWidth, toNat_append_add, BitVec.toNat_ofNat]
  omega

/-- A word is its four bytes. -/
theorem word_ext_bytes {u v : Word} (h : ∀ j < 4, byteOf u j = byteOf v j) : u = v := by
  apply BitVec.eq_of_getLsbD_eq
  intro i hi
  have hbit := congrArg (·.getLsbD (i % 8)) (h (3 - i / 8) (by omega))
  have hlo : 24 - 8 * (3 - i / 8) + i % 8 = i := by omega
  simpa [byteOf, BitVec.getLsbD_extractLsb', hlo, Nat.mod_lt] using hbit

/-- A joined value is the XOR of its parts, each at its place. -/
theorem setWidth_append_eq_xor {w v : Nat} (n : Nat) (x : BitVec w) (y : BitVec v) :
    (x ++ y).setWidth n = x.setWidth n <<< v ^^^ y.setWidth n := by
  apply BitVec.eq_of_getLsbD_eq
  intro i hi
  simp only [BitVec.getLsbD_setWidth, BitVec.getLsbD_append, BitVec.getLsbD_xor, BitVec.getLsbD_shiftLeft, hi]
  by_cases hv : i < v
  · simp [hv]
  · have hout : y.getLsbD i = false := BitVec.getLsbD_of_ge y i (Nat.le_of_not_lt hv)
    simp [hv, hout, Nat.lt_of_le_of_lt (Nat.sub_le i v) hi]

theorem joinBytes_eq_xor (a b c d : Byte) : joinBytes a b c d
    = a.setWidth 32 <<< 24 ^^^ b.setWidth 32 <<< 16 ^^^ c.setWidth 32 <<< 8 ^^^ d.setWidth 32 <<< 0 := by
  have hself : joinBytes a b c d = (a ++ b ++ c ++ d).setWidth 32 := (BitVec.setWidth_eq _).symm
  rw [hself, setWidth_append_eq_xor, setWidth_append_eq_xor, setWidth_append_eq_xor]
  simp only [BitVec.shiftLeft_xor_distrib, ← BitVec.shiftLeft_add, BitVec.shiftLeft_zero, Nat.reduceAdd]

/-! ## Four words of a recurrence (R135, R136) -/

/-- The words `X n` to `X (n + 3)`. -/
def quadAt (X : Nat → Word) (n : Nat) : Quad := ⟨X n, X (n + 1), X (n + 2), X (n + 3)⟩

/-- The four words, the newest first. -/
def Quad.reverse (q : Quad) : Quad := ⟨q.x3, q.x2, q.x1, q.x0⟩

/-- The 128-bit value of four words: the converse of `Quad.load`. -/
def Quad.join (q : Quad) : Block := joinBlock q.x0 q.x1 q.x2 q.x3

theorem Quad.load_join (q : Quad) : Quad.load q.join = q := by
  obtain ⟨a, b, c, d⟩ := q
  simp (disch := omega) only [Quad.load, Quad.join, joinBlock, blockWord, extract_append_low, extract_append_above,
    extract_whole, Nat.reduceMul, Nat.reduceSub]

theorem Quad.join_load (x : Block) : (Quad.load x).join = x := by
  simp only [Quad.join, Quad.load, joinBlock, blockWord, Nat.reduceMul, Nat.reduceSub]
  have htop : x.extractLsb' 96 32 ++ x.extractLsb' 64 32 = x.extractLsb' 64 64 :=
    BitVec.extractLsb'_append_extractLsb'_eq_extractLsb' rfl
  have hupper : x.extractLsb' 64 64 ++ x.extractLsb' 32 32 = x.extractLsb' 32 96 :=
    BitVec.extractLsb'_append_extractLsb'_eq_extractLsb' rfl
  have hall : x.extractLsb' 32 96 ++ x.extractLsb' 0 32 = x.extractLsb' 0 128 :=
    BitVec.extractLsb'_append_extractLsb'_eq_extractLsb' rfl
  rw [htop, hupper, hall, extract_whole]

/-- A step of the recurrence moves the four words on by one. -/
theorem Quad.next_quadAt {f : Word → Word} {k : Word} {X : Nat → Word} {n : Nat}
    (h : X (n + 4) = X n ^^^ f (X (n + 1) ^^^ X (n + 2) ^^^ X (n + 3) ^^^ k)) :
    (quadAt X n).next f k = quadAt X (n + 1) := by
  rw [Quad.next, quadAt, ← h]
  rfl

/-- A step undoes itself between two reversals: it XORs the same value to the same word. -/
theorem Quad.next_reverse_next (f : Word → Word) (k : Word) (q : Quad) :
    (q.next f k).reverse.next f k = q.reverse := by
  have hmask : q.x3 ^^^ q.x2 ^^^ q.x1 = q.x1 ^^^ q.x2 ^^^ q.x3 := by ac_rfl
  simp only [Quad.next, Quad.reverse, hmask, BitVec.xor_assoc, BitVec.xor_self, BitVec.xor_zero]

/-! ## The rounds under a list of round keys (R136, R137) -/

/-- Any sequence that satisfies the cipher recurrence is the model's. -/
theorem cipherRounds_quadAt {X : Nat → Word} (keys : List Word) {n : Nat}
    (h : ∀ (i : Nat) (hi : i < keys.length),
      X (n + i + 4) = X (n + i) ^^^ roundT (X (n + i + 1) ^^^ X (n + i + 2) ^^^ X (n + i + 3) ^^^ keys[i])) :
    cipherRounds keys (quadAt X n) = quadAt X (n + keys.length) := by
  induction keys generalizing n with
  | nil => rfl
  | cons k ks ih =>
    have hfirst : (quadAt X n).next roundT k = quadAt X (n + 1) := Quad.next_quadAt (h 0 (Nat.succ_pos _))
    have hrest := ih (n := n + 1) fun i hi => by
      have hi' := h (i + 1) (Nat.succ_lt_succ hi)
      rwa [← Nat.add_assoc, Nat.add_right_comm n i 1] at hi'
    rw [cipherRounds, List.foldl_cons, hfirst, List.length_cons, Nat.add_comm ks.length, ← Nat.add_assoc]
    exact hrest

/-- The rounds under the keys in reverse order take the reversed result back to the reversed start. -/
theorem cipherRounds_reverse (keys : List Word) (q : Quad) :
    cipherRounds keys.reverse (cipherRounds keys q).reverse = q.reverse := by
  induction keys generalizing q with
  | nil => rfl
  | cons k ks ih =>
    have hrest : cipherRounds ks.reverse (cipherRounds (k :: ks) q).reverse = (q.next roundT k).reverse := ih _
    rw [List.reverse_cons, cipherRounds, List.foldl_append]
    exact (congrArg (Quad.next roundT k) hrest).trans (Quad.next_reverse_next roundT k q)

theorem cipherBlock_eq_join (keys : List Word) (x : Block) :
    cipherBlock keys x = (cipherRounds keys (Quad.load x)).reverse.join := rfl

theorem cipherBlock_reverse_cipherBlock (keys : List Word) (x : Block) :
    cipherBlock keys.reverse (cipherBlock keys x) = x := by
  rw [cipherBlock_eq_join, cipherBlock_eq_join keys, Quad.load_join, cipherRounds_reverse]
  exact Quad.join_load x

/-- A block under 32 round keys: the last four words of the recurrence, the newest first. -/
theorem cipherBlock_eq {X : Nat → Word} {keys : List Word} {x : Block} (hlen : keys.length = 32)
    (hload : Quad.load x = quadAt X 0)
    (h : ∀ (i : Nat) (hi : i < keys.length),
      X (i + 4) = X i ^^^ roundT (X (i + 1) ^^^ X (i + 2) ^^^ X (i + 3) ^^^ keys[i])) :
    cipherBlock keys x = joinBlock (X 35) (X 34) (X 33) (X 32) := by
  have hrounds := cipherRounds_quadAt (X := X) keys (n := 0) (by simpa only [Nat.zero_add] using h)
  rw [cipherBlock_eq_join, hload, hrounds, hlen]
  rfl

/-! ## The key schedule (R129, R130, R135) -/

theorem byteOf_cipherCK (i : Nat) {j : Nat} (hj : j < 4) :
    byteOf (cipherCK i) j = BitVec.ofNat 8 ((4 * i + j) * 7 % 256) := by
  have hbyte := byteOf_joinBytes (BitVec.ofNat 8 ((4 * i) * 7)) (BitVec.ofNat 8 ((4 * i + 1) * 7))
    (BitVec.ofNat 8 ((4 * i + 2) * 7)) (BitVec.ofNat 8 ((4 * i + 3) * 7)) j hj
  have hmod : BitVec.ofNat 8 ((4 * i + j) * 7 % 256) = BitVec.ofNat 8 ((4 * i + j) * 7) :=
    BitVec.eq_of_toNat_eq (by simp)
  rw [hmod]
  apply Option.some.inj
  rw [cipherCK, ← hbyte]
  interval_cases j <;> rfl

theorem blockWord_xor (u v : Block) (j : Nat) : blockWord (u ^^^ v) j = blockWord u j ^^^ blockWord v j :=
  BitVec.extractLsb'_xor

/-- Any sequence that satisfies the key recurrence is the model's. -/
theorem keyQuad_eq {k : Nat → Word} {key : Block} (hload : Quad.load (key ^^^ cipherFK) = quadAt k 0)
    (h : ∀ i < 32, k (i + 4) = k i ^^^ keyT (k (i + 1) ^^^ k (i + 2) ^^^ k (i + 3) ^^^ cipherCK i))
    {n : Nat} (hn : n ≤ 32) : keyQuad key n = quadAt k n := by
  induction n with
  | zero => exact hload
  | succ i ih => rw [keyQuad, ih (Nat.le_of_succ_le hn), Quad.next_quadAt (h i hn)]

/-! ## The S-box and τ (R128, R131) -/

/-- The inverse of the S-box, in rows as `sboxRows` is. -/
def sboxInverseRows : List Block := [
  0x716C7AB8160F1E4135EBD02AE4AC625A, 0xCDC8DB1A0A8E0846F04B96C132A060CC,
  0xF76D69AA61681B760CA914100ED8A3B7, 0x9BD29A28955F79B286FEF46B4A06FB3E,
  0x84CB212B19B37240FF1CE35B78F6AE4E, 0x22BF77AD29975D736549CEBECA9263FA,
  0xA78D2F6455E8A51150E1BA51BDBCEDAF, 0x5C54BB45D93C13E66EF827D66AF2E7C7,
  0x3852A448EF4D1D6FD3E082579DC0B63D, 0x0124C3993A37E5E2261F1294205E7F74,
  0x7C8F678893D43F424F3318AB2E9891C2, 0xDF9E5331DE870907DCE947C4C6D71581,
  0xA8D10B177DECEE857E34A6FD04D58B2D, 0xDA66837570B000FCCFC956B1F5C5B439,
  0x9005A29F30DD4C7B36028059F32CF925, 0xF1EA8A44239CA189588C3B0D43B503B9]

/-- The byte that the S-box takes to `y`. -/
def sboxInverse (y : Byte) : Byte := blockByte (sboxInverseRows.getD (y.toNat / 16) 0) (y.toNat % 16)

theorem sboxInverse_sbox : Function.LeftInverse sboxInverse sbox := by
  unfold Function.LeftInverse
  decide +kernel

theorem sbox_injective : Function.Injective sbox := sboxInverse_sbox.injective

/-- Row by the high nibble, column by the low one. -/
theorem sbox_ofNat (hi lo : Fin 16) : some (sbox (BitVec.ofNat 8 (16 * hi.val + lo.val)))
    = sboxRows[hi.val]?.map fun row => blockByte row lo.val := by
  have hnat : (BitVec.ofNat 8 (16 * hi.val + lo.val)).toNat = 16 * hi.val + lo.val :=
    Nat.mod_eq_of_lt (by omega)
  have hrow : (16 * hi.val + lo.val) / 16 = hi.val := by omega
  have hcol : (16 * hi.val + lo.val) % 16 = lo.val := by omega
  have hlen : hi.val < sboxRows.length := hi.isLt
  rw [sbox, hnat, hrow, hcol, List.getD_eq_getElem _ _ hlen, List.getElem?_eq_getElem hlen]
  rfl

theorem byteOf_tau (w : Word) {j : Nat} (hj : j < 4) : byteOf (tau w) j = sbox (byteOf w j) := by
  have hbyte := byteOf_joinBytes (sbox (byteOf w 0)) (sbox (byteOf w 1)) (sbox (byteOf w 2)) (sbox (byteOf w 3)) j hj
  apply Option.some.inj
  rw [tau, ← hbyte]
  interval_cases j <;> rfl

/-! ## L and L' are linear, so they work byte by byte (R132 to R134) -/

theorem rotl_xor (x y : Word) (n : Nat) : rotl (x ^^^ y) n = rotl x n ^^^ rotl y n := by
  apply BitVec.eq_of_getLsbD_eq
  intro i hi
  simp only [rotl, BitVec.getLsbD_xor, BitVec.getLsbD_rotateLeft, hi, decide_true, Bool.true_and]
  cases decide (i < n % 32 % 32) <;> rfl

theorem diffuse_xor (x y : Word) : diffuse (x ^^^ y) = diffuse x ^^^ diffuse y := by
  simp only [diffuse, rotl_xor]
  ac_rfl

theorem diffuseKey_xor (x y : Word) : diffuseKey (x ^^^ y) = diffuseKey x ^^^ diffuseKey y := by
  simp only [diffuseKey, rotl_xor]
  ac_rfl

/-- A linear layer after τ is the XOR of its four table entries, one for each byte. -/
theorem linear_tau_eq_tables {f : Word → Word} (hf : ∀ x y, f (x ^^^ y) = f x ^^^ f y) {T : Nat → Byte → Word}
    (hT : ∀ i < 4, ∀ b, T i b = f ((sbox b).setWidth 32 <<< (24 - 8 * i))) (x : Word) :
    f (tau x) = T 0 (byteOf x 0) ^^^ T 1 (byteOf x 1) ^^^ T 2 (byteOf x 2) ^^^ T 3 (byteOf x 3) := by
  rw [tau, joinBytes_eq_xor, hf, hf, hf, hT 0 (by decide), hT 1 (by decide), hT 2 (by decide), hT 3 (by decide)]

/-! ## Writes of RK and of one register (R20, R26) -/

section
variable (s : State)

theorem State.setRks_advance_pc (v : Vector Word 32) : (s.setRks v).advance.pc = s.pc + 1 := rfl

theorem State.setB_advance_pc (r : BReg) (v : Big) : (s.setB r v).advance.pc = s.pc + 1 := rfl

theorem State.onlyRk_setRks_advance (v : Vector Word 32) : OnlyRk s (s.setRks v).advance :=
  ⟨fun _ _ => rfl, fun _ _ => rfl, ⟨rfl, rfl⟩, rfl, fun _ => rfl,
    ⟨fun _ => rfl, ⟨rfl, rfl, rfl, rfl⟩, rfl, rfl, rfl⟩, rfl⟩

theorem State.lowBlock_getB_setB_zextBlock (r : BReg) (x : Block) :
    lowBlock ((s.setB r (zextBlock x)).advance.getB r) = x :=
  (congrArg lowBlock (s.getB_setB_self r _)).trans (lowBlock_zextBlock x)

theorem State.wordOf_getB_setB_lanes (r : BReg) (f : Word → Word) (v : Big) {j : Nat} (hj : j < 8) :
    wordOf ((s.setB r (lanes f v)).advance.getB r) j = f (wordOf v j) :=
  (congrArg (wordOf · j) (s.getB_setB_self r _)).trans (wordOf_lanes f v j hj)

end

/-! ## The statements -/

/-- Settles O54: the model's quads are four words of the recurrence, of which the round key is the newest. -/
theorem kexpFollowsRecurrence : Obligations.KexpFollowsRecurrence := by
  intro rs1
  refine ⟨onlyWord_of_encode rfl (formatR_zero 0x30 0 (BReg.bits rs1)), fun s =>
    ⟨_, rfl, s.setRks_advance_pc _, s.onlyRk_setRks_advance _, fun k CK hCK h0 h1 h2 h3 hnext i => ?_⟩⟩
  have hload : Quad.load (lowBlock (s.getB rs1) ^^^ cipherFK) = quadAt k 0 := by
    simp only [Quad.load, quadAt, blockWord_xor, blockWord_lowBlock, h0, h1, h2, h3, Nat.reduceLT]
    rfl
  have hstep : ∀ i < 32, k (i + 4) = k i ^^^ keyT (k (i + 1) ^^^ k (i + 2) ^^^ k (i + 3) ^^^ cipherCK i) := by
    intro i hi
    have hconst : CK i = cipherCK i := word_ext_bytes fun j hj => (hCK i hi j hj).trans (byteOf_cipherCK i hj).symm
    rw [← hconst]
    exact hnext i hi _ rfl
  have hquad := congrArg Quad.x3 (keyQuad_eq hload hstep (Nat.succ_le_of_lt i.isLt))
  rw [State.getRk_advance, State.getRk_setRks, expandKey, Vector.get_eq_getElem, Vector.getElem_ofFn]
  exact hquad

/-- Settles O55: the rounds of ENC and of DEC run the recurrence, and each result is its last four words. -/
theorem cipherFollowsRecurrence : Obligations.CipherFollowsRecurrence := by
  intro rd rs1
  refine ⟨onlyWord_of_encode rfl (formatR_zero 0x31 (BReg.bits rd) (BReg.bits rs1)),
    onlyWord_of_encode rfl (formatR_zero 0x32 (BReg.bits rd) (BReg.bits rs1)), fun s =>
    ⟨_, _, rfl, s.setB_advance_pc rd _, s.onlyB_setB_advance rd _, rfl, s.setB_advance_pc rd _,
      s.onlyB_setB_advance rd _, fun X h0 h1 h2 h3 => ?_⟩⟩
  have hload : Quad.load (lowBlock (s.getB rs1)) = quadAt X 0 := by
    simp only [Quad.load, quadAt, blockWord_lowBlock, h0, h1, h2, h3, Nat.reduceLT]
  have hlen : s.rk.toList.length = 32 := s.rk.length_toList
  rw [State.getB_advance, State.getB_setB_self, State.getB_advance, State.getB_setB_self, ← zextBlock_joinBlock]
  refine ⟨fun hnext => congrArg zextBlock (cipherBlock_eq hlen hload fun i hi => ?enc),
    fun hnext => congrArg zextBlock (cipherBlock_eq (by rw [List.length_reverse, hlen]) hload fun i hi => ?dec)⟩
  case enc =>
    have hkey : s.rk.toList[i] = s.getRk ⟨i, hlen ▸ hi⟩ := Vector.getElem_toList hi
    rw [hkey]
    exact hnext ⟨i, _⟩ _ rfl
  case dec =>
    have hi' : i < 32 := by rwa [List.length_reverse, hlen] at hi
    have hkey : s.rk.toList.reverse[i] = s.getRk (Fin.rev ⟨i, hi'⟩) := by
      simp [List.getElem_reverse, State.getRk, Vector.get_eq_getElem, Fin.rev]
    rw [hkey]
    exact hnext ⟨i, hi'⟩ _ rfl

/-- Settles O56: the second instruction runs the rounds of the first backwards, on the block the first wrote. -/
theorem decInvertsEnc : Obligations.DecInvertsEnc := by
  intro s ra rb rc
  refine ⟨⟨_, _, rfl, rfl, ?decEnc⟩, ⟨_, _, rfl, rfl, ?encDec⟩⟩
  case decEnc =>
    rw [State.getB_advance, State.getB_setB_self, State.lowBlock_getB_setB_zextBlock]
    exact congrArg zextBlock (cipherBlock_reverse_cipherBlock s.rk.toList _)
  case encDec =>
    rw [State.getB_advance, State.getB_setB_self, State.lowBlock_getB_setB_zextBlock]
    have hinv := cipherBlock_reverse_cipherBlock s.rk.toList.reverse (lowBlock (s.getB ra))
    rw [List.reverse_reverse] at hinv
    exact congrArg zextBlock hinv

/-- Settles O58: L and L' are linear. -/
theorem tablesGiveRoundFunctions : Obligations.TablesGiveRoundFunctions := fun _ _ hT hT' x =>
  ⟨linear_tau_eq_tables diffuse_xor hT x, linear_tau_eq_tables diffuseKey_xor hT' x⟩

/-- Settles O57: the S-box is read off its rows and has a left inverse, and each layer acts on each word alone. -/
theorem cipherLayersAreLaneWise : Obligations.CipherLayersAreLaneWise := by
  refine ⟨sbox_ofNat, fun w j hj => byteOf_tau w hj, fun _ _ h => sbox_injective h, fun rd rs1 => ?_⟩
  refine ⟨onlyWord_of_encode rfl (formatR_zero 0x33 (BReg.bits rd) (BReg.bits rs1)),
    onlyWord_of_encode rfl (formatR_zero 0x34 (BReg.bits rd) (BReg.bits rs1)),
    onlyWord_of_encode rfl (formatR_zero 0x35 (BReg.bits rd) (BReg.bits rs1)), fun s =>
    ⟨⟨_, rfl, s.setB_advance_pc rd _, s.onlyB_setB_advance rd _, fun q hq => ?sbox⟩,
      ⟨_, rfl, s.setB_advance_pc rd _, s.onlyB_setB_advance rd _, fun j hj x hx => ?ldif⟩,
      ⟨_, rfl, s.setB_advance_pc rd _, s.onlyB_setB_advance rd _, fun j hj x hx => ?lkey⟩⟩⟩
  case sbox =>
    rw [bigByte_eq_byteOf_wordOf _ hq, bigByte_eq_byteOf_wordOf _ hq, State.wordOf_getB_setB_lanes _ _ _ _ (by omega),
      byteOf_tau _ (Nat.mod_lt q (by decide))]
  case ldif =>
    rw [hx]
    exact s.wordOf_getB_setB_lanes rd diffuse _ hj
  case lkey =>
    rw [hx]
    exact s.wordOf_getB_setB_lanes rd diffuseKey _ hj

end Sys2Proof.Machine
end

section
/-! SUPPORT. The proofs of the statements about the identity digest and the signature procedures
(spec/46_identity_signature.md): first the curve as Mathlib's group, and that doubling, addition and scalar
multiplication of triples compute in it; then the generator's order and the public point; then what verification accepts
and what signing answers, and the layout of the identity digest's input; then the statements, by tier. -/

namespace Sys2Proof.Machine

open WeierstrassCurve.Affine

/-! ## The group of the curve (R103) -/

/-- The curve y² = x³ − 3x + b over F_P. Where P is prime, its points are Mathlib's group. -/
def curve : WeierstrassCurve.Affine (ZMod curveP) := ⟨0, 0, 0, -3, curveB⟩

theorem curve_equation_iff (x y : ZMod curveP) :
    curve.Equation x y ↔ y ^ 2 = x ^ 3 + (curveP - 3) * x + curveB := by
  rw [equation_iff, ZMod.natCast_self, zero_sub]
  simp only [curve, zero_mul, add_zero]

theorem curve_negY (x y : ZMod curveP) : curve.negY x y = -y := by
  simp only [WeierstrassCurve.Affine.negY, curve, zero_mul, sub_zero]

theorem curve_addX (x₁ x₂ l : ZMod curveP) : curve.addX x₁ x₂ l = l ^ 2 - x₁ - x₂ := by
  simp only [WeierstrassCurve.Affine.addX, curve, zero_mul, add_zero, sub_zero]

theorem curve_addY (x₁ x₂ y₁ l : ZMod curveP) :
    curve.addY x₁ x₂ y₁ l = l * (x₁ - curve.addX x₁ x₂ l) - y₁ := by
  rw [WeierstrassCurve.Affine.addY, curve_negY, WeierstrassCurve.Affine.negAddY]
  ring

theorem two_ne_zero_curveP : (2 : ZMod curveP) ≠ 0 := fun h =>
  absurd ((cast_eq_zero_iff_of_lt (x := 2) (by decide)).1 (by exact_mod_cast h)) (by decide)

/-- Doubling in affine and in Jacobian coordinates, for the slope `l` of the tangent. -/
theorem doubling_of_slope {K : Type} [CommRing K] {x y l X Y Z X3 Y3 Z3 : K} (hl : l * (2 * y) = 3 * x ^ 2 - 3)
    (hX : X = x * Z ^ 2) (hY : Y = y * Z ^ 3) (hZ3 : Z3 = (Y + Z) ^ 2 - Y ^ 2 - Z ^ 2)
    (hX3 : X3 = (3 * (X - Z ^ 2) * (X + Z ^ 2)) ^ 2 - 8 * (X * Y ^ 2))
    (hY3 : Y3 = 3 * (X - Z ^ 2) * (X + Z ^ 2) * (4 * (X * Y ^ 2) - X3) - 8 * (Y ^ 2) ^ 2) :
    X3 = (l ^ 2 - x - x) * Z3 ^ 2 ∧ Y3 = (l * (x - (l ^ 2 - x - x)) - y) * Z3 ^ 3 := by
  have hz : Z3 = 2 * y * Z ^ 4 := by
    subst hX hY
    linear_combination hZ3
  have halpha : 3 * (X - Z ^ 2) * (X + Z ^ 2) = l * (2 * y) * Z ^ 4 := by
    subst hX
    linear_combination -Z ^ 4 * hl
  have hx : X3 = (l ^ 2 - x - x) * Z3 ^ 2 := by
    rw [hX3, halpha, hX, hY, hz]
    ring
  refine ⟨hx, ?_⟩
  rw [hY3, halpha, hx, hX, hY, hz]
  ring

/-- Addition in affine and in Jacobian coordinates, for the slope `l` of the chord. -/
theorem addition_of_slope {K : Type} [CommRing K] {x₁ y₁ x₂ y₂ l X₁ Y₁ Z₁ X₂ Y₂ Z₂ H R X3 Y3 Z3 : K}
    (hl : l * (x₁ - x₂) = y₁ - y₂) (hX₁ : X₁ = x₁ * Z₁ ^ 2) (hY₁ : Y₁ = y₁ * Z₁ ^ 3) (hX₂ : X₂ = x₂ * Z₂ ^ 2)
    (hY₂ : Y₂ = y₂ * Z₂ ^ 3) (hH : H = X₂ * Z₁ ^ 2 - X₁ * Z₂ ^ 2)
    (hR : R = 2 * (Y₂ * Z₁ * Z₁ ^ 2 - Y₁ * Z₂ * Z₂ ^ 2)) (hZ3 : Z3 = ((Z₁ + Z₂) ^ 2 - Z₁ ^ 2 - Z₂ ^ 2) * H)
    (hX3 : X3 = R ^ 2 - H * (2 * H) ^ 2 - 2 * (X₁ * Z₂ ^ 2 * (2 * H) ^ 2))
    (hY3 : Y3 = R * (X₁ * Z₂ ^ 2 * (2 * H) ^ 2 - X3) - 2 * (Y₁ * Z₂ * Z₂ ^ 2) * (H * (2 * H) ^ 2)) :
    X3 = (l ^ 2 - x₁ - x₂) * Z3 ^ 2 ∧ Y3 = (l * (x₁ - (l ^ 2 - x₁ - x₂)) - y₁) * Z3 ^ 3 := by
  have hh : H = (x₂ - x₁) * (Z₁ * Z₂) ^ 2 := by
    rw [hH, hX₁, hX₂]
    ring
  have hz : Z3 = 2 * (Z₁ * Z₂) * H := by
    rw [hZ3]
    ring
  have hr : R = l * Z3 := by
    rw [hz, hh, hR, hY₁, hY₂]
    linear_combination 2 * Z₁ ^ 3 * Z₂ ^ 3 * hl
  have hx : X3 = (l ^ 2 - x₁ - x₂) * Z3 ^ 2 := by
    rw [hX3, hr, hX₁, hz, hh]
    ring
  refine ⟨hx, ?_⟩
  rw [hY3, hx, hr, hX₁, hY₁, hz, hh]
  ring

/-! ## Inverses (R94) -/

theorem cast_mul_modInv (m : Modulus) {a : Nat} (ha : a < modulusValue m) (h0 : a ≠ 0) :
    (a : ZMod (modulusValue m)) * modInv (modulusValue m) a = 1 := by
  have hinv := modInv_spec m a ha (Nat.coprime_of_lt_prime h0 ha (Laws.modulusValue_prime m)).symm
  rw [← Nat.cast_mul, ← ZMod.natCast_mod, hinv, Nat.cast_one]

/-! ## Triples and the points they stand for (R104) -/

/-- A finite triple's affine coordinates are (X/Z², Y/Z³). -/
structure Jacobian.HasAffine (q : Jacobian) (x y : ZMod curveP) : Prop where
  reduced : q.Reduced
  z_ne_zero : q.z ≠ 0
  x_eq : (q.x : ZMod curveP) = x * q.z ^ 2
  y_eq : (q.y : ZMod curveP) = y * q.z ^ 3

/-- A reduced triple stands for a point of the group: O where Z = 0. -/
inductive Jacobian.Represents (q : Jacobian) : curve.Point → Prop
  | infinity (hq : q.Reduced) (hz : q.z = 0) : q.Represents 0
  | finite {x y : ZMod curveP} (h : curve.Nonsingular x y) (hq : q.HasAffine x y) : q.Represents (.some x y h)

section
variable {p q : Jacobian} {P Q : curve.Point} {x y x₁ y₁ x₂ y₂ : ZMod curveP}

theorem Jacobian.HasAffine.cast_z_ne_zero (h : q.HasAffine x y) : (q.z : ZMod curveP) ≠ 0 := by
  obtain ⟨-, -, hlt⟩ := h.reduced
  exact mt (cast_eq_zero_iff_of_lt hlt).1 h.z_ne_zero

theorem Jacobian.Represents.z_eq_zero_iff (h : q.Represents Q) : q.z = 0 ↔ Q = 0 := by
  cases h with
  | infinity _ hz => exact iff_of_true hz rfl
  | finite h hq => exact iff_of_false hq.z_ne_zero (Point.some_ne_zero h)

theorem represents_infinity : PointResult.infinity.toJacobian.Represents 0 :=
  .infinity ⟨by decide, by decide, by decide⟩ rfl

theorem reduced_addTriple (p q : Jacobian) : (addTriple p q).Reduced := ⟨fsub_lt _ _, fsub_lt _ _, fmul_lt _ _⟩

end

section
variable [Fact curveP.Prime] {p q : Jacobian} {P Q : curve.Point} {x y x₁ y₁ x₂ y₂ : ZMod curveP}

/-! ## PDBL doubles (R109) -/

theorem y_ne_negY (hy : y ≠ 0) : y ≠ curve.negY x y := by
  rw [curve_negY, ne_eq, eq_neg_iff_add_eq_zero, ← two_mul]
  exact mul_ne_zero two_ne_zero_curveP hy

theorem tangent_slope (hy : y ≠ 0) : curve.slope x x y y * (2 * y) = 3 * x ^ 2 - 3 := by
  have h2y : 2 * y ≠ 0 := mul_ne_zero two_ne_zero_curveP hy
  rw [slope_of_Y_ne rfl (y_ne_negY hy), curve_negY, sub_neg_eq_add, ← two_mul, div_mul_cancel₀ _ h2y]
  simp only [curve]
  ring

/-- R109's Z3 is 2·y·Z⁴, so it is 0 just for the points of order 2. -/
theorem doubleTriple_z_eq_zero_iff (hq : q.HasAffine x y) : (doubleTriple q).z = 0 ↔ y = 0 := by
  obtain ⟨-, -, hlt⟩ := reduced_doubleTriple q
  have hz : ((doubleTriple q).z : ZMod curveP) = y * (2 * q.z ^ 4) := by
    rw [cast_doubleTriple_z, hq.y_eq]
    ring
  rw [← cast_eq_zero_iff_of_lt hlt, hz,
    mul_eq_zero_iff_right (mul_ne_zero two_ne_zero_curveP (pow_ne_zero 4 hq.cast_z_ne_zero))]

theorem hasAffine_doubleTriple (hq : q.HasAffine x y) (hy : y ≠ 0) :
    (doubleTriple q).HasAffine (curve.addX x x (curve.slope x x y y)) (curve.addY x x y (curve.slope x x y y)) := by
  obtain ⟨hX3, hY3⟩ := doubling_of_slope (tangent_slope (x := x) hy) hq.x_eq hq.y_eq (cast_doubleTriple_z q)
    (cast_doubleTriple_x q) (cast_doubleTriple_y q)
  refine ⟨reduced_doubleTriple q, mt (doubleTriple_z_eq_zero_iff hq).1 hy, ?_, ?_⟩
  · rw [curve_addX, hX3]
  · rw [curve_addY, curve_addX, hY3]

theorem represents_pointDouble (h : q.Represents Q) : (pointDouble q).toJacobian.Represents (Q + Q) := by
  cases h with
  | infinity _ hz =>
    rw [pointDouble_infinity (.inl hz), add_zero]
    exact represents_infinity
  | @finite x y h hq =>
    have hz3 := doubleTriple_z_eq_zero_iff hq
    by_cases hy : y = 0
    · rw [pointDouble_infinity (.inr (hz3.2 hy)), Point.add_self_of_Y_eq (by rw [curve_negY, hy, neg_zero])]
      exact represents_infinity
    · rw [pointDouble_finite hq.z_ne_zero (mt hz3.1 hy), Point.add_self_of_Y_ne (y_ne_negY hy)]
      exact .finite _ (hasAffine_doubleTriple hq hy)

/-! ## PADD adds (R110) -/

theorem addH_eq_zero_iff (hp : p.HasAffine x₁ y₁) (hq : q.HasAffine x₂ y₂) : addH p q = 0 ↔ x₁ = x₂ := by
  have hH : (addH p q : ZMod curveP) = (x₂ - x₁) * (p.z * q.z) ^ 2 := by
    rw [cast_addH, hp.x_eq, hq.x_eq]
    ring
  have hz := mul_ne_zero hp.cast_z_ne_zero hq.cast_z_ne_zero
  rw [← cast_eq_zero_iff_of_lt (addH_lt p q), hH, mul_eq_zero_iff_right (pow_ne_zero 2 hz), sub_eq_zero, eq_comm]

theorem addR_eq_zero_iff (hp : p.HasAffine x₁ y₁) (hq : q.HasAffine x₂ y₂) : addR p q = 0 ↔ y₁ = y₂ := by
  have hR : (addR p q : ZMod curveP) = (y₂ - y₁) * (2 * (p.z * q.z) ^ 3) := by
    rw [cast_addR, hp.y_eq, hq.y_eq]
    ring
  have hz := mul_ne_zero hp.cast_z_ne_zero hq.cast_z_ne_zero
  rw [← cast_eq_zero_iff_of_lt (addR_lt p q), hR,
    mul_eq_zero_iff_right (mul_ne_zero two_ne_zero_curveP (pow_ne_zero 3 hz)), sub_eq_zero, eq_comm]

theorem addTriple_z_ne_zero (hp : p.HasAffine x₁ y₁) (hq : q.HasAffine x₂ y₂) (hx : x₁ ≠ x₂) :
    (addTriple p q).z ≠ 0 := by
  have hz := mul_ne_zero hp.cast_z_ne_zero hq.cast_z_ne_zero
  have hH : (addH p q : ZMod curveP) ≠ 0 :=
    mt (cast_eq_zero_iff_of_lt (addH_lt p q)).1 (mt (addH_eq_zero_iff hp hq).1 hx)
  have hz3 : ((addTriple p q).z : ZMod curveP) = 2 * (p.z * q.z) * addH p q := by
    rw [cast_addTriple_z]
    ring
  intro h
  rw [h, Nat.cast_zero] at hz3
  exact mul_ne_zero (mul_ne_zero two_ne_zero_curveP hz) hH hz3.symm

theorem hasAffine_addTriple (hp : p.HasAffine x₁ y₁) (hq : q.HasAffine x₂ y₂) (hx : x₁ ≠ x₂) :
    (addTriple p q).HasAffine (curve.addX x₁ x₂ (curve.slope x₁ x₂ y₁ y₂))
      (curve.addY x₁ x₂ y₁ (curve.slope x₁ x₂ y₁ y₂)) := by
  have hslope : curve.slope x₁ x₂ y₁ y₂ * (x₁ - x₂) = y₁ - y₂ := by
    rw [slope_of_X_ne hx, div_mul_cancel₀ _ (sub_ne_zero.2 hx)]
  obtain ⟨hX3, hY3⟩ := addition_of_slope hslope hp.x_eq hp.y_eq hq.x_eq hq.y_eq (cast_addH p q) (cast_addR p q)
    (cast_addTriple_z p q) (cast_addTriple_x p q) (cast_addTriple_y p q)
  refine ⟨reduced_addTriple p q, addTriple_z_ne_zero hp hq hx, ?_, ?_⟩
  · rw [curve_addX, hX3]
  · rw [curve_addY, curve_addX, hY3]

theorem represents_pointAdd_finite (h₁ : curve.Nonsingular x₁ y₁) (h₂ : curve.Nonsingular x₂ y₂)
    (hp : p.HasAffine x₁ y₁) (hq : q.HasAffine x₂ y₂) :
    (pointAdd p q).toJacobian.Represents (.some x₁ y₁ h₁ + .some x₂ y₂ h₂) := by
  rw [pointAdd_finite hp.z_ne_zero hq.z_ne_zero]
  by_cases hx : x₁ = x₂
  · rw [if_pos ((addH_eq_zero_iff hp hq).2 hx)]
    by_cases hy : y₁ = y₂
    · rw [if_pos ((addR_eq_zero_iff hp hq).2 hy)]
      subst hx hy
      exact represents_pointDouble (.finite h₁ hp)
    · rw [if_neg (mt (addR_eq_zero_iff hp hq).1 hy),
        Point.add_of_Y_eq hx ((Y_eq_of_X_eq h₁.1 h₂.1 hx).resolve_left hy)]
      exact represents_infinity
  · rw [if_neg (mt (addH_eq_zero_iff hp hq).1 hx), Point.add_of_X_ne hx]
    exact .finite _ (hasAffine_addTriple hp hq hx)

theorem represents_pointAdd (hp : p.Represents P) (hq : q.Represents Q) :
    (pointAdd p q).toJacobian.Represents (P + Q) := by
  by_cases hpz : p.z = 0
  · rw [hp.z_eq_zero_iff.1 hpz, zero_add]
    by_cases hqz : q.z = 0
    · rw [pointAdd_infinities hpz hqz, hq.z_eq_zero_iff.1 hqz]
      exact represents_infinity
    · rwa [pointAdd_first_infinity hpz hqz]
  by_cases hqz : q.z = 0
  · rwa [pointAdd_second_infinity hpz hqz, hq.z_eq_zero_iff.1 hqz, add_zero]
  cases hp with
  | infinity _ hz => exact absurd hz hpz
  | finite h₁ hp =>
  cases hq with
  | infinity _ hz => exact absurd hz hqz
  | finite h₂ hq => exact represents_pointAdd_finite h₁ h₂ hp hq

/-! ## Scalar multiplication (R113) -/

/-- Double and add keeps that the accumulator stands for the multiple by the bits read so far. -/
theorem represents_scalarMulFrom (hq : q.Represents Q) (k n : Nat) (acc : Jacobian)
    (hacc : acc.Represents ((k / 2 ^ n) • Q)) : (scalarMulFrom k q n acc).Represents (k • Q) := by
  induction n generalizing acc with
  | zero => rwa [pow_zero, Nat.div_one] at hacc
  | succ n ih =>
    have hbit : k / 2 ^ n = k / 2 ^ (n + 1) + k / 2 ^ (n + 1) + k / 2 ^ n % 2 := by
      rw [pow_succ, ← Nat.div_div_eq_div_mul]
      omega
    have hdouble := represents_pointDouble hacc
    refine ih _ ?_
    rw [hbit, add_nsmul, add_nsmul, Nat.testBit_eq_decide_div_mod_eq]
    rcases Nat.mod_two_eq_zero_or_one (k / 2 ^ n) with hb | hb
    · rw [hb, zero_nsmul, add_zero]
      exact hdouble
    · rw [hb, one_nsmul]
      exact represents_pointAdd hdouble hq

theorem represents_scalarMul (hq : q.Represents Q) {k : Nat} (hk : k < 2 ^ 256) :
    (scalarMul k q).Represents (k • Q) := by
  apply represents_scalarMulFrom hq
  rw [Nat.div_eq_of_lt hk, zero_nsmul]
  exact represents_infinity

/-! ## Affine conversion (R112) -/

theorem cast_affine (hq : q.HasAffine x y) :
    (affineX q : ZMod curveP) = x ∧ (affineY q : ZMod curveP) = y := by
  obtain ⟨-, -, hlt⟩ := hq.reduced
  have hinv : (q.z : ZMod curveP) * modInv curveP q.z = 1 := cast_mul_modInv .p hlt hq.z_ne_zero
  constructor
  · rw [affineX, cast_fmul, cast_fsq, hq.x_eq, mul_assoc, ← mul_pow, hinv, one_pow, mul_one]
  · rw [affineY, cast_fmul, cast_fmul, cast_fsq, hq.y_eq, ← pow_succ, mul_assoc, ← mul_pow, hinv, one_pow, mul_one]

/-- Triples of one finite point have one affine x. -/
theorem affineX_eq_of_represents (hp : p.Represents Q) (hq : q.Represents Q) (hQ : Q ≠ 0) :
    affineX p = affineX q := by
  cases hp with
  | infinity => exact absurd rfl hQ
  | finite h hp =>
  cases hq with
  | finite _ hq =>
    obtain ⟨hpx, -⟩ := cast_affine hp
    obtain ⟨hqx, -⟩ := cast_affine hq
    exact (cast_inj_of_lt (fmul_lt _ _) (fmul_lt _ _)).1 (hpx.trans hqx.symm)

end

/-! ## Points with Z = 1: public keys (R147) and the generator (R103) -/

/-- The triple that verification reads from a public key (R147). -/
def publicTriple (x y : Nat) : Jacobian := ⟨x % curveP, y % curveP, 1⟩

theorem hasAffine_publicTriple (x y : Nat) : (publicTriple x y).HasAffine x y := by
  refine ⟨⟨Nat.mod_lt _ curveP_pos, Nat.mod_lt _ curveP_pos, ?_⟩, one_ne_zero, ?_, ?_⟩
  · exact modulusValue_pos .p
  · rw [publicTriple, ZMod.natCast_mod, Nat.cast_one, one_pow, mul_one]
  · rw [publicTriple, ZMod.natCast_mod, Nat.cast_one, one_pow, mul_one]

theorem onCurve_publicTriple_iff (x y : Nat) : onCurve (publicTriple x y) = true ↔ curve.Equation x y := by
  obtain ⟨-, -, hlt⟩ := (hasAffine_publicTriple x y).reduced
  have hz : ((publicTriple x y).z : ZMod curveP) ≠ 0 :=
    mt (cast_eq_zero_iff_of_lt hlt).1 (hasAffine_publicTriple x y).z_ne_zero
  rw [onCurve_iff hlt, curve_equation_iff, and_iff_right hz]
  simp only [publicTriple, ZMod.natCast_mod, Nat.cast_one, one_pow, mul_one]

theorem generator_eq_publicTriple : generator = publicTriple curveGx curveGy := by decide

theorem generator_nonsingular : curve.Nonsingular curveGx curveGy := by
  have h2y : ((2 * curveGy : Nat) : ZMod curveP) ≠ 0 := by
    rw [← ZMod.natCast_mod]
    exact mt (cast_eq_zero_iff_of_lt (Nat.mod_lt _ curveP_pos)).1 (by decide)
  rw [Nat.cast_mul, Nat.cast_ofNat] at h2y
  refine (nonsingular_iff' ..).2 ⟨(onCurve_publicTriple_iff _ _).1 (by decide), .inr ?_⟩
  simpa only [curve, zero_mul, add_zero] using h2y

/-- The generator as a point of the group. -/
def generatorPoint : curve.Point := .some curveGx curveGy generator_nonsingular

theorem generator_represents : generator.Represents generatorPoint := by
  rw [generator_eq_publicTriple]
  exact .finite _ (hasAffine_publicTriple _ _)

/-! ## The order of the generator (R103) -/

section
variable [Fact curveP.Prime]

theorem addOrderOf_generatorPoint : addOrderOf generatorPoint = curveN := by
  have : Fact curveN.Prime := ⟨Laws.curveN_prime⟩
  apply addOrderOf_eq_prime
  · exact (represents_scalarMul generator_represents (by decide)).z_eq_zero_iff.1 Laws.order_mul_generator
  · exact Point.some_ne_zero _

theorem nsmul_generatorPoint_ne_zero {k : Nat} (hk : 0 < k) (hkN : k < curveN) : k • generatorPoint ≠ 0 := by
  rw [ne_eq, ← addOrderOf_dvd_iff_nsmul_eq_zero, addOrderOf_generatorPoint]
  exact Nat.not_dvd_of_pos_of_lt hk hkN

theorem nsmul_generatorPoint_congr {j k : Nat} (h : j ≡ k [MOD curveN]) : j • generatorPoint = k • generatorPoint := by
  rwa [nsmul_eq_nsmul_iff_modEq, addOrderOf_generatorPoint]

/-! ## The public point (R145) -/

/-- Verification reads a public key as a triple of its point, and finds it on the curve. -/
theorem publicTriple_publicKey {d : Nat} (hd : 0 < d) (hdN : d < curveN) :
    onCurve (publicTriple (publicKey d).1 (publicKey d).2) = true
      ∧ (publicTriple (publicKey d).1 (publicKey d).2).Represents (d • generatorPoint) := by
  have hrep := represents_scalarMul generator_represents (hdN.trans (modulusValue_bounds .n).1)
  have hne := nsmul_generatorPoint_ne_zero hd hdN
  have htriple := hasAffine_publicTriple (publicKey d).1 (publicKey d).2
  generalize d • generatorPoint = Q at hrep hne
  rw [onCurve_publicTriple_iff]
  cases hrep with
  | infinity => exact absurd rfl hne
  | finite h hq =>
    obtain ⟨hx, hy⟩ := cast_affine hq
    rw [publicKey, hx, hy] at htriple
    rw [publicKey, hx, hy]
    exact ⟨h.1, .finite h htriple⟩

end

/-! ## Verification (R147) -/

/-- The point (x1, y1) of step 5 of verification (R147). -/
def verifySum (r s x y : Nat) : Jacobian :=
  (pointAdd (scalarMul s generator) (scalarMul ((r + s) % curveN) (publicTriple x y))).toJacobian

/-- Verification of a digest accepts where none of R147's steps rejects. -/
theorem verifyDigest_iff (r s e x y : Nat) : verifyDigest r s e x y = true ↔
    (r ≠ 0 ∧ r < curveN ∧ s ≠ 0 ∧ s < curveN) ∧ (r + s) % curveN ≠ 0 ∧ onCurve (publicTriple x y) = true
      ∧ (verifySum r s x y).z ≠ 0 ∧ modAdd curveN (e % curveN) (affineX (verifySum r s x y) % curveN) = r := by
  have hsteps : verifyDigest r s e x y
      = if r = 0 || curveN ≤ r || s = 0 || curveN ≤ s then false
        else if (r + s) % curveN = 0 then false
        else if !onCurve (publicTriple x y) then false
        else if (verifySum r s x y).z = 0 then false
        else modAdd curveN (e % curveN) (affineX (verifySum r s x y) % curveN) == r := rfl
  have hrange : ¬(r = 0 || curveN ≤ r || s = 0 || curveN ≤ s) = true
      ↔ r ≠ 0 ∧ r < curveN ∧ s ≠ 0 ∧ s < curveN := by
    simp only [Bool.or_eq_true, decide_eq_true_eq]
    omega
  rw [hsteps, ← hrange]
  simp only [Bool.if_false_left, Bool.and_eq_true, Bool.not_eq_true', decide_eq_false_iff_not, beq_iff_eq, ne_eq,
    Bool.not_eq_false]

/-- Verification accepts 64 bytes whose halves it accepts as r and s, for an identity that has a digest (R147). -/
theorem verify_iff (ident msg sig : List Byte) (x y : Nat) : verify ident msg sig x y = true ↔
    sig.length = 64 ∧ ∃ zid, identityDigest ident x y = some zid
      ∧ verifyDigest (natOfBytes (sig.take 32)) (natOfBytes (sig.drop 32)) (messageDigest zid msg) x y = true := by
  unfold verify
  split
  · next h => exact iff_of_false Bool.false_ne_true fun hv => h hv.1
  · next h =>
    rw [and_iff_right (not_not.1 h)]
    split
    · next hz => simp [hz]
    · next zid hz => simp [hz]

/-! ## Signing (R146) -/

/-- s = (1 + D)⁻¹·(k − r·D), without the division. -/
theorem signature_equation {d k r s : Nat} (hd : d < curveN - 1)
    (hs : s = modMul curveN (modInv curveN (modAdd curveN 1 d)) (modSub curveN k (modMul curveN r d))) :
    s + (r + s) * d ≡ k [MOD curveN] := by
  have hN : 0 < curveN := zero_lt_modulusValue .n
  have hsum : modAdd curveN 1 d = 1 + d := Nat.mod_eq_of_lt (by omega)
  have hinv : ((1 + d : Nat) : ZMod curveN) * modInv curveN (1 + d) = 1 :=
    cast_mul_modInv .n (show 1 + d < curveN by omega) (by omega)
  have hle : modMul curveN r d ≤ curveN := (modMul_lt hN r d).le
  have hcast : (s : ZMod curveN) = modInv curveN (1 + d) * (k - r * d) := by
    rw [hs, hsum, modMul, ZMod.natCast_mod, Nat.cast_mul, modSub, ZMod.natCast_mod, Nat.cast_add, Nat.cast_sub hle,
      ZMod.natCast_self, modMul, ZMod.natCast_mod, Nat.cast_mul]
    ring
  rw [← ZMod.natCast_eq_natCast_iff]
  push_cast at hinv ⊢
  rw [hcast]
  linear_combination (k - r * d : ZMod curveN) * hinv

/-- Where t = r + s is 0, s is k, so that signing would have resampled for r + k = N (R146). -/
theorem sum_mod_ne_zero {d k r s : Nat} (hk : s + (r + s) * d ≡ k [MOD curveN]) (hrk : (r + k) % curveN ≠ 0) :
    (r + s) % curveN ≠ 0 := by
  intro ht
  have hzero : (r + s) * d ≡ 0 * d [MOD curveN] := Nat.ModEq.mul_right d ht
  rw [zero_mul] at hzero
  have hsk : s ≡ k [MOD curveN] := (hzero.add_left s).symm.trans hk
  exact hrk (Eq.trans (hsk.add_left r).symm ht)

/-- A signature that signing answers is one that its loop accepted for the digest that verification computes. -/
theorem sign_signature {ident msg sig : List Byte} {d : Nat} {rands : List Nat}
    (h : sign ident msg d rands = .signature sig) :
    ∃ zid, identityDigest ident (publicKey d).1 (publicKey d).2 = some zid
      ∧ ∃ k r s, signDigest d k (messageDigest zid msg) = .accepted r s ∧ sig = encodeSignature (r, s) := by
  simp only [sign] at h
  split at h
  · cases h
  · next zid hzid =>
    obtain ⟨rand, -, r, s, haccepted, rfl⟩ := Laws.signLoop_signature h
    exact ⟨zid, hzid, _, r, s, haccepted, rfl⟩

/-! ## The 64 bytes of a signature (R146, R147) -/

theorem encodeSignature_length (rs : Nat × Nat) : (encodeSignature rs).length = 64 := by
  rw [encodeSignature, List.length_append, bytesBE_length, bytesBE_length]

theorem pow_32_bytes : (256 : Nat) ^ 32 = 2 ^ 256 := by norm_num

/-- Verification reads r and s as they were encoded. -/
theorem natOfBytes_encodeSignature {r s : Nat} (hr : r < 2 ^ 256) (hs : s < 2 ^ 256) :
    natOfBytes ((encodeSignature (r, s)).take 32) = r ∧ natOfBytes ((encodeSignature (r, s)).drop 32) = s := by
  have hlen : (bytesBE 32 r).length = 32 := bytesBE_length 32 r
  rw [encodeSignature, List.take_left' hlen, List.drop_left' hlen, natOfBytes_bytesBE, natOfBytes_bytesBE, pow_32_bytes,
    Nat.mod_eq_of_lt hr, Nat.mod_eq_of_lt hs]
  exact ⟨rfl, rfl⟩

/-! ## A signature verifies (R148) -/

section
variable [Fact curveP.Prime]

/-- The sum of verification is the point k·G of signing: s·G + t·(D·G) = (s + t·D)·G (R148). -/
theorem verifySum_represents {d k r s : Nat} (hd : 0 < d) (hdN : d < curveN) (hs : s < curveN)
    (hk : s + (r + s) * d ≡ k [MOD curveN]) :
    (verifySum r s (publicKey d).1 (publicKey d).2).Represents (k • generatorPoint) := by
  have hN : curveN < 2 ^ 256 := (modulusValue_bounds .n).1
  have ht : (r + s) % curveN < curveN := Nat.mod_lt _ (zero_lt_modulusValue .n)
  obtain ⟨-, hpub⟩ := publicTriple_publicKey hd hdN
  have hsum := represents_pointAdd (represents_scalarMul generator_represents (hs.trans hN))
    (represents_scalarMul hpub (ht.trans hN))
  have hmultiple : s • generatorPoint + ((r + s) % curveN) • d • generatorPoint = k • generatorPoint := by
    rw [← mul_nsmul', ← add_nsmul]
    exact nsmul_generatorPoint_congr ((((Nat.mod_modEq _ _).mul_right d).add_left s).trans hk)
  rwa [hmultiple] at hsum

/-- The digest's signature verifies (R148). -/
theorem verifyDigest_of_signDigest {d k e r s : Nat} (h : signDigest d k e = .accepted r s) :
    verifyDigest r s e (publicKey d).1 (publicKey d).2 = true := by
  obtain ⟨hk, hkN, hd, hdN, hr, hrN, hs, hsN, hr_eq, hrk, hs_eq⟩ := Laws.signDigest_accepted h
  have hdN' : d < curveN := by omega
  have hequation := signature_equation hdN hs_eq
  have hne := nsmul_generatorPoint_ne_zero hk hkN
  have hsum := verifySum_represents (r := r) hd hdN' hsN hequation
  obtain ⟨hcurve, -⟩ := publicTriple_publicKey hd hdN'
  have hx : affineX (verifySum r s (publicKey d).1 (publicKey d).2) = affineX (scalarMul k generator) :=
    affineX_eq_of_represents hsum
      (represents_scalarMul generator_represents (hkN.trans (modulusValue_bounds .n).1)) hne
  refine (verifyDigest_iff ..).2 ⟨⟨hr.ne', hrN, hs.ne', hsN⟩, sum_mod_ne_zero hequation hrk, hcurve,
    mt hsum.z_eq_zero_iff.1 hne, ?_⟩
  rw [hx, hr_eq]
  rfl

end

/-! ## The identity digest's input (R142, R143) -/

theorem identityInput_eq_none_iff (ident : List Byte) (x y : Nat) :
    identityInput ident x y = none ↔ 0xFFFF < 8 * ident.length := by
  rw [identityInput]
  split
  · next h => exact iff_of_true rfl h
  · next h => exact iff_of_false (Option.some_ne_none _) h

/-- 32-byte numbers in a row stand 32 bytes apart. -/
theorem natOfBytes_word (ws : List Nat) {i : Nat} (hi : i < ws.length) :
    natOfBytes (((ws.flatMap (bytesBE 32)).drop (32 * i)).take 32) = ws[i] % 256 ^ 32 := by
  induction ws generalizing i with
  | nil => exact absurd hi (Nat.not_lt_zero i)
  | cons w ws ih =>
    have hlen : (bytesBE 32 w).length = 32 := bytesBE_length 32 w
    rw [List.flatMap_cons]
    cases i with
    | zero => rw [Nat.mul_zero, List.drop_zero, List.take_left' hlen, natOfBytes_bytesBE, List.getElem_cons_zero]
    | succ i =>
      have hnext : 32 * (i + 1) = (bytesBE 32 w).length + 32 * i := by
        rw [hlen]
        omega
      rw [hnext, List.drop_length_add_append, ih (Nat.lt_of_succ_lt_succ hi), List.getElem_cons_succ]

/-- The six numbers at the end of the identity digest's input. -/
def identityWords (x y : Nat) : List Nat := [curveA, curveB, curveGx, curveGy, x, y]

theorem identityInput_eq_some {ident bs : List Byte} {x y : Nat} (h : identityInput ident x y = some bs) :
    8 * ident.length ≤ 0xFFFF
      ∧ bs = bytesBE 2 (8 * ident.length) ++ (ident ++ (identityWords x y).flatMap (bytesBE 32)) := by
  rw [identityInput] at h
  split at h
  · cases h
  · next hle =>
    cases h
    refine ⟨Nat.not_lt.1 hle, ?_⟩
    simp only [identityWords, List.flatMap_cons, List.flatMap_nil, List.append_assoc, List.append_nil]

theorem natOfBytes_identityInput_word {ident bs : List Byte} {x y : Nat} (h : identityInput ident x y = some bs)
    {i k : Nat} (hi : i < 6) (hk : k = 2 + ident.length + 32 * i) :
    natOfBytes ((bs.drop k).take 32) = (identityWords x y)[i] % 2 ^ 256 := by
  obtain ⟨-, rfl⟩ := identityInput_eq_some h
  have hoffset : k = (bytesBE 2 (8 * ident.length) ++ ident).length + 32 * i := by
    rw [hk, List.length_append, bytesBE_length]
  rw [hoffset, ← List.append_assoc, List.drop_length_add_append, ← pow_32_bytes]
  exact natOfBytes_word (identityWords x y) hi

theorem natOfBytes_identityInput_constant {ident bs : List Byte} {x y v : Nat}
    (h : identityInput ident x y = some bs) {i k : Nat} (hi : i < 6) (hk : k = 2 + ident.length + 32 * i)
    (hv : (identityWords x y)[i] = v) (hlt : v < 2 ^ 256) : natOfBytes ((bs.drop k).take 32) = v := by
  rw [natOfBytes_identityInput_word h hi hk, hv, Nat.mod_eq_of_lt hlt]

theorem identityInput_length {ident bs : List Byte} {x y : Nat} (h : identityInput ident x y = some bs) :
    bs.length = 194 + ident.length := by
  obtain ⟨-, rfl⟩ := identityInput_eq_some h
  simp only [identityWords, List.flatMap_cons, List.flatMap_nil, List.length_append, bytesBE_length, List.length_nil]
  omega

/-- The bit length of the identity, and the identity, stand at the start. -/
theorem identityInput_start {ident bs : List Byte} {x y : Nat} (h : identityInput ident x y = some bs) :
    natOfBytes (bs.take 2) = 8 * ident.length ∧ (bs.drop 2).take ident.length = ident := by
  obtain ⟨hle, rfl⟩ := identityInput_eq_some h
  have hlen : (bytesBE 2 (8 * ident.length)).length = 2 := bytesBE_length 2 _
  rw [List.take_left' hlen, List.drop_left' hlen, List.take_left, natOfBytes_bytesBE]
  exact ⟨Nat.mod_eq_of_lt (by omega), rfl⟩

theorem identityDigest_eq_none {ident : List Byte} {x y : Nat} (h : 0xFFFF < 8 * ident.length) :
    identityDigest ident x y = none := by
  rw [identityDigest, (identityInput_eq_none_iff ident x y).2 h, Option.map_none]

/-! ## The statements -/

/-- Settles O60: the input is its fields in a row, and each rejection denies a step of R147. -/
theorem identityInputAndVerifyBounds : Obligations.IdentityInputAndVerifyBounds := by
  refine ⟨identityInput_eq_none_iff, fun ident x y bs h => ?layout, fun ident msg sig x y hlen => ?length,
    fun ident msg sig x y r s hsig hr hs hreject => ?step, fun ident msg sig x y hlong => ?identity⟩
  case layout =>
    have hlen := identityInput_length h
    obtain ⟨hbits, hident⟩ := identityInput_start h
    refine ⟨hlen, hbits, hident, ?_, ?_, ?_, ?_, ?_, ?_⟩
    · exact natOfBytes_identityInput_constant h (i := 0) (by decide) (by omega) curveA_eq (by decide)
    · exact natOfBytes_identityInput_constant h (i := 1) (by decide) (by omega) rfl (by decide)
    · exact natOfBytes_identityInput_constant h (i := 2) (by decide) (by omega) rfl (by decide)
    · exact natOfBytes_identityInput_constant h (i := 3) (by decide) (by omega) rfl (by decide)
    · exact natOfBytes_identityInput_word h (i := 4) (by decide) (by omega)
    · have hlast := natOfBytes_identityInput_word h (i := 5) (k := 162 + ident.length) (by decide) (by omega)
      rwa [List.take_of_length_le (by rw [List.length_drop]; omega)] at hlast
  case length => exact Bool.eq_false_iff.2 fun hv => hlen ((verify_iff ..).1 hv).1
  case step =>
    subst hsig
    refine Bool.eq_false_iff.2 fun hv => ?_
    obtain ⟨-, zid, -, hdigest⟩ := (verify_iff ..).1 hv
    obtain ⟨hr', hs'⟩ := natOfBytes_encodeSignature hr hs
    rw [hr', hs'] at hdigest
    obtain ⟨⟨hr0, hrN, hs0, hsN⟩, ht, hcurve, hfinite, -⟩ := (verifyDigest_iff ..).1 hdigest
    rw [onCurve_publicTriple_iff, curve_equation_iff] at hcurve
    rcases hreject with h | h | h | h | h | h | h
    · exact hr0 h
    · exact Nat.not_le.2 hrN h
    · exact hs0 h
    · exact Nat.not_le.2 hsN h
    · exact ht h
    · exact h hcurve
    · exact hfinite h
  case identity =>
    refine Bool.eq_false_iff.2 fun hv => ?_
    obtain ⟨-, zid, hzid, -⟩ := (verify_iff ..).1 hv
    rw [identityDigest_eq_none hlong] at hzid
    cases hzid

/-- Settles O10: both procedures compute k·G in the group of the curve, which has order N at G. -/
theorem verifyAcceptsOwnSignatures : Obligations.VerifyAcceptsOwnSignatures := by
  intro ident msg d rands sig hd hdN hsign
  have : Fact curveP.Prime := ⟨Laws.curveP_prime⟩
  obtain ⟨zid, hzid, k, r, s, haccepted, rfl⟩ := sign_signature hsign
  obtain ⟨-, -, -, -, -, hrN, -, hsN, -, -, -⟩ := Laws.signDigest_accepted haccepted
  have hN : curveN < 2 ^ 256 := (modulusValue_bounds .n).1
  obtain ⟨hr, hs⟩ := natOfBytes_encodeSignature (hrN.trans hN) (hsN.trans hN)
  refine ⟨encodeSignature_length _, (verify_iff ..).2 ⟨encodeSignature_length _, zid, hzid, ?_⟩⟩
  rw [hr, hs]
  exact verifyDigest_of_signDigest haccepted

end Sys2Proof.Machine
end

section
/-! SUPPORT. The proofs of the statements about faults, stops and the interrupt (spec/60_exceptions.md): first what an
instruction that sets FAULT leaves and what CONST does with a reserved number; then what a turn of the core is while
Running, and what irq is after each kind of stop and each write of the host; then the statements, by tier. -/

namespace Sys2Proof.Machine

/-! ## Faults of an instruction (R150, R151) -/

section
variable {i : Instr} {s t : State}

/-- An instruction that sets FAULT raises one of its own causes, and that is its whole effect. -/
theorem exec_raises (h : exec i s = .next t) (hf : s.status.fault = false) (ht : t.status.fault = true) :
    ∃ c, t = s.raise c (encode i) ∧ ((c = .range ∧ Instr.mayRange i = true)
      ∨ (c = .daddr ∧ Instr.mayDaddr i = true) ∨ (c = .illegal ∧ i.wellFormed = false)) := by
  cases exec_outcome h with
  | completes hc =>
    rw [hc.status, hf] at ht
    cases ht
  | halts _ hdone =>
    rw [hdone, State.stopDone_status, hf] at ht
    cases ht
  | faults c hraise hc => exact ⟨c, hraise, hc⟩

/-- A fault taken where DONE is 0 is observed as that stop, in the state it leaves (R170). -/
theorem State.observation_raise (c : Cause) (w : Word) (hd : s.status.done = false) :
    (s.raise c w).observation = some ((s.raise c w).observationOf (.fault c)) := by
  simp [State.observation, hd]

/-- A reserved number has no constant (R85). -/
theorem constValue_of_reserved {cid : ConstId} (h : 12 ≤ cid.val) : constValue cid = none := by
  rcases constValue_cases 0 cid with ⟨hwf, -⟩ | ⟨-, hv⟩
  · exact absurd (of_decide_eq_true hwf) (by omega)
  · exact hv

theorem exec_const_of_reserved {cid : ConstId} (rd : BReg) (s : State) (h : 12 ≤ cid.val) :
    exec (.const rd cid) s = .next (s.raise .illegal (encode (.const rd cid))) := by
  rw [exec, execConst, constValue_of_reserved h]

end

/-! ## A turn of the core while Running (R70, R150, R152) -/

section
variable {s t : State} {why : IllegalReason}

/-- A fetch changes the count of draws at most (R48). -/
theorem State.fetch_snd (s : State) : ∃ n, s.fetch.2 = { s with draws := n } := by
  rcases s.fetch_cases with ⟨w, -, hf⟩ | ⟨-, hf⟩ <;> rw [hf]
  · exact ⟨s.draws, rfl⟩
  · exact ⟨s.draws + 1, rfl⟩

theorem coreTurn_running (hr : s.rst = false) (hb : s.status.busy = true) : coreTurn s = coreStep s := by
  rw [coreTurn, hb, hr]
  rfl

/-- A fetch outside IMEM raises FETCH before anything is decoded. -/
theorem coreTurn_of_pc_outside (hr : s.rst = false) (hb : s.status.busy = true) (hpc : 256 ≤ s.pc.toNat) :
    coreTurn s = .next (s.raise .fetch 0) := by
  have hstep : coreStep s = .next (s.raise .fetch 0) := if_pos hpc
  rw [coreTurn_running hr hb, hstep]

/-- A fetched word that fails decode raises ILLEGAL. -/
theorem coreTurn_of_illegal (hr : s.rst = false) (hb : s.status.busy = true) (hpc : s.pc.toNat < 256)
    (hd : decode s.fetch.1 = .illegal why) :
    coreTurn s = .next (s.fetch.2.raise .illegal s.fetch.1) := by
  have hstep : coreStep s = runWord s.fetch.1 s.fetch.2 := if_neg (Nat.not_le.2 hpc)
  rw [coreTurn_running hr hb, hstep, runWord, hd]

/-- A turn of the core while Running: FETCH outside IMEM, and inside it ILLEGAL or the decoded instruction, each
after the fetch. -/
theorem coreTurn_cases (hr : s.rst = false) (hb : s.status.busy = true) (h : coreTurn s = .next t) :
    (256 ≤ s.pc.toNat ∧ t = s.raise .fetch 0) ∨
    (s.pc.toNat < 256 ∧ ∃ why, decode s.fetch.1 = .illegal why ∧ t = s.fetch.2.raise .illegal s.fetch.1) ∨
    (s.pc.toNat < 256 ∧ ∃ i, decode s.fetch.1 = .instr i ∧ exec i s.fetch.2 = .next t) := by
  rcases Nat.lt_or_ge s.pc.toNat 256 with hpc | hpc
  · cases hd : decode s.fetch.1 with
    | illegal why =>
      exact .inr (.inl ⟨hpc, why, rfl, Host.Outcome.next.inj (h.symm.trans (coreTurn_of_illegal hr hb hpc hd))⟩)
    | instr i => exact .inr (.inr ⟨hpc, i, rfl, (coreTurn_of_decode hr hb hpc hd).symm.trans h⟩)
  · exact .inl ⟨hpc, Host.Outcome.next.inj (h.symm.trans (coreTurn_of_pc_outside hr hb hpc))⟩

end

/-! ## The interrupt output (R156) -/

/-- From `s` to `t`, irq becomes IE with a stop and is kept without one. -/
def IrqFollowsStop (s t : State) : Prop :=
  (t.status.busy = false → t.irq = s.ctrl.ie) ∧ (t.status.busy = true → t.irq = s.irq)

section
variable {s t : State} {i : Instr}

/-- After a fault the interrupt output is IE. -/
theorem State.irq_raise (s : State) (c : Cause) (w : Word) : (s.raise c w).irq = s.ctrl.ie := by
  simp [State.irq]

/-- START clears both flags, so it ends the interrupt (R30). -/
theorem State.irq_start (s : State) (ie : Bool) (entry : BitVec 8) : (s.start ie entry).irq = false := by
  simp [State.irq]

theorem State.irqFollowsStop_raise (s : State) (c : Cause) (w : Word) : IrqFollowsStop s (s.raise c w) :=
  ⟨fun _ => s.irq_raise c w, fun hb => absurd hb Bool.false_ne_true⟩

theorem exec_irqFollowsStop (h : exec i s = .next t) (hb : s.status.busy = true) : IrqFollowsStop s t := by
  cases exec_outcome h with
  | completes hc =>
    refine ⟨fun hidle => ?_, fun _ => by rw [State.irq, hc.ctrl, hc.status, State.irq]⟩
    rw [hc.status, hb] at hidle
    cases hidle
  | halts _ ht => exact ht ▸ ⟨fun _ => s.irq_stopDone _, fun hb => absurd hb Bool.false_ne_true⟩
  | faults c ht _ => exact ht ▸ s.irqFollowsStop_raise c _

theorem coreTurn_irqFollowsStop (hr : s.rst = false) (hb : s.status.busy = true) (h : coreTurn s = .next t) :
    IrqFollowsStop s t := by
  obtain ⟨n, hn⟩ := s.fetch_snd
  rcases coreTurn_cases hr hb h with ⟨-, rfl⟩ | ⟨-, why, -, rfl⟩ | ⟨-, i, -, hi⟩
  · exact s.irqFollowsStop_raise .fetch 0
  · rw [hn]
    exact State.irqFollowsStop_raise { s with draws := n } .illegal s.fetch.1
  · rw [hn] at hi
    exact exec_irqFollowsStop (s := { s with draws := n }) hi hb

/-- Without IE there is no interrupt. -/
theorem State.irq_of_ie (h : s.ctrl.ie = false) : s.irq = false := by
  rw [State.irq, h, Bool.false_and]

/-- Without DONE and FAULT there is no interrupt. -/
theorem State.irq_of_flags (hd : s.status.done = false) (hf : s.status.fault = false) : s.irq = false := by
  rw [State.irq, hd, hf, Bool.or_self, Bool.and_false]

/-- A write of CTRL takes IE from the word, Idle or Running, with START or without (R29, R53). -/
theorem State.writeCtrl_ie (s : State) (d : Word) : (s.writeCtrl d).ctrl.ie = d.getLsbD 1 := by
  rcases s.writeCtrl_cases d with ⟨-, -, h⟩ | ⟨-, -, h⟩ | ⟨-, -, h⟩ | ⟨-, -, h⟩ <;> rw [h] <;> rfl

end

/-! ## The statements -/

/-- Settles O13: the instruction that sets FAULT is `raise`, whose observation is the stop it records. -/
theorem faultsArePrecise : Obligations.FaultsArePrecise := by
  intro i s t h hf ht
  obtain ⟨c, rfl, -⟩ := exec_raises h hf ht
  exact ⟨rfl, s.observation_raise c _⟩

/-- Settles O14: each cause that an instruction raises is one of its own. -/
theorem onlyListedInstructionsFault : Obligations.OnlyListedInstructionsFault := by
  refine ⟨fun i s t h hf ht => ?_, fun rd cid s hcid => faultsWith_of_raise (exec_const_of_reserved rd s hcid)⟩
  obtain ⟨c, rfl, hc⟩ := exec_raises h hf ht
  exact hc

/-- Settles O17: a completing instruction keeps the run state, and a fault sets BUSY, FAULT and CAUSE of it. -/
theorem onlyHaltActsOnRunState : Obligations.OnlyHaltActsOnRunState := by
  intro i s t h
  cases exec_outcome h with
  | completes hc =>
    exact ⟨hc.ctrl, congrArg Status.herr hc.status, ⟨hc.rst, hc.pending, hc.answer⟩,
      fun _ => congrArg Status.done hc.status, fun _ hne => absurd hc.status hne,
      fun _ _ _ => ⟨hc.status, hc.fpc, hc.finsn⟩⟩
  | halts hi ht =>
    subst ht
    exact ⟨rfl, rfl, ⟨rfl, rfl, rfl⟩, fun hne => absurd hi hne, fun hne => absurd hi hne, fun hne => absurd hi hne⟩
  | faults c ht _ =>
    subst ht
    exact ⟨rfl, rfl, ⟨rfl, rfl, rfl⟩, fun _ => rfl, fun _ _ => rfl,
      fun _ _ hb => absurd hb Bool.false_ne_true⟩

/-- Settles O8: each is a `raise`, of the state as it is or with the draw of the fetch counted. -/
theorem fetchAndDecodeFaultsStop : Obligations.FetchAndDecodeFaultsStop := by
  refine ⟨fun s hp hr hb hpc => ?fetch, fun s why hp hr hb hpc hd => ?illegal⟩
  case fetch =>
    exact ⟨_, (step_of_pending_nil hp).trans (coreTurn_of_pc_outside hr hb hpc),
      s.keepsProgramState_raise .fetch 0, ⟨rfl, rfl, rfl⟩, rfl, rfl, rfl, rfl, rfl⟩
  case illegal =>
    refine ⟨_, (step_of_pending_nil hp).trans (coreTurn_of_illegal hr hb hpc hd), ?_⟩
    obtain ⟨n, hn⟩ := s.fetch_snd
    rw [hn]
    exact ⟨State.keepsProgramState_raise { s with draws := n } .illegal s.fetch.1, ⟨rfl, rfl, rfl⟩, rfl, rfl, rfl,
      rfl, rfl⟩

/-- Settles O26: a turn of the core raises irq with a stop alone; the writes clear IE or the flags it is made of, and
a refused access sets HERR, which is no part of it. -/
theorem interruptFollowsStops : Obligations.InterruptFollowsStops := by
  refine ⟨fun _ => rfl, fun s t hp hr hb h => ?turn, fun s => ⟨_, rfl, rfl, s.irq_stopDone _⟩,
    fun i s t h hf ht => ?fault, fun s o d rest hr hp => ⟨fun ho => ?status, fun ho => ?ctrl⟩,
    fun s e o rest hr hb hp he ho => ?refused⟩
  case turn => exact coreTurn_irqFollowsStop hr hb ((step_of_pending_nil hp).symm.trans h)
  case fault =>
    obtain ⟨c, rfl, -⟩ := exec_raises h hf ht
    exact s.irq_raise c _
  case status =>
    refine ⟨_, step_write_status hr hp ho, fun hf h1 => State.irq_of_flags ?_ ?_,
      fun hd h2 => State.irq_of_flags ?_ ?_, fun h1 h2 => ?_⟩
    · simp [State.clearStatus, h1]
    · simp [State.clearStatus, hf]
    · simp [State.clearStatus, hd]
    · simp [State.clearStatus, h2]
    · simp only [State.irq, State.clearStatus, h1, h2, Bool.not_false, Bool.and_true]
  case ctrl =>
    refine ⟨_, step_write_ctrl hr hp ho, fun hb h0 => ?_, fun h1 => ?_⟩
    · rw [State.writeCtrl_idle_start (s := { s with pending := rest }) hb h0]
      exact State.irq_start _ _ _
    · exact State.irq_of_ie ((State.writeCtrl_ie _ d).trans h1)
  case refused =>
    have hclosed := windowWord_refused_of_offset ho
    rcases he with rfl | ⟨d, rfl⟩
    · exact ⟨_, step_read_refused hr hb hp hclosed, rfl⟩
    · exact ⟨_, step_write_refused hr hb hp hclosed, rfl⟩

end Sys2Proof.Machine
end

section
/-! SUPPORT. The proofs of the statements about reset and about steps that always answer
(spec/70_reset_and_hazards.md): first that every operation answers a next state, then what an event is while reset is
asserted and what a release leaves; then the statements, by tier. -/

namespace Sys2Proof.Machine

/-! ## Every operation answers a next state (R151, R171) -/

/-- The result is a next state: neither a fault of the model nor a refusal. -/
def AnswersNext (r : Result) : Prop := ∃ t, r = .next t

/-- An operation that tests something answers a next state if both its branches do. -/
theorem answersNext_ite {c : Prop} [Decidable c] {r q : Result} (hr : AnswersNext r) (hq : AnswersNext q) :
    AnswersNext (if c then r else q) := by
  split
  · exact hr
  · exact hq

theorem answersNext_loadBytes (n : Nat) (i : Instr) (rd : BReg) (ea : Nat) (s : State) :
    AnswersNext (loadBytes n i rd ea s) :=
  answersNext_ite ⟨_, rfl⟩ ⟨_, rfl⟩

theorem answersNext_storeBytes (n : Nat) (i : Instr) (v ea : Nat) (s : State) :
    AnswersNext (storeBytes n i v ea s) :=
  answersNext_ite ⟨_, rfl⟩ ⟨_, rfl⟩

theorem answersNext_modularResult (ok : Bool) (i : Instr) (rd : BReg) (r : Nat) (s : State) :
    AnswersNext (modularResult ok i rd r s) :=
  answersNext_ite ⟨_, rfl⟩ ⟨_, rfl⟩

/-- CONST writes the constant, or raises ILLEGAL where the number is reserved (R85). -/
theorem answersNext_execConst (rd : BReg) (cid : ConstId) (s : State) : AnswersNext (execConst rd cid s) := by
  unfold execConst
  cases constValue cid with
  | some v => exact ⟨_, rfl⟩
  | none => exact ⟨_, rfl⟩

/-- Every instruction answers a next state: an untested result, or a test of its operands that completes or raises. -/
theorem answersNext_exec (i : Instr) (s : State) : AnswersNext (exec i s) := by
  cases i with
  | nop | halt | jmp | bz | bnz | bt | bnt | dbra | li | addi | btst | mov | mred | rchk | pgen | hinit | hset | hget
  | hcomp | hp0 | hp1 | kexp | enc | dec | sbox | ldif | lkey => exact ⟨_, rfl⟩
  | const rd cid => exact answersNext_execConst rd cid s
  | ldw | ldq => exact answersNext_loadBytes ..
  | stw | stq => exact answersNext_storeBytes ..
  | madd | msub | mmul | minv | tom | fromm => exact answersNext_modularResult ..
  | pdbl | padd | pchk => exact answersNext_ite ⟨_, rfl⟩ ⟨_, rfl⟩

theorem answersNext_runWord (w : Word) (s : State) : AnswersNext (runWord w s) := by
  unfold runWord
  cases decode w with
  | instr i => exact answersNext_exec i s
  | illegal why => exact ⟨_, rfl⟩

theorem answersNext_coreTurn (s : State) : AnswersNext (coreTurn s) :=
  answersNext_ite (answersNext_ite ⟨_, rfl⟩ (answersNext_runWord _ _)) ⟨_, rfl⟩

theorem answersNext_hostEvent (e : HostEvent) (s : State) : AnswersNext (hostEvent e s) := by
  cases e with
  | coreTurn => exact answersNext_coreTurn s
  | read | write | releaseReset => exact answersNext_ite ⟨_, rfl⟩ ⟨_, rfl⟩
  | assertReset => exact ⟨_, rfl⟩

theorem answersNext_step (s : State) : AnswersNext (step s) := by
  unfold step
  cases s.pending with
  | nil => exact answersNext_coreTurn s
  | cons e rest => exact answersNext_hostEvent e _

/-! ## The span of reset (R165) -/

section
variable {s : State} {e : HostEvent} {rest : List HostEvent}

theorem step_of_pending_cons (hp : s.pending = e :: rest) : step s = hostEvent e { s with pending := rest } := by
  rw [step, hp]

theorem step_assertReset (hp : s.pending = .assertReset :: rest) :
    step s = .next { s with pending := rest, rst := true } :=
  step_of_pending_cons hp

/-- While reset is asserted a turn of the core does nothing. -/
theorem coreTurn_of_rst (hr : s.rst = true) : coreTurn s = .next s := by
  rw [coreTurn, hr, Bool.not_true, Bool.and_false]
  rfl

/-- While reset is asserted an event other than its release comes off the list and changes at most the answer, which a
read takes away. -/
theorem step_of_rst (hr : s.rst = true) (hp : s.pending = e :: rest) (he : e ≠ .releaseReset) :
    ∃ a, step s = .next { s with pending := rest, answer := a } ∧ ∀ o, e = .read o → a = none := by
  rw [step_of_pending_cons hp]
  cases e with
  | coreTurn => exact ⟨s.answer, coreTurn_of_rst (s := { s with pending := rest }) hr, fun _ h => nomatch h⟩
  | read o => exact ⟨none, if_pos hr, fun _ _ => rfl⟩
  | write o d => exact ⟨s.answer, if_pos hr, fun _ h => nomatch h⟩
  | assertReset => exact ⟨s.answer, by rw [hostEvent, hr], fun _ h => nomatch h⟩
  | releaseReset => exact absurd rfl he

/-- The release of an asserted reset is one step. -/
theorem step_releaseReset (hr : s.rst = true) (hp : s.pending = .releaseReset :: rest) :
    step s = .next ({ s with pending := rest } : State).release :=
  (step_of_pending_cons hp).trans (if_pos hr)

/-- A run that meets an asserted reset has no observation (R170). -/
theorem State.runEnd_of_rst (n : Nat) (hb : s.status.busy = true) (hr : s.rst = true) : State.runEnd n s = none := by
  cases n with
  | zero => exact State.observation_busy hb
  | succ n => rw [State.runEnd, if_pos hb, if_pos hr]

/-- A run whose next event is the assertion of reset has no observation, however long it is followed (R170). -/
theorem State.runEnd_of_assertReset (n : Nat) (hb : s.status.busy = true) (hp : s.pending = .assertReset :: rest) :
    State.runEnd n s = none := by
  cases hr : s.rst with
  | true => exact State.runEnd_of_rst n hb hr
  | false =>
    cases n with
    | zero => exact State.observation_busy hb
    | succ n =>
      rw [State.runEnd_step n hb hr (step_assertReset hp)]
      exact State.runEnd_of_rst n hb rfl

end

/-! ## The statements -/

/-- Settles O9: a step is a turn of the core or an event, and each ends in a next state whatever it tests. -/
theorem stepAlwaysAnswersNext : Obligations.StepAlwaysAnswersNext :=
  ⟨answersNext_step, answersNext_exec⟩

/-- Settles O2: between the assertion and the release an event reaches the list and the answer alone, and the release
gives the reset values whatever was there. -/
theorem resetAbandonsAndRestores : Obligations.ResetAbandonsAndRestores := by
  refine ⟨fun _ _ hp => step_assertReset hp, fun _ _ n hp hb => State.runEnd_of_assertReset n hb hp,
    fun s e rest hr hp he => ?span, fun _ hr hp => (step_of_pending_nil hp).trans (coreTurn_of_rst hr),
    fun s rest hr hp => ?release⟩
  case span =>
    obtain ⟨a, hstep, hanswer⟩ := step_of_rst hr hp he
    have hkeeps : KeepsProgramState s { s with pending := rest, answer := a } :=
      ⟨fun _ _ => rfl, fun _ _ => rfl, ⟨rfl, rfl⟩, rfl, fun _ => rfl, fun _ => rfl, fun _ => rfl, rfl⟩
    exact ⟨_, hstep, hkeeps, ⟨rfl, rfl, rfl, rfl⟩, hr, rfl, rfl, hanswer⟩
  case release =>
    exact ⟨_, step_releaseReset hr hp, State.hasResetValues_release _, rfl, rfl, rfl, rfl⟩

end Sys2Proof.Machine
end
